-- ==== Sys2Proof/Word.lean ====
section
/-! DEFINITION. The word types of the FFT256-R2 engine (30_encoding.md R70 to R72). -/

namespace Sys2Proof

/-- One byte of an operation's code (the model's own notation, log 7). -/
abbrev Byte := BitVec 8

/-- A Q16.16 scalar: a 32-bit two's-complement pattern with 16 fractional bits (R70). -/
abbrev Q16 := BitVec 32

/-- The pattern of an IEEE 754 binary64 value (40_fixed_point.md R103, 92_eei_decisions.md D25). -/
abbrev Double64 := BitVec 64

/-- A complex sample, the pair (re, im) of scalars (R71). -/
structure Sample where
  re : Q16
  im : Q16
  deriving DecidableEq, Repr

end Sys2Proof
end

