-- ==== Sys2Proof/Config.lean ====
section
/-! DEFINITION. What is fixed for one machine (10_state.md R36) and the free values of the model. -/

namespace Sys2Proof

/-- A channel's capacity: IN_DEPTH and OUT_DEPTH (00_scope.md R6, 92_eei_decisions.md D15). -/
inductive Depth where
  | unbounded
  | bounded (words : Nat)
  deriving DecidableEq, Repr

/-- Whether a channel of this depth takes one more word when it holds `held` words (R31, R32). -/
def Depth.hasRoom : Depth → Nat → Bool
  | .unbounded, _ => true
  | .bounded words, held => decide (held < words)

/-- A depth the spec admits: unbounded or a positive number (R6). -/
def Depth.legal : Depth → Bool
  | .unbounded => true
  | .bounded words => decide (0 < words)

/-- Whether a channel that holds `held` words is within its depth (R31, R32). -/
def Depth.holds : Depth → Nat → Bool
  | .unbounded, _ => true
  | .bounded words, held => decide (held ≤ words)

/-- The twiddle ROM's 128 entries, TW_RE[t] and TW_IM[t] (10_state.md R25). -/
abbrev TwTable := Vector Sample 128

/-- The parameters that the spec leaves to the implementation (R6). R36 makes them arguments of the step; the step's type
has no other argument than the state, so State carries them and no step writes them (log 1). -/
structure Params where
  twTable : TwTable
  drainOnFramingError : Bool
  inDepth : Depth
  outDepth : Depth
  deriving DecidableEq, Repr

/-- The parameters are ones the spec admits (R6): both depths are positive or unbounded. -/
def Params.legal (p : Params) : Bool := p.inDepth.legal && p.outDepth.legal

namespace Config

/-- The value of the counter n while no rule gives it one (R26, R35; log 13). Free: it has no body. -/
opaque freeN : Nat → BitVec 9
/-- The value of the counter i while no rule gives it one (R26, R35; log 13). Free: it has no body. -/
opaque freeI : Nat → BitVec 9
/-- The value of the counter s while no rule gives it one (R26, R35; log 13). Free: it has no body. -/
opaque freeS : Nat → BitVec 4
/-- The value of the counter k while no rule gives it one (R26, R35; log 13). Free: it has no body. -/
opaque freeK : Nat → BitVec 8
/-- The value of the bit ferr while no rule gives it one (R26, R35; log 13). Free: it has no body. -/
opaque freeFerr : Nat → Bool

end Config

end Sys2Proof
end

