-- ==== Sys2Proof/Syntax.lean ====
section
/-! DEFINITION. The operations of the engine, one constructor per row of spec/opcode_table.json (30_encoding.md R78), with
the operands their rules name. -/

namespace Sys2Proof

/-- A transport word, what one channel transfer moves (30_encoding.md R73). -/
structure TransportWord where
  data : BitVec 64
  keep : BitVec 8
  strb : BitVec 8
  last : Bool
  deriving DecidableEq, Repr

/-- The 81-bit listing form of a transport word: last, strb, keep, data from the top (R73). -/
def TransportWord.listing (w : TransportWord) : BitVec 81 :=
  (BitVec.ofBool w.last ++ w.strb ++ w.keep ++ w.data : BitVec (1 + 8 + 8 + 64))

/-- 256 defined complex values, the argument of a phase function (R123, R144, R145, R166). -/
structure Frame where
  re : Vector Q16 256
  im : Vector Q16 256
  deriving DecidableEq, Repr

/-- Where a phase function takes its pair of 256 values: written in the operation, or read from the engine's own buffers
(log 10). -/
inductive FrameOperand where
  | literal (f : Frame)
  | buffers
  deriving DecidableEq, Repr

/-- Where READ_FRAME and TRANSFORM take their word sequence: written in the operation, or the words in IN (log 10). -/
inductive WordsOperand where
  | literal (ws : List TransportWord)
  | channel
  deriving DecidableEq, Repr

/-- The 24 operations. An engine step names no operand (R121, R143): it reads the sequencer. -/
inductive Instr where
  /-- Q_ADD (R100) -/
  | qAdd (a b : Q16)
  /-- Q_SUB (R101) -/
  | qSub (a b : Q16)
  /-- Q_MUL (R102) -/
  | qMul (a b : Q16)
  /-- Q_FROM_DOUBLE (R103) -/
  | qFromDouble (x : Double64)
  /-- Q_TO_DOUBLE (R104) -/
  | qToDouble (q : Q16)
  /-- BITREV8 (R120) -/
  | bitrev8 (i : BitVec 8)
  /-- PERMUTE_STEP (R121) -/
  | permuteStep
  /-- PERMUTE (R123) -/
  | permute (x : FrameOperand)
  /-- TW_READ (R131) -/
  | twRead (t : BitVec 7)
  /-- CMUL_TW (R132) -/
  | cmulTw (br bi twR twI : Q16)
  /-- BUTTERFLY (R143) -/
  | butterfly
  /-- STAGE (R144); the stage number has the width of the counter s (R26), legal 0 to 7 -/
  | stage (s : BitVec 4) (w : FrameOperand)
  /-- BFLY_CORE (R145) -/
  | bflyCore (w : FrameOperand)
  /-- UNPACK (R160) -/
  | unpack (d : BitVec 64)
  /-- PACK (R161) -/
  | pack (re im : Q16)
  /-- READ_WORD (R162) -/
  | readWord
  /-- FRAMING_CHECK (R163) -/
  | framingCheck (n : BitVec 8) (last : Bool)
  /-- READ_FRAME (R164) -/
  | readFrame (u : WordsOperand)
  /-- WRITE_WORD (R165) -/
  | writeWord
  /-- WRITE_FRAME (R166) -/
  | writeFrame (w : FrameOperand)
  /-- START (R180) -/
  | start
  /-- TRANSFORM (R181) -/
  | transform (u : WordsOperand)
  /-- TRANSPORT_FAULT (R202) -/
  | transportFault
  /-- RESET (R230) -/
  | reset
  deriving DecidableEq, Repr

end Sys2Proof
end

