-- ==== Sys2Proof/WellFormed.lean ====
section
/-! DEFINITION. Which operations are well formed: the operand ranges that the operand types do not already say. -/

namespace Sys2Proof

/-- A word sequence has a code: its length fits the 16-bit count of the model's notation (log 7). -/
def WordsOperand.wellFormed : WordsOperand → Bool
  | .literal ws => decide (ws.length < 65536)
  | .channel => true

/-- The operand ranges of the rules: STAGE takes s in 0..7 (R144). Every other operand's range is its type. -/
def Instr.wellFormed : Instr → Bool
  | .stage s _ => decide (s.toNat < 8)
  | .readFrame u => u.wellFormed
  | .transform u => u.wellFormed
  | .qAdd _ _ | .qSub _ _ | .qMul _ _ | .qFromDouble _ | .qToDouble _ | .bitrev8 _ | .permuteStep | .permute _
  | .twRead _ | .cmulTw _ _ _ _ | .butterfly | .bflyCore _ | .unpack _ | .pack _ _ | .readWord | .framingCheck _ _
  | .writeWord | .writeFrame _ | .start | .transportFault | .reset => true

end Sys2Proof
end

