-- ==== Sys2Proof/Decode.lean ====
section
/-! DEFINITION. The model's notation for operations as bytes, its decoder and its encoder. The engine decodes nothing
(30_encoding.md R78): the OPID in bits 4:0 of the first byte is the spec's, with zeros above it; the operand bytes after it
are the model's own, least significant byte first (log 7). -/

namespace Sys2Proof

/-- Why a code is no operation. -/
inductive Reject where
  /-- there is no byte -/
  | noCode
  /-- the first byte is no OPID of R78: 0x18 to 0x1F, or a bit above bit 4 is set -/
  | noOperation (first : Byte)
  /-- the operand bytes end too early -/
  | cutShort
  /-- an operand byte is outside its operand's range -/
  | operandRange
  deriving DecidableEq, Repr

/-! ### Operand fields, read and written -/

/-- One byte. -/
def readByte : List Byte → Except Reject (Byte × List Byte)
  | b :: bs => .ok (b, bs)
  | [] => .error .cutShort

def bytes32 (v : BitVec 32) : List Byte :=
  [v.extractLsb' 0 8, v.extractLsb' 8 8, v.extractLsb' 16 8, v.extractLsb' 24 8]

/-- A 32-bit operand: four bytes, the least significant first. -/
def read32 : List Byte → Except Reject (BitVec 32 × List Byte)
  | b0 :: b1 :: b2 :: b3 :: bs => .ok ((b3 ++ b2 ++ b1 ++ b0 : BitVec (8 + 8 + 8 + 8)), bs)
  | _ => .error .cutShort

def bytes64 (v : BitVec 64) : List Byte :=
  bytes32 (v.extractLsb' 0 32) ++ bytes32 (v.extractLsb' 32 32)

/-- A 64-bit operand: eight bytes, the least significant first. -/
def read64 (bs : List Byte) : Except Reject (BitVec 64 × List Byte) := do
  let (low, bs) ← read32 bs
  let (high, bs) ← read32 bs
  return ((high ++ low : BitVec (32 + 32)), bs)

def byteOfBool (b : Bool) : Byte := if b then 1 else 0

/-- A one-bit operand: a byte that is 0 or 1. -/
def readBool (bs : List Byte) : Except Reject (Bool × List Byte) := do
  let (b, bs) ← readByte bs
  if b = 0 then return (false, bs)
  else if b = 1 then return (true, bs)
  else throw .operandRange

/-- A ROM index: a byte below 128 (R131). -/
def readRomIndex (bs : List Byte) : Except Reject (BitVec 7 × List Byte) := do
  let (b, bs) ← readByte bs
  if b.toNat < 128 then return (b.setWidth 7, bs) else throw .operandRange

/-- A stage number: a byte below 8 (R144). -/
def readStage (bs : List Byte) : Except Reject (BitVec 4 × List Byte) := do
  let (b, bs) ← readByte bs
  if b.toNat < 8 then return (b.setWidth 4, bs) else throw .operandRange

/-- `count` scalars, one after the other. -/
def readScalars : Nat → List Byte → Except Reject (List Q16 × List Byte)
  | 0, bs => .ok ([], bs)
  | count + 1, bs => do
    let (v, bs) ← read32 bs
    let (vs, bs) ← readScalars count bs
    return (v :: vs, bs)

def bytesOfScalars (vs : List Q16) : List Byte := vs.flatMap bytes32

/-- 256 scalars as one half of a frame. -/
def readHalfFrame (bs : List Byte) : Except Reject (Vector Q16 256 × List Byte) := do
  let (vs, bs) ← readScalars 256 bs
  if h : vs.length = 256 then return (⟨vs.toArray, by simpa using h⟩, bs) else throw .cutShort

def bytesOfTransportWord (w : TransportWord) : List Byte :=
  bytes64 w.data ++ [w.keep, w.strb, byteOfBool w.last]

/-- A transport word: the 81 bits of R73's listing form, least significant byte first. -/
def readTransportWord (bs : List Byte) : Except Reject (TransportWord × List Byte) := do
  let (data, bs) ← read64 bs
  let (keep, bs) ← readByte bs
  let (strb, bs) ← readByte bs
  let (last, bs) ← readBool bs
  return (⟨data, keep, strb, last⟩, bs)

/-- `count` transport words, one after the other. -/
def readTransportWords : Nat → List Byte → Except Reject (List TransportWord × List Byte)
  | 0, bs => .ok ([], bs)
  | count + 1, bs => do
    let (w, bs) ← readTransportWord bs
    let (ws, bs) ← readTransportWords count bs
    return (w :: ws, bs)

def bytesOfFrameOperand : FrameOperand → List Byte
  | .literal f => 0 :: (bytesOfScalars f.re.toList ++ bytesOfScalars f.im.toList)
  | .buffers => [1]

/-- A pair of 256 values: selector 0 and the values, real parts first, or selector 1 for the engine's own buffers. -/
def readFrameOperand (bs : List Byte) : Except Reject (FrameOperand × List Byte) := do
  let (own, bs) ← readBool bs
  if own then return (.buffers, bs)
  else
    let (re, bs) ← readHalfFrame bs
    let (im, bs) ← readHalfFrame bs
    return (.literal ⟨re, im⟩, bs)

def bytesOfWordsOperand : WordsOperand → List Byte
  | .literal ws =>
    0 :: (BitVec.ofNat 8 ws.length :: BitVec.ofNat 8 (ws.length / 256) :: ws.flatMap bytesOfTransportWord)
  | .channel => [1]

/-- A word sequence: selector 0, a 16-bit count and the words, or selector 1 for the words in IN. -/
def readWordsOperand (bs : List Byte) : Except Reject (WordsOperand × List Byte) := do
  let (own, bs) ← readBool bs
  if own then return (.channel, bs)
  else
    let (low, bs) ← readByte bs
    let (high, bs) ← readByte bs
    let (ws, bs) ← readTransportWords (low.toNat + 256 * high.toNat) bs
    return (.literal ws, bs)

/-! ### Operations -/

/-- The operation a code begins with, and the bytes after it. Total: every other code is rejected by name. -/
def decode : List Byte → Except Reject (Instr × List Byte)
  | [] => .error .noCode
  | op :: bs =>
    match op.toNat with
    | 0x00 => do
      let (a, bs) ← read32 bs
      let (b, bs) ← read32 bs
      return (.qAdd a b, bs)
    | 0x01 => do
      let (a, bs) ← read32 bs
      let (b, bs) ← read32 bs
      return (.qSub a b, bs)
    | 0x02 => do
      let (a, bs) ← read32 bs
      let (b, bs) ← read32 bs
      return (.qMul a b, bs)
    | 0x03 => do
      let (x, bs) ← read64 bs
      return (.qFromDouble x, bs)
    | 0x04 => do
      let (q, bs) ← read32 bs
      return (.qToDouble q, bs)
    | 0x05 => do
      let (i, bs) ← readByte bs
      return (.bitrev8 i, bs)
    | 0x06 => .ok (.permuteStep, bs)
    | 0x07 => do
      let (x, bs) ← readFrameOperand bs
      return (.permute x, bs)
    | 0x08 => do
      let (t, bs) ← readRomIndex bs
      return (.twRead t, bs)
    | 0x09 => do
      let (br, bs) ← read32 bs
      let (bi, bs) ← read32 bs
      let (twR, bs) ← read32 bs
      let (twI, bs) ← read32 bs
      return (.cmulTw br bi twR twI, bs)
    | 0x0A => .ok (.butterfly, bs)
    | 0x0B => do
      let (s, bs) ← readStage bs
      let (w, bs) ← readFrameOperand bs
      return (.stage s w, bs)
    | 0x0C => do
      let (w, bs) ← readFrameOperand bs
      return (.bflyCore w, bs)
    | 0x0D => do
      let (d, bs) ← read64 bs
      return (.unpack d, bs)
    | 0x0E => do
      let (re, bs) ← read32 bs
      let (im, bs) ← read32 bs
      return (.pack re im, bs)
    | 0x0F => .ok (.readWord, bs)
    | 0x10 => do
      let (n, bs) ← readByte bs
      let (last, bs) ← readBool bs
      return (.framingCheck n last, bs)
    | 0x11 => do
      let (u, bs) ← readWordsOperand bs
      return (.readFrame u, bs)
    | 0x12 => .ok (.writeWord, bs)
    | 0x13 => do
      let (w, bs) ← readFrameOperand bs
      return (.writeFrame w, bs)
    | 0x14 => .ok (.start, bs)
    | 0x15 => do
      let (u, bs) ← readWordsOperand bs
      return (.transform u, bs)
    | 0x16 => .ok (.transportFault, bs)
    | 0x17 => .ok (.reset, bs)
    | _ => .error (.noOperation op)

/-- The OPID of an operation, the table of R78. -/
def Instr.opid : Instr → Byte
  | .qAdd _ _ => 0x00
  | .qSub _ _ => 0x01
  | .qMul _ _ => 0x02
  | .qFromDouble _ => 0x03
  | .qToDouble _ => 0x04
  | .bitrev8 _ => 0x05
  | .permuteStep => 0x06
  | .permute _ => 0x07
  | .twRead _ => 0x08
  | .cmulTw _ _ _ _ => 0x09
  | .butterfly => 0x0A
  | .stage _ _ => 0x0B
  | .bflyCore _ => 0x0C
  | .unpack _ => 0x0D
  | .pack _ _ => 0x0E
  | .readWord => 0x0F
  | .framingCheck _ _ => 0x10
  | .readFrame _ => 0x11
  | .writeWord => 0x12
  | .writeFrame _ => 0x13
  | .start => 0x14
  | .transform _ => 0x15
  | .transportFault => 0x16
  | .reset => 0x17

/-- The operand bytes of an operation. -/
def Instr.operandBytes : Instr → List Byte
  | .qAdd a b => bytes32 a ++ bytes32 b
  | .qSub a b => bytes32 a ++ bytes32 b
  | .qMul a b => bytes32 a ++ bytes32 b
  | .qFromDouble x => bytes64 x
  | .qToDouble q => bytes32 q
  | .bitrev8 i => [i]
  | .permuteStep => []
  | .permute x => bytesOfFrameOperand x
  | .twRead t => [t.setWidth 8]
  | .cmulTw br bi twR twI => bytes32 br ++ bytes32 bi ++ bytes32 twR ++ bytes32 twI
  | .butterfly => []
  | .stage s w => s.setWidth 8 :: bytesOfFrameOperand w
  | .bflyCore w => bytesOfFrameOperand w
  | .unpack d => bytes64 d
  | .pack re im => bytes32 re ++ bytes32 im
  | .readWord => []
  | .framingCheck n last => [n, byteOfBool last]
  | .readFrame u => bytesOfWordsOperand u
  | .writeWord => []
  | .writeFrame w => bytesOfFrameOperand w
  | .start => []
  | .transform u => bytesOfWordsOperand u
  | .transportFault => []
  | .reset => []

/-- The code of an operation. -/
def encode (i : Instr) : List Byte := i.opid :: i.operandBytes

/-! ### Opcode-table words -/

/-- The low `count` bytes of `w`, the least significant first. -/
def bytesOfNat : Nat → Nat → List Byte
  | 0, _ => []
  | count + 1, w => BitVec.ofNat 8 w :: bytesOfNat count (w / 256)

/-- More zero bytes than the operands of any operation take when all of them are zero. -/
def zeroOperands : List Byte := List.replicate 2064 0

/-- The code of an opcode-table word: its bytes and operand bytes of zeros. -/
def tableCode (nbits w : Nat) : List Byte := bytesOfNat ((nbits + 7) / 8) w ++ zeroOperands

/-- The operation the decoder reads from an opcode-table word, numbered as the table numbers its bits. -/
def decodeTableWord (nbits w : Nat) : Option Instr :=
  match decode (tableCode nbits w) with
  | .ok (i, _) => some i
  | .error _ => none

end Sys2Proof
end

