-- ==== Sys2Proof/Machine/Rom.lean ====
section
/-! DEFINITION. The twiddle ROM's contents: the table of 42_twiddle.md R130, as it stands there (log 3). -/

namespace Sys2Proof.Machine

/-- One row of R130's table, the patterns of TW_RE[t] and TW_IM[t]. -/
def romRow (re im : Nat) : Sample := ⟨BitVec.ofNat 32 re, BitVec.ofNat 32 im⟩

/-- R130, rows 0 to 15. -/
def romRows0 : List Sample := [
  romRow 0x00010000 0x00000000,
  romRow 0x0000FFEC 0xFFFFF9B8,
  romRow 0x0000FFB1 0xFFFFF371,
  romRow 0x0000FF4E 0xFFFFED2B,
  romRow 0x0000FEC4 0xFFFFE6E9,
  romRow 0x0000FE13 0xFFFFE0AA,
  romRow 0x0000FD3A 0xFFFFDA70,
  romRow 0x0000FC3B 0xFFFFD43C,
  romRow 0x0000FB14 0xFFFFCE0F,
  romRow 0x0000F9C7 0xFFFFC7E9,
  romRow 0x0000F853 0xFFFFC1CD,
  romRow 0x0000F6BA 0xFFFFBBB9,
  romRow 0x0000F4FA 0xFFFFB5B0,
  romRow 0x0000F314 0xFFFFAFB3,
  romRow 0x0000F109 0xFFFFA9C2,
  romRow 0x0000EED8 0xFFFFA3DE]

/-- R130, rows 16 to 31. -/
def romRows1 : List Sample := [
  romRow 0x0000EC83 0xFFFF9E09,
  romRow 0x0000EA09 0xFFFF9843,
  romRow 0x0000E76B 0xFFFF928C,
  romRow 0x0000E4AA 0xFFFF8CE7,
  romRow 0x0000E1C5 0xFFFF8753,
  romRow 0x0000DEBE 0xFFFF81D2,
  romRow 0x0000DB94 0xFFFF7C64,
  romRow 0x0000D848 0xFFFF770B,
  romRow 0x0000D4DB 0xFFFF71C7,
  romRow 0x0000D14D 0xFFFF6C98,
  romRow 0x0000CD9F 0xFFFF6781,
  romRow 0x0000C9D1 0xFFFF6281,
  romRow 0x0000C5E4 0xFFFF5D99,
  romRow 0x0000C1D8 0xFFFF58CA,
  romRow 0x0000BDAE 0xFFFF5415,
  romRow 0x0000B968 0xFFFF4F7B]

/-- R130, rows 32 to 47. -/
def romRows2 : List Sample := [
  romRow 0x0000B504 0xFFFF4AFC,
  romRow 0x0000B085 0xFFFF4698,
  romRow 0x0000ABEB 0xFFFF4252,
  romRow 0x0000A736 0xFFFF3E28,
  romRow 0x0000A267 0xFFFF3A1C,
  romRow 0x00009D7F 0xFFFF362F,
  romRow 0x0000987F 0xFFFF3261,
  romRow 0x00009368 0xFFFF2EB3,
  romRow 0x00008E39 0xFFFF2B25,
  romRow 0x000088F5 0xFFFF27B8,
  romRow 0x0000839C 0xFFFF246C,
  romRow 0x00007E2E 0xFFFF2142,
  romRow 0x000078AD 0xFFFF1E3B,
  romRow 0x00007319 0xFFFF1B56,
  romRow 0x00006D74 0xFFFF1895,
  romRow 0x000067BD 0xFFFF15F7]

/-- R130, rows 48 to 63. -/
def romRows3 : List Sample := [
  romRow 0x000061F7 0xFFFF137D,
  romRow 0x00005C22 0xFFFF1128,
  romRow 0x0000563E 0xFFFF0EF7,
  romRow 0x0000504D 0xFFFF0CEC,
  romRow 0x00004A50 0xFFFF0B06,
  romRow 0x00004447 0xFFFF0946,
  romRow 0x00003E33 0xFFFF07AD,
  romRow 0x00003817 0xFFFF0639,
  romRow 0x000031F1 0xFFFF04EC,
  romRow 0x00002BC4 0xFFFF03C5,
  romRow 0x00002590 0xFFFF02C6,
  romRow 0x00001F56 0xFFFF01ED,
  romRow 0x00001917 0xFFFF013C,
  romRow 0x000012D5 0xFFFF00B2,
  romRow 0x00000C8F 0xFFFF004F,
  romRow 0x00000648 0xFFFF0014]

/-- R130, rows 64 to 79. -/
def romRows4 : List Sample := [
  romRow 0x00000000 0xFFFF0000,
  romRow 0xFFFFF9B8 0xFFFF0014,
  romRow 0xFFFFF371 0xFFFF004F,
  romRow 0xFFFFED2B 0xFFFF00B2,
  romRow 0xFFFFE6E9 0xFFFF013C,
  romRow 0xFFFFE0AA 0xFFFF01ED,
  romRow 0xFFFFDA70 0xFFFF02C6,
  romRow 0xFFFFD43C 0xFFFF03C5,
  romRow 0xFFFFCE0F 0xFFFF04EC,
  romRow 0xFFFFC7E9 0xFFFF0639,
  romRow 0xFFFFC1CD 0xFFFF07AD,
  romRow 0xFFFFBBB9 0xFFFF0946,
  romRow 0xFFFFB5B0 0xFFFF0B06,
  romRow 0xFFFFAFB3 0xFFFF0CEC,
  romRow 0xFFFFA9C2 0xFFFF0EF7,
  romRow 0xFFFFA3DE 0xFFFF1128]

/-- R130, rows 80 to 95. -/
def romRows5 : List Sample := [
  romRow 0xFFFF9E09 0xFFFF137D,
  romRow 0xFFFF9843 0xFFFF15F7,
  romRow 0xFFFF928C 0xFFFF1895,
  romRow 0xFFFF8CE7 0xFFFF1B56,
  romRow 0xFFFF8753 0xFFFF1E3B,
  romRow 0xFFFF81D2 0xFFFF2142,
  romRow 0xFFFF7C64 0xFFFF246C,
  romRow 0xFFFF770B 0xFFFF27B8,
  romRow 0xFFFF71C7 0xFFFF2B25,
  romRow 0xFFFF6C98 0xFFFF2EB3,
  romRow 0xFFFF6781 0xFFFF3261,
  romRow 0xFFFF6281 0xFFFF362F,
  romRow 0xFFFF5D99 0xFFFF3A1C,
  romRow 0xFFFF58CA 0xFFFF3E28,
  romRow 0xFFFF5415 0xFFFF4252,
  romRow 0xFFFF4F7B 0xFFFF4698]

/-- R130, rows 96 to 111. -/
def romRows6 : List Sample := [
  romRow 0xFFFF4AFC 0xFFFF4AFC,
  romRow 0xFFFF4698 0xFFFF4F7B,
  romRow 0xFFFF4252 0xFFFF5415,
  romRow 0xFFFF3E28 0xFFFF58CA,
  romRow 0xFFFF3A1C 0xFFFF5D99,
  romRow 0xFFFF362F 0xFFFF6281,
  romRow 0xFFFF3261 0xFFFF6781,
  romRow 0xFFFF2EB3 0xFFFF6C98,
  romRow 0xFFFF2B25 0xFFFF71C7,
  romRow 0xFFFF27B8 0xFFFF770B,
  romRow 0xFFFF246C 0xFFFF7C64,
  romRow 0xFFFF2142 0xFFFF81D2,
  romRow 0xFFFF1E3B 0xFFFF8753,
  romRow 0xFFFF1B56 0xFFFF8CE7,
  romRow 0xFFFF1895 0xFFFF928C,
  romRow 0xFFFF15F7 0xFFFF9843]

/-- R130, rows 112 to 127. -/
def romRows7 : List Sample := [
  romRow 0xFFFF137D 0xFFFF9E09,
  romRow 0xFFFF1128 0xFFFFA3DE,
  romRow 0xFFFF0EF7 0xFFFFA9C2,
  romRow 0xFFFF0CEC 0xFFFFAFB3,
  romRow 0xFFFF0B06 0xFFFFB5B0,
  romRow 0xFFFF0946 0xFFFFBBB9,
  romRow 0xFFFF07AD 0xFFFFC1CD,
  romRow 0xFFFF0639 0xFFFFC7E9,
  romRow 0xFFFF04EC 0xFFFFCE0F,
  romRow 0xFFFF03C5 0xFFFFD43C,
  romRow 0xFFFF02C6 0xFFFFDA70,
  romRow 0xFFFF01ED 0xFFFFE0AA,
  romRow 0xFFFF013C 0xFFFFE6E9,
  romRow 0xFFFF00B2 0xFFFFED2B,
  romRow 0xFFFF004F 0xFFFFF371,
  romRow 0xFFFF0014 0xFFFFF9B8]

/-- The 128 rows of R130's table in order. -/
def romRows : List Sample :=
  romRows0 ++ romRows1 ++ romRows2 ++ romRows3 ++ romRows4 ++ romRows5 ++ romRows6 ++ romRows7

/-- TW_TABLE's default value (00_scope.md R6): the table of R130. -/
def defaultTwTable : TwTable := ⟨romRows.toArray, rfl⟩

end Sys2Proof.Machine
end

