-- ==== Sys2Proof/Machine/State.lean ====
section
/-! DEFINITION. The machine's state (10_state.md), the reasons a run stops, and the state after reset (R35). -/

namespace Sys2Proof.Machine

/-- Why the machine stops with a fault. These are the model-level faults of 60_exceptions.md R212; the engine's own errors,
FramingError and TransportError, are no faults: they are next states (R203). -/
inductive Fault where
  /-- A step or a phase function reads an element that is `undef` (R24, R212). Raised by `Bank.read` and `Bank.toFrame`. Safe: the model
  stops where the spec gives no value. -/
  | undefRead
  /-- An index lies outside its space (R52, R212). Raised by `Bank.read`, `Bank.write`, `romRead` and, for a stage number
  above 7, `execStage`. Safe: the model stops. -/
  | indexRange
  /-- The machine carries the permanent HostProtocol mark (R209). Raised by `step`. Safe: no source says what the hardware
  does after a START while busy. -/
  | hostProtocol
  deriving DecidableEq, Repr

/-- Why an operation has no meaning. -/
inductive Refusal where
  /-- An arm of `exec` without a meaning. No arm is one. Safe. -/
  | notModelled (mnemonic : String)
  /-- A code that is no operation: OPIDs 0x18 to 0x1F and malformed operands (R78, 93_implementation_defined.md). Raised by
  `step`. Safe: the spec names no such operation. -/
  | badCode (why : Reject)
  /-- Q_FROM_DOUBLE of a NaN or an infinity (R103: a model refuses them). Raised by `execQFromDouble`. Safe: the spec gives
  no effect. -/
  | notFinite
  deriving DecidableEq, Repr

/-- The sequencer's position (R26). -/
inductive Phase where
  | idle
  | read
  | permute
  | bfly
  | write
  deriving DecidableEq, Repr

/-- STATUS (R28, 30_encoding.md R77). All four codes are used. -/
inductive Status where
  | none
  | ok
  | framingError
  | transportError
  deriving DecidableEq, Repr

/-- One buffer pair, IN_* (R22) or W_* (R23): 256 elements of real and 256 of imaginary parts, each a 32-bit value or the
mark `undef` (R24), which is `none` here. -/
structure Bank where
  re : Vector (Option Q16) 256
  im : Vector (Option Q16) 256
  deriving DecidableEq, Repr

/-- Every element is `undef` (R24, R35). -/
def Bank.undef : Bank := ⟨Vector.replicate 256 none, Vector.replicate 256 none⟩

/-- What READ_FRAME answers (44_frame_io.md R164). `waits` where the words run out first (R167, log 11). -/
inductive ReadOutcome where
  | waits
  | framingError (consumed : Nat)
  | ok (x : Frame) (consumed : Nat)
  deriving DecidableEq, Repr

/-- What TRANSFORM answers (45_control.md R181): the output words, the number of words consumed and STATUS. -/
inductive TransformOutcome where
  | waits
  | ended (output : List TransportWord) (consumed : Nat) (status : Status)
  deriving DecidableEq, Repr

/-- The value of a pure function, the model's own record of it (log 9). -/
inductive Result where
  | none
  | scalar (q : Q16)
  | double (x : Double64)
  | index (i : BitVec 8)
  | sample (v : Sample)
  | packed (d : BitVec 64)
  | verdict (holds : Bool)
  | frame (f : Frame)
  | words (ws : List TransportWord)
  | frameRead (r : ReadOutcome)
  | transformed (r : TransformOutcome)
  deriving DecidableEq, Repr

/-- One move that is due, of one agent (R20). -/
inductive Action where
  /-- an operation of the opcode table, as its code: the host's START and RESET, the producer's TRANSPORT_FAULT, a step of
  the engine by its name, or a pure function -/
  | operation (code : List Byte)
  /-- the producer appends a word to IN (R31) -/
  | send (w : TransportWord)
  /-- the consumer removes the head of OUT (R32) -/
  | recv
  /-- the host waits until DONE = 1 (30_encoding.md R80) -/
  | waitDone
  /-- the engine takes its enabled step, if it has one -/
  | engineStep
  /-- the engine takes steps until it has none enabled (R80's schedule) -/
  | settle
  deriving DecidableEq, Repr

/-- One entry of the agenda: one move, or moves that coincide (60_exceptions.md R205). -/
inductive Turn where
  | one (a : Action)
  | together (as : List Action)
  deriving DecidableEq, Repr

/-- The machine. INVENTORY.md, State, gives the rule of each field. -/
structure State where
  /-- R26 -/
  phase : Phase
  /-- R26: index of the next input or output word, read in READ and WRITE only -/
  n : BitVec 9
  /-- R26: next natural index to move, read in PERMUTE only -/
  i : BitVec 9
  /-- R26: current stage, read in BFLY only -/
  s : BitVec 4
  /-- R26: next butterfly of the stage, read in BFLY only -/
  k : BitVec 8
  /-- R26: a word of this frame failed FRAMING_CHECK, read in READ only -/
  ferr : Bool
  /-- IN_RE, IN_IM (R22) -/
  inBuf : Bank
  /-- W_RE, W_IM (R23) -/
  wBuf : Bank
  /-- DONE (R28) -/
  doneFlag : Bool
  /-- STATUS (R28) -/
  status : Status
  /-- the input channel, head first (R31) -/
  inChan : List TransportWord
  /-- the output channel, head first (R32) -/
  outChan : List TransportWord
  /-- the permanent HostProtocol mark (R209) -/
  protocolFault : Bool
  /-- the parameters (R36), which no step writes -/
  params : Params
  /-- the model's own: the moves that are due, in order (log 4) -/
  agenda : List Turn
  /-- the model's own: the words the consumer has taken, oldest first (log 24) -/
  received : List TransportWord
  /-- the model's own: the value of the last pure function run (log 9) -/
  result : Result
  /-- the model's own: what the free values of unspecified counters are drawn by (log 13) -/
  draws : Nat
  deriving DecidableEq, Repr

/-- The spec's default parameters (00_scope.md R6; the depths are those of its vectors, 95_test_vectors.md; log 2). -/
def defaultParams : Params := ⟨defaultTwTable, false, .unbounded, .unbounded⟩

/-- The machine right after RESET (R35). The counters, which R35 leaves unspecified, are zero (log 14); the channels, which
RESET leaves alone, are empty (log 15); the mark, which RESET leaves alone, is clear (log 16). -/
def State.reset : State where
  phase := .idle
  n := 0
  i := 0
  s := 0
  k := 0
  ferr := false
  inBuf := Bank.undef
  wBuf := Bank.undef
  doneFlag := false
  status := .none
  inChan := []
  outChan := []
  protocolFault := false
  params := defaultParams
  agenda := []
  received := []
  result := .none
  draws := 0

end Sys2Proof.Machine
end

