-- ==== Sys2Proof/Machine/Ops.lean ====
section
/-! DEFINITION. The named operations over buffers, ROM, channels and sequencer (00_scope.md R9), and the error entry
(60_exceptions.md R203). No return from an error exists (R206): a START follows. -/

namespace Sys2Proof

/-- Sample `i` of 256 values. -/
def Frame.read (f : Frame) (i : BitVec 8) : Sample := ⟨f.re[i.toNat]'i.isLt, f.im[i.toNat]'i.isLt⟩

/-- 256 values with sample `i` replaced. -/
def Frame.write (f : Frame) (i : BitVec 8) (v : Sample) : Frame :=
  ⟨f.re.set i.toNat v.re i.isLt, f.im.set i.toNat v.im i.isLt⟩

/-- The frame whose sample `i` is `g i`. -/
def Frame.tabulate (g : BitVec 8 → Sample) : Frame :=
  ⟨Vector.ofFn fun i => (g (BitVec.ofFin i)).re, Vector.ofFn fun i => (g (BitVec.ofFin i)).im⟩

end Sys2Proof

namespace Sys2Proof.Machine

/-! ### Field updates -/

/-- IN's new contents (R31). -/
def State.setInChan (st : State) (ws : List TransportWord) : State := { st with inChan := ws }
/-- OUT's new contents (R32). -/
def State.setOutChan (st : State) (ws : List TransportWord) : State := { st with outChan := ws }
/-- New contents of IN_RE and IN_IM (R22). -/
def State.setInBuf (st : State) (b : Bank) : State := { st with inBuf := b }
/-- New contents of W_RE and W_IM (R23). -/
def State.setWBuf (st : State) (b : Bank) : State := { st with wBuf := b }
/-- ferr's new value (R26). -/
def State.setFerr (st : State) (b : Bool) : State := { st with ferr := b }
/-- New values of DONE and STATUS (R28). -/
def State.setOutcome (st : State) (done : Bool) (code : Status) : State := { st with doneFlag := done, status := code }
/-- The HostProtocol mark is set, for good (R209). -/
def State.markProtocolFault (st : State) : State := { st with protocolFault := true }
/-- The value of a pure function (log 9). -/
def State.setResult (st : State) (r : Result) : State := { st with result := r }
/-- The moves that are left (log 4). -/
def State.setAgenda (st : State) (turns : List Turn) : State := { st with agenda := turns }
/-- The consumer has taken one more word (R32, log 24). -/
def State.take (st : State) (w : TransportWord) : State := { st with received := st.received ++ [w] }

/-! ### The sequencer -/

/-- A phase with its counters, the right side of `seq <- (phase, counters)` (R9). -/
inductive Position where
  | idle
  | read (n : BitVec 9)
  | permute (i : BitVec 9)
  | bfly (s : BitVec 4) (k : BitVec 8)
  | write (n : BitVec 9)
  deriving DecidableEq, Repr

def Position.phase : Position → Phase
  | .idle => .idle
  | .read _ => .read
  | .permute _ => .permute
  | .bfly _ _ => .bfly
  | .write _ => .write

/-- The counter n of a position; the free value `other` where the position has none (R26). -/
def Position.counterN (other : BitVec 9) : Position → BitVec 9
  | .read n => n
  | .write n => n
  | .idle | .permute _ | .bfly _ _ => other

/-- The counter i of a position (R26). -/
def Position.counterI (other : BitVec 9) : Position → BitVec 9
  | .permute i => i
  | .idle | .read _ | .bfly _ _ | .write _ => other

/-- The counter s of a position (R26). -/
def Position.counterS (other : BitVec 4) : Position → BitVec 4
  | .bfly s _ => s
  | .idle | .read _ | .permute _ | .write _ => other

/-- The counter k of a position (R26). -/
def Position.counterK (other : BitVec 8) : Position → BitVec 8
  | .bfly _ k => k
  | .idle | .read _ | .permute _ | .write _ => other

/-- ferr keeps its value through READ and has none elsewhere (R26). -/
def Position.counterFerr (kept other : Bool) : Position → Bool
  | .read _ => kept
  | .idle | .permute _ | .bfly _ _ | .write _ => other

/-- `seq <- p` (R9). A counter that R26 gives no meaning in the new phase takes a free value (log 13). -/
def State.setSeq (st : State) (p : Position) : State :=
  { st with
    phase := p.phase
    n := p.counterN (Config.freeN st.draws)
    i := p.counterI (Config.freeI st.draws)
    s := p.counterS (Config.freeS st.draws)
    k := p.counterK (Config.freeK st.draws)
    ferr := p.counterFerr st.ferr (Config.freeFerr st.draws)
    draws := st.draws + 1 }

/-! ### Buffers and ROM -/

/-- A buffer pair that holds 256 defined values. -/
def Bank.ofFrame (f : Frame) : Bank := ⟨f.re.map some, f.im.map some⟩

/-- Every element of a buffer pair is defined. -/
def Bank.allDefined (b : Bank) : Bool := b.re.all Option.isSome && b.im.all Option.isSome

/-- The 256 values of a buffer pair; UndefRead where one is `undef` (R24). The zero stands for no element: every one is
defined there. -/
def Bank.toFrame (b : Bank) : Except Fault Frame :=
  if b.allDefined then .ok ⟨b.re.map (·.getD 0), b.im.map (·.getD 0)⟩ else .error .undefRead

/-- `(B_RE[i], B_IM[i])`: IndexRange outside 0..255 (R52), UndefRead at an `undef` element (R24). -/
def Bank.read (b : Bank) (i : Nat) : Except Fault Sample :=
  if h : i < 256 then
    match b.re[i], b.im[i] with
    | some re, some im => .ok ⟨re, im⟩
    | _, _ => .error .undefRead
  else .error .indexRange

/-- `B_RE[i] <- v.re; B_IM[i] <- v.im`: whole elements (R51), IndexRange outside 0..255 (R52). -/
def Bank.write (b : Bank) (i : Nat) (v : Sample) : Except Fault Bank :=
  if h : i < 256 then .ok ⟨b.re.set i (some v.re), b.im.set i (some v.im)⟩
  else .error .indexRange

/-- TW_READ(t) = (TW_RE[t], TW_IM[t]) (R131). -/
def twRead (rom : TwTable) (t : BitVec 7) : Sample := rom[t.toNat]'t.isLt

/-- The ROM read at a computed index: IndexRange outside 0..127 (R52). -/
def romRead (rom : TwTable) (t : Nat) : Except Fault Sample :=
  if h : t < 128 then .ok rom[t] else .error .indexRange

/-- Every buffer element becomes `undef` (R183, R203, R230). -/
def State.discardBuffers (st : State) : State := (st.setInBuf Bank.undef).setWBuf Bank.undef

/-! ### Channels -/

/-- `ChanPush(OUT, w)` (R9, R32): the word goes to the tail. -/
def State.pushOut (st : State) (w : TransportWord) : State := st.setOutChan (st.outChan ++ [w])

/-- The producer's append (R31): the word goes to the tail. -/
def State.pushIn (st : State) (w : TransportWord) : State := st.setInChan (st.inChan ++ [w])

/-- OUT holds fewer than OUT_DEPTH words (R9). -/
def State.outHasRoom (st : State) : Bool := st.params.outDepth.hasRoom st.outChan.length

/-- IN holds fewer than IN_DEPTH words (R31). -/
def State.inHasRoom (st : State) : Bool := st.params.inDepth.hasRoom st.inChan.length

/-! ### The ends of a transform -/

/-- Error entry, `raise FramingError()` or `raise TransportError()` (R203): IDLE, DONE = 1, STATUS, buffers discarded. -/
def State.errorEntry (st : State) (code : Status) : State :=
  ((st.setSeq .idle).setOutcome true code).discardBuffers

/-- COMPLETE (R183): IDLE, DONE = 1, STATUS = OK, buffers discarded. -/
def State.complete (st : State) : State := ((st.setSeq .idle).setOutcome true .ok).discardBuffers

/-- RESET (R230): IDLE, DONE = 0, STATUS = NONE, buffers discarded; channels, ROM and the HostProtocol mark stay. -/
def State.resetEngine (st : State) : State := ((st.setSeq .idle).setOutcome false .none).discardBuffers

/-- START in IDLE (R180): DONE, STATUS and ferr cleared, then READ at word 0. -/
def State.begin (st : State) : State := ((st.setOutcome false .none).setFerr false).setSeq (.read 0)

end Sys2Proof.Machine
end

