-- ==== Sys2Proof/Machine/Operands.lean ====
section
/-! DEFINITION. The operands of the phase functions (log 10). -/

namespace Sys2Proof.Machine

/-- The pair of 256 values: the one written in the operation, or the engine's own buffer pair `own` (UndefRead where an
element of it is `undef`, R24). -/
def frameOperand (own : Bank) : FrameOperand → Except Fault Frame
  | .literal f => .ok f
  | .buffers => own.toFrame

/-- The word sequence: the one written in the operation, or the words in IN (R164, R181). -/
def wordsOperand (inChan : List TransportWord) : WordsOperand → List TransportWord
  | .literal ws => ws
  | .channel => inChan

/-- A pure function's value is recorded and nothing else changes (R10, log 9). -/
def State.recordResult (st : State) (r : Result) : Host.Outcome State Fault Refusal := .next (st.setResult r)

/-- The value of a phase function at its operand is recorded; a read of an `undef` element stops the machine (R24). -/
def State.recordOfFrame (st : State) (own : Bank) (x : FrameOperand) (value : Frame → Result) :
    Host.Outcome State Fault Refusal :=
  match frameOperand own x with
  | .ok f => st.recordResult (value f)
  | .error f => .fault f

end Sys2Proof.Machine
end

