-- ==== Sys2Proof/Machine/BitReverse.lean ====
section
/-! DEFINITION. The bit-reversal permutation unit (41_bit_reversal.md). -/

namespace Sys2Proof.Machine

/-- Bit `k` of an index as a 1-bit vector. -/
def indexBit (i : BitVec 8) (k : Nat) : BitVec 1 := i.extractLsb' k 1

/-- BITREV8 (R120): bit 0 of the input becomes bit 7, and so on. -/
def bitrev8 (i : BitVec 8) : BitVec 8 :=
  (indexBit i 0 ++ indexBit i 1 ++ indexBit i 2 ++ indexBit i 3 ++ indexBit i 4 ++ indexBit i 5 ++ indexBit i 6
    ++ indexBit i 7 : BitVec (1 + 1 + 1 + 1 + 1 + 1 + 1 + 1))

/-- One move: `W[BITREV8(i)] <- IN[i]` (R121). -/
def permuteMove (source : Bank) (i : Nat) (target : Bank) : Except Fault Bank :=
  match source.read i with
  | .ok v => target.write (bitrev8 (BitVec.ofNat 8 i)).toNat v
  | .error f => .error f

/-- The moves `is` of the permuter, in this order (R121). -/
def permuteMoves (source : Bank) (is : List Nat) (target : Bank) : Except Fault Bank :=
  is.foldlM (fun target i => permuteMove source i target) target

/-- PERMUTE (R123), in its second form: out[m] = in[BITREV8(m)]. -/
def permute (x : Frame) : Frame := Frame.tabulate fun m => x.read (bitrev8 m)

/-! ### Meanings -/

def execBitrev8 (i : BitVec 8) (st : State) : Host.Outcome State Fault Refusal :=
  st.recordResult (.index (bitrev8 i))

/-- PERMUTE_STEP is enabled (R121). -/
def State.permuteEnabled (st : State) : Bool := decide (st.phase = .permute) && decide (st.i.toNat < 256)

/-- The sequencer after the move of index i (R121, R182). -/
def afterMove (i : BitVec 9) : Position := if i = 255 then .bfly 0 0 else .permute (i + 1)

/-- PERMUTE_STEP (R121). A step that is not enabled changes nothing (R10). -/
def execPermuteStep (st : State) : Host.Outcome State Fault Refusal :=
  if st.permuteEnabled then
    match permuteMove st.inBuf st.i.toNat st.wBuf with
    | .ok w => .next ((st.setWBuf w).setSeq (afterMove st.i))
    | .error f => .fault f
  else .next st

/-- PERMUTE (R123) of a given pair or of IN_RE, IN_IM. -/
def execPermute (x : FrameOperand) (st : State) : Host.Outcome State Fault Refusal :=
  st.recordOfFrame st.inBuf x fun f => .frame (permute f)

end Sys2Proof.Machine
end

