-- ==== Sys2Proof/Machine/FixedPoint.lean ====
section
/-! DEFINITION. The Q16.16 primitives (40_fixed_point.md). Each is computed on integers and wrapped at the end (R8). -/

namespace Sys2Proof.Machine

/-- `wrap_32` (R8). -/
def wrap32 (x : Int) : Q16 := BitVec.ofInt 32 x

/-- `x >> s` on an integer: floor(x / 2^s) (R8). -/
def shiftFloor (x : Int) (s : Nat) : Int := x / 2 ^ s

/-- Q_ADD (R100). -/
def qAdd (a b : Q16) : Q16 := wrap32 (a.toInt + b.toInt)

/-- Q_SUB (R101). -/
def qSub (a b : Q16) : Q16 := wrap32 (a.toInt - b.toInt)

/-- Q_MUL (R102): the exact product, shifted with floor, then wrapped. -/
def qMul (a b : Q16) : Q16 := wrap32 (shiftFloor (a.toInt * b.toInt) 16)

/-- The exponent field of a binary64 pattern. -/
def doubleExponent (x : Double64) : Nat := (x.extractLsb' 52 11).toNat

/-- The fraction field of a binary64 pattern. -/
def doubleFraction (x : Double64) : Nat := (x.extractLsb' 0 52).toNat

/-- Neither a NaN nor an infinity. -/
def doubleFinite (x : Double64) : Bool := decide (doubleExponent x < 2047)

/-- The significand of a finite binary64 value: |x| = significand * 2^(scale - 1075). -/
def doubleSignificand (x : Double64) : Nat :=
  if doubleExponent x = 0 then doubleFraction x else 2 ^ 52 + doubleFraction x

/-- The scale of a finite binary64 value; a subnormal has the scale of exponent 1. -/
def doubleScale (x : Double64) : Nat := max (doubleExponent x) 1

/-- trunc0(|x| * 65536), exact: |x| * 65536 = significand * 2^(scale - 1059) (R103, log 19). -/
def doubleScaledMagnitude (x : Double64) : Nat :=
  if 1059 ≤ doubleScale x then doubleSignificand x * 2 ^ (doubleScale x - 1059)
  else doubleSignificand x / 2 ^ (1059 - doubleScale x)

/-- Q_FROM_DOUBLE of a finite value (R103): truncation toward zero, then wrap. -/
def qFromDouble (x : Double64) : Q16 :=
  wrap32 (if x.msb then -(doubleScaledMagnitude x : Int) else (doubleScaledMagnitude x : Int))

/-- The binary64 pattern of sign, exponent field and fraction field. -/
def doublePattern (negative : Bool) (exponent fraction : Nat) : Double64 :=
  (BitVec.ofBool negative ++ BitVec.ofNat 11 exponent ++ BitVec.ofNat 52 fraction : BitVec (1 + 11 + 52))

/-- Q_TO_DOUBLE (R104): s_32(q) / 65536, which binary64 holds exactly. A magnitude with leading bit p is
2^p * (1 + ...), so its exponent field is p - 16 + 1023; zero is the pattern of +0.0 (log 21). -/
def qToDouble (q : Q16) : Double64 :=
  let magnitude := q.toInt.natAbs
  if magnitude = 0 then 0
  else doublePattern q.msb (magnitude.log2 + 1007) (magnitude * 2 ^ (52 - magnitude.log2) - 2 ^ 52)

/-! ### Meanings -/

def execQAdd (a b : Q16) (st : State) : Host.Outcome State Fault Refusal :=
  st.recordResult (.scalar (qAdd a b))

def execQSub (a b : Q16) (st : State) : Host.Outcome State Fault Refusal :=
  st.recordResult (.scalar (qSub a b))

def execQMul (a b : Q16) (st : State) : Host.Outcome State Fault Refusal :=
  st.recordResult (.scalar (qMul a b))

/-- R103: a NaN or an infinity is refused (93_implementation_defined.md, log 20). -/
def execQFromDouble (x : Double64) (st : State) : Host.Outcome State Fault Refusal :=
  if doubleFinite x then st.recordResult (.scalar (qFromDouble x)) else .refused .notFinite

def execQToDouble (q : Q16) (st : State) : Host.Outcome State Fault Refusal :=
  st.recordResult (.double (qToDouble q))

end Sys2Proof.Machine
end

