-- ==== Sys2Proof/Machine/Twiddle.lean ====
section
/-! DEFINITION. The twiddle ROM's read and the complex multiplier (42_twiddle.md). -/

namespace Sys2Proof.Machine

/-- CMUL_TW (R132): four products, each truncated on its own, then one difference and one sum. -/
def cmulTw (b tw : Sample) : Sample :=
  ⟨qSub (qMul b.re tw.re) (qMul b.im tw.im), qAdd (qMul b.re tw.im) (qMul b.im tw.re)⟩

/-! ### Meanings -/

/-- TW_READ (R131). -/
def execTwRead (t : BitVec 7) (st : State) : Host.Outcome State Fault Refusal :=
  st.recordResult (.sample (twRead st.params.twTable t))

def execCmulTw (br bi twR twI : Q16) (st : State) : Host.Outcome State Fault Refusal :=
  st.recordResult (.sample (cmulTw ⟨br, bi⟩ ⟨twR, twI⟩))

end Sys2Proof.Machine
end

