-- ==== Sys2Proof/Machine/Butterfly.lean ====
section
/-! DEFINITION. The radix-2 butterfly core (43_butterfly.md). -/

namespace Sys2Proof.Machine

/-- The indices of one butterfly (R141). -/
structure ButterflyIndex where
  j : Nat
  top : Nat
  bot : Nat
  twIdx : Nat
  deriving DecidableEq, Repr

/-- `half` of stage s (R140). -/
def half (s : Nat) : Nat := 2 ^ s

/-- `tw_stride` of stage s (R140). -/
def twStride (s : Nat) : Nat := 128 / half s

/-- INDEX(s, k) (R141). -/
def butterflyIndex (s k : Nat) : ButterflyIndex :=
  let j := k % half s
  let group := k / half s * 2 * half s
  ⟨j, group + j, group + j + half s, j * twStride s⟩

/-- The new values of top and bot from a, b and the twiddle factor (R143). -/
def butterflyTop (a b tw : Sample) : Sample := ⟨qAdd a.re (cmulTw b tw).re, qAdd a.im (cmulTw b tw).im⟩

def butterflyBot (a b tw : Sample) : Sample := ⟨qSub a.re (cmulTw b tw).re, qSub a.im (cmulTw b tw).im⟩

/-- The datapath of BUTTERFLY (R143) on a buffer pair: all loads, then the writes (R30). -/
def butterflyOn (rom : TwTable) (s k : Nat) (w : Bank) : Except Fault Bank :=
  let ix := butterflyIndex s k
  match romRead rom ix.twIdx, w.read ix.top, w.read ix.bot with
  | .ok tw, .ok a, .ok b =>
    match w.write ix.top (butterflyTop a b tw) with
    | .ok w' => w'.write ix.bot (butterflyBot a b tw)
    | .error f => .error f
  | .error f, _, _ => .error f
  | _, .error f, _ => .error f
  | _, _, .error f => .error f

/-- The butterflies `ks` of stage s on a buffer pair, in this order (R59). -/
def butterfliesOn (rom : TwTable) (s : Nat) (ks : List Nat) (w : Bank) : Except Fault Bank :=
  ks.foldlM (fun w k => butterflyOn rom s k w) w

/-- The datapath of BUTTERFLY (R143) on 256 values. For s < 8 and k < 128 the indices have the widths of their spaces
(R142), so that none is cut. -/
def butterfly (rom : TwTable) (s k : Nat) (w : Frame) : Frame :=
  let ix := butterflyIndex s k
  let tw := twRead rom (BitVec.ofNat 7 ix.twIdx)
  let a := w.read (BitVec.ofNat 8 ix.top)
  let b := w.read (BitVec.ofNat 8 ix.bot)
  (w.write (BitVec.ofNat 8 ix.top) (butterflyTop a b tw)).write (BitVec.ofNat 8 ix.bot) (butterflyBot a b tw)

/-- The butterflies `ks` of stage s, in this order. -/
def butterflies (rom : TwTable) (s : Nat) (ks : List Nat) (w : Frame) : Frame :=
  ks.foldl (fun w k => butterfly rom s k w) w

/-- STAGE (R144), in the reference order k ascending. -/
def stage (rom : TwTable) (s : Nat) (w : Frame) : Frame := butterflies rom s (List.range 128) w

/-- BFLY_CORE (R145): stages 0 to 7. -/
def bflyCore (rom : TwTable) (w : Frame) : Frame := (List.range 8).foldl (fun w s => stage rom s w) w

/-! ### Meanings -/

/-- BUTTERFLY is enabled (R143). -/
def State.bflyEnabled (st : State) : Bool :=
  decide (st.phase = .bfly) && decide (st.s.toNat < 8) && decide (st.k.toNat < 128)

/-- The sequencer after the butterfly at (s, k) (R143, R182). -/
def afterButterfly (s : BitVec 4) (k : BitVec 8) : Position :=
  if k.toNat < 127 then .bfly s (k + 1)
  else if s.toNat < 7 then .bfly (s + 1) 0
  else .write 0

/-- BUTTERFLY (R143). A step that is not enabled changes nothing (R10). -/
def execButterfly (st : State) : Host.Outcome State Fault Refusal :=
  if st.bflyEnabled then
    match butterflyOn st.params.twTable st.s.toNat st.k.toNat st.wBuf with
    | .ok w => .next ((st.setWBuf w).setSeq (afterButterfly st.s st.k))
    | .error f => .fault f
  else .next st

/-- STAGE (R144) of a given pair or of W_RE, W_IM. Above stage 7 the index of a butterfly lies outside its buffer (R52). -/
def execStage (s : BitVec 4) (w : FrameOperand) (st : State) : Host.Outcome State Fault Refusal :=
  if s.toNat < 8 then st.recordOfFrame st.wBuf w fun f => .frame (stage st.params.twTable s.toNat f)
  else .fault .indexRange

/-- BFLY_CORE (R145) of a given pair or of W_RE, W_IM. -/
def execBflyCore (w : FrameOperand) (st : State) : Host.Outcome State Fault Refusal :=
  st.recordOfFrame st.wBuf w fun f => .frame (bflyCore st.params.twTable f)

end Sys2Proof.Machine
end

