-- ==== Sys2Proof/Machine/Flags.lean ====
section
/-! DEFINITION. Status. No operation has an arithmetic flag (10_state.md R29); DONE, STATUS and IDLE are the status bits
(R28), seen from outside on the ctrl_ ports (R34). -/

namespace Sys2Proof.Machine

/-- STATUS as a 2-bit code (30_encoding.md R77). -/
def Status.code : Status → BitVec 2
  | .none => 0
  | .ok => 1
  | .framingError => 2
  | .transportError => 3

/-- IDLE, derived from the phase (R28). -/
def State.isIdle (st : State) : Bool := decide (st.phase = .idle)

/-- The port ctrl_idle (R34). -/
def State.ctrlIdle (st : State) : BitVec 1 := BitVec.ofBool st.isIdle

/-- The port ctrl_done (R34). -/
def State.ctrlDone (st : State) : BitVec 1 := BitVec.ofBool st.doneFlag

/-- The port ctrl_status (R34). -/
def State.ctrlStatus (st : State) : BitVec 2 := st.status.code

end Sys2Proof.Machine
end

