-- ==== Sys2Proof/Machine/FrameIo.lean ====
section
/-! DEFINITION. The packed complex sample reader and writer (44_frame_io.md). -/

namespace Sys2Proof.Machine

/-- UNPACK (R160). -/
def unpack (d : BitVec 64) : Sample := ⟨d.extractLsb' 32 32, d.extractLsb' 0 32⟩

/-- PACK (R161). -/
def pack (v : Sample) : BitVec 64 := (v.re ++ v.im : BitVec (32 + 32))

/-- FRAMING_CHECK (R163). -/
def framingCheck (n : Nat) (last : Bool) : Bool := (decide (n < 255) && !last) || (decide (n = 255) && last)

/-- The word of position `n` in `u` is there and fails FRAMING_CHECK. -/
def badWord (u : List TransportWord) (n : Nat) : Bool :=
  match u[n]? with
  | some w => !framingCheck n w.last
  | none => false

/-- The least position in 0..255 whose word fails FRAMING_CHECK (R164). -/
def firstBad (u : List TransportWord) : Option Nat := (List.range 256).find? (badWord u)

/-- The 256 samples of the words 0..255 (R164). -/
def framedSamples (u : List TransportWord) (enough : 256 ≤ u.length) : Frame :=
  Frame.tabulate fun n => unpack (u[n.toNat]'(Nat.lt_of_lt_of_le n.isLt enough)).data

/-- READ_FRAME (R164) under the policy `drain`. Where the words run out before the answer is fixed, the reader waits
(R167, log 11). -/
def readFrame (drain : Bool) (u : List TransportWord) : ReadOutcome :=
  match firstBad u with
  | some m =>
    if drain then
      if u.length < 256 then .waits else .framingError 256
    else .framingError (m + 1)
  | none => if enough : 256 ≤ u.length then .ok (framedSamples u enough) 256 else .waits

/-- Output word n (R76): keep and strb all ones, last on word 255 only. -/
def outputWord (n : Nat) (v : Sample) : TransportWord := ⟨pack v, 0xFF, 0xFF, decide (n = 255)⟩

/-- The output word of position n of a buffer pair (R165). -/
def outputWordAt (w : Bank) (n : Nat) : Except Fault TransportWord := (w.read n).map (outputWord n)

/-- WRITE_FRAME (R166). -/
def writeFrame (w : Frame) : List TransportWord :=
  (List.range 256).map fun n => outputWord n (w.read (BitVec.ofNat 8 n))

/-! ### Meanings -/

def execUnpack (d : BitVec 64) (st : State) : Host.Outcome State Fault Refusal :=
  st.recordResult (.sample (unpack d))

def execPack (re im : Q16) (st : State) : Host.Outcome State Fault Refusal :=
  st.recordResult (.packed (pack ⟨re, im⟩))

def execFramingCheck (n : BitVec 8) (last : Bool) (st : State) : Host.Outcome State Fault Refusal :=
  st.recordResult (.verdict (framingCheck n.toNat last))

/-- READ_WORD is enabled, but for a word in IN (R162). -/
def State.readEnabled (st : State) : Bool := decide (st.phase = .read) && decide (st.n.toNat < 256)

/-- The sequencer after input word n is taken (R162). -/
def afterRead (n : BitVec 9) : Position := if n = 255 then .permute 0 else .read (n + 1)

/-- What READ_WORD does once its word is stored, `bad` saying that the word failed FRAMING_CHECK (R162). -/
def State.judgeWord (st : State) (bad : Bool) : State :=
  if st.params.drainOnFramingError then
    let ferr := st.ferr || bad
    if st.n = 255 ∧ ferr = true then st.errorEntry .framingError
    else (st.setFerr ferr).setSeq (afterRead st.n)
  else if bad then st.errorEntry .framingError
  else st.setSeq (afterRead st.n)

/-- READ_WORD (R162). keep and strb are not read (R168). With IN empty, or in another phase, the step is not enabled and
changes nothing (R10, R167). -/
def execReadWord (st : State) : Host.Outcome State Fault Refusal :=
  if st.readEnabled then
    match st.inChan with
    | [] => .next st
    | w :: rest =>
      match st.inBuf.write st.n.toNat (unpack w.data) with
      | .ok b => .next (((st.setInChan rest).setInBuf b).judgeWord (!framingCheck st.n.toNat w.last))
      | .error f => .fault f
  else .next st

/-- READ_FRAME (R164) of a given sequence or of the words in IN. -/
def execReadFrame (u : WordsOperand) (st : State) : Host.Outcome State Fault Refusal :=
  st.recordResult (.frameRead (readFrame st.params.drainOnFramingError (wordsOperand st.inChan u)))

/-- WRITE_WORD is enabled (R165). -/
def State.writeEnabled (st : State) : Bool :=
  decide (st.phase = .write) && decide (st.n.toNat < 256) && st.outHasRoom

/-- WRITE_WORD (R165). A step that is not enabled, a full OUT among the reasons, changes nothing (R10, R167). -/
def execWriteWord (st : State) : Host.Outcome State Fault Refusal :=
  if st.writeEnabled then
    match outputWordAt st.wBuf st.n.toNat with
    | .ok w =>
      .next (if st.n = 255 then (st.pushOut w).complete else (st.pushOut w).setSeq (.write (st.n + 1)))
    | .error f => .fault f
  else .next st

/-- WRITE_FRAME (R166) of a given pair or of W_RE, W_IM. -/
def execWriteFrame (w : FrameOperand) (st : State) : Host.Outcome State Fault Refusal :=
  st.recordOfFrame st.wBuf w fun f => .words (writeFrame f)

end Sys2Proof.Machine
end

