-- ==== Sys2Proof/Machine/Control.lean ====
section
/-! DEFINITION. The framed streaming interface controller (45_control.md), the producer's fault (60_exceptions.md R202) and
the host's RESET (70_reset_and_hazards.md R230). -/

namespace Sys2Proof.Machine

/-- The engine's units from a filled input pair to the final pair (R181): PERMUTE, then BFLY_CORE. -/
def fft (rom : TwTable) (x : Frame) : Frame := bflyCore rom (permute x)

/-- TRANSFORM (R181) of the words `u`. -/
def transform (p : Params) (u : List TransportWord) : TransformOutcome :=
  match readFrame p.drainOnFramingError u with
  | .waits => .waits
  | .framingError consumed => .ended [] consumed .framingError
  | .ok x consumed => .ended (writeFrame (fft p.twTable x)) consumed .ok

/-! ### Meanings -/

/-- START (R180). While a transform runs it is no engine step: it sets the permanent HostProtocol mark (R209, log 16). -/
def execStart (st : State) : Host.Outcome State Fault Refusal :=
  if st.phase = .idle then .next st.begin else .next st.markProtocolFault

/-- TRANSFORM (R181) of a given sequence or of the words in IN. -/
def execTransform (u : WordsOperand) (st : State) : Host.Outcome State Fault Refusal :=
  st.recordResult (.transformed (transform st.params (wordsOperand st.inChan u)))

/-- TRANSPORT_FAULT (R202): the error entry in READ; in another phase it has no effect. -/
def execTransportFault (st : State) : Host.Outcome State Fault Refusal :=
  if st.phase = .read then .next (st.errorEntry .transportError) else .next st

/-- RESET (R230), in every phase. -/
def execReset (st : State) : Host.Outcome State Fault Refusal := .next st.resetEngine

end Sys2Proof.Machine
end

