-- ==== Sys2Proof/Machine/Dispatch.lean ====
section
/-! DEFINITION. One arm per operation, each a call of its meaning. -/

namespace Sys2Proof.Machine

def exec (i : Instr) (s : State) : Host.Outcome State Fault Refusal :=
  match i with
  | .qAdd a b => Sys2Proof.Machine.execQAdd a b s
  | .qSub a b => Sys2Proof.Machine.execQSub a b s
  | .qMul a b => Sys2Proof.Machine.execQMul a b s
  | .qFromDouble x => Sys2Proof.Machine.execQFromDouble x s
  | .qToDouble q => Sys2Proof.Machine.execQToDouble q s
  | .bitrev8 j => Sys2Proof.Machine.execBitrev8 j s
  | .permuteStep => Sys2Proof.Machine.execPermuteStep s
  | .permute x => Sys2Proof.Machine.execPermute x s
  | .twRead t => Sys2Proof.Machine.execTwRead t s
  | .cmulTw br bi twR twI => Sys2Proof.Machine.execCmulTw br bi twR twI s
  | .butterfly => Sys2Proof.Machine.execButterfly s
  | .stage g w => Sys2Proof.Machine.execStage g w s
  | .bflyCore w => Sys2Proof.Machine.execBflyCore w s
  | .unpack d => Sys2Proof.Machine.execUnpack d s
  | .pack re im => Sys2Proof.Machine.execPack re im s
  | .readWord => Sys2Proof.Machine.execReadWord s
  | .framingCheck n last => Sys2Proof.Machine.execFramingCheck n last s
  | .readFrame u => Sys2Proof.Machine.execReadFrame u s
  | .writeWord => Sys2Proof.Machine.execWriteWord s
  | .writeFrame w => Sys2Proof.Machine.execWriteFrame w s
  | .start => Sys2Proof.Machine.execStart s
  | .transform u => Sys2Proof.Machine.execTransform u s
  | .transportFault => Sys2Proof.Machine.execTransportFault s
  | .reset => Sys2Proof.Machine.execReset s

end Sys2Proof.Machine
end

