-- ==== Sys2Proof/Machine/Agents.lean ====
section
/-! DEFINITION. The four agents and whose move is next (10_state.md R20): the engine's own order of operations (R182), the
producer, the consumer and the host as turns of the agenda (log 4), and the host-program notation (30_encoding.md R80). -/

namespace Sys2Proof.Machine

/-! ### The engine -/

/-- The operation the engine runs in a phase (R182). In IDLE it has none (R211). -/
def engineOperation : Phase → Option Instr
  | .idle => none
  | .read => some .readWord
  | .permute => some .permuteStep
  | .bfly => some .butterfly
  | .write => some .writeWord

/-- The engine has an enabled step (R33). -/
def State.engineEnabled (st : State) : Bool :=
  (st.readEnabled && !st.inChan.isEmpty) || st.permuteEnabled || st.bflyEnabled || st.writeEnabled

/-- The engine moves: its enabled step, or none and the state stays (R33, R167). -/
def engineTurn (st : State) : Host.Outcome State Fault Refusal :=
  match engineOperation st.phase with
  | some i => exec i st
  | none => .next st

/-! ### The agenda -/

/-- The operation of a code, run; a code that is none is refused by name (log 26). -/
def runCode (code : List Byte) (st : State) : Host.Outcome State Fault Refusal :=
  match decode code with
  | .ok (i, _) => exec i st
  | .error why => .refused (.badCode why)

/-- The move is one its agent can make now; a move that is not waits while the engine goes on (log 5). -/
def Action.ready (st : State) : Action → Bool
  | .operation _ => true
  | .send _ => st.inHasRoom
  | .recv => !st.outChan.isEmpty
  | .waitDone => st.doneFlag
  | .engineStep => true
  | .settle => !st.engineEnabled

/-- A ready move is made, in a state whose agenda no longer holds it. -/
def Action.perform (st : State) : Action → Host.Outcome State Fault Refusal
  | .operation code => runCode code st
  | .send w => .next (st.pushIn w)
  | .recv =>
    match st.outChan with
    | w :: rest => .next ((st.setOutChan rest).take w)
    | [] => .next st
  | .waitDone => .next st
  | .engineStep => engineTurn st
  | .settle => .next st

/-- The move is the host's RESET. -/
def Action.isReset : Action → Bool
  | .operation code =>
    match decode code with
    | .ok (.reset, _) => true
    | _ => false
  | .send _ | .recv | .waitDone | .engineStep | .settle => false

/-- One turn of the agenda. Of moves that coincide, RESET wins and the others are lost; without a RESET they happen one
after the other (R205, log 23). -/
def takeTurn (st : State) (rest : List Turn) : Turn → Host.Outcome State Fault Refusal
  | .one a => if a.ready st then a.perform (st.setAgenda rest) else engineTurn st
  | .together as =>
    if as.any Action.isReset then exec .reset (st.setAgenda rest)
    else .next (st.setAgenda (as.map .one ++ rest))

/-- One step: a marked machine faults (R209); otherwise the agenda's first turn, or the engine alone. -/
def advance (st : State) : Host.Outcome State Fault Refusal :=
  if st.protocolFault then .fault .hostProtocol
  else
    match st.agenda with
    | [] => engineTurn st
    | turn :: rest => takeTurn st rest turn

/-- An opcode-table word becomes the next turn (log 8). -/
def State.scheduleWord (st : State) (nbits w : Nat) : State :=
  st.setAgenda (.one (.operation (tableCode nbits w)) :: st.agenda)

/-! ### Host programs -/

/-- A statement of the host-program notation (R80). `send` carries keep and strb; the short form is `fullSend`. -/
inductive Statement where
  | reset
  | start
  | wait
  | send (w : TransportWord)
  | fault
  | recv
  deriving DecidableEq, Repr

/-- `send RE, IM, last=B`: keep and strb are 0xFF (R80). -/
def fullSend (re im : Q16) (last : Bool) : Statement := .send ⟨pack ⟨re, im⟩, 0xFF, 0xFF, last⟩

/-- `repeat n in A..B`: the body once for each n from A to B ascending (R80). -/
def repeatFor (a b : Nat) (body : Nat → List Statement) : List Statement :=
  (List.range' a (b + 1 - a)).flatMap body

/-- The move a statement stands for. -/
def Statement.action : Statement → Action
  | .reset => .operation (encode .reset)
  | .start => .operation (encode .start)
  | .wait => .waitDone
  | .send w => .send w
  | .fault => .operation (encode .transportFault)
  | .recv => .recv

/-- R80's schedule: after each statement the engine takes steps until it has none enabled. -/
def schedule (program : List Statement) : List Turn :=
  program.flatMap fun statement => [.one statement.action, .one .settle]

end Sys2Proof.Machine
end

