-- ==== Sys2Proof/Machine/Step.lean ====
section
/-! DEFINITION. One step of the machine. -/

namespace Sys2Proof.Machine

/-- One step: one atomic transition of one agent (00_scope.md R10), the agent that the agenda names (log 4). -/
def step (st : State) : Host.Outcome State Fault Refusal := advance st

/-- `s` with an operation of the opcode table as its next turn, so that the next step runs it (log 8). -/
def State.withFetchWord (s : State) (nbits w : Nat) : State := s.scheduleWord nbits w

end Sys2Proof.Machine
end

