-- ==== Sys2Proof/Safety.lean ====
section
/-! DEFINITION. What counts as a good state and a finished run, and the terms the claims use. -/

namespace Sys2Proof.Machine

/-! ### Good states -/

/-- Both parts of element `j` hold a value. -/
def Bank.definedAt (b : Bank) (j : BitVec 8) : Prop :=
  (b.re[j.toNat]'j.isLt).isSome = true ∧ (b.im[j.toNat]'j.isLt).isSome = true

/-- Both parts of element `j` are `undef`. -/
def Bank.undefAt (b : Bank) (j : BitVec 8) : Prop :=
  b.re[j.toNat]'j.isLt = none ∧ b.im[j.toNat]'j.isLt = none

/-- The counters of the phase are below their bounds (R26, R27). -/
def State.countersInRange (st : State) : Prop :=
  match st.phase with
  | .idle => True
  | .read => st.n.toNat < 256
  | .permute => st.i.toNat < 256
  | .bfly => st.s.toNat < 8 ∧ st.k.toNat < 128
  | .write => st.n.toNat < 256

/-- What the buffers hold in each phase: nothing in IDLE (R24); what READ has stored so far (R162); what PERMUTE has moved so
far (R121); everything from then on. -/
def State.buffersFollowPhase (st : State) : Prop :=
  match st.phase with
  | .idle => st.inBuf = Bank.undef ∧ st.wBuf = Bank.undef
  | .read =>
    (∀ j : BitVec 8, if j.toNat < st.n.toNat then st.inBuf.definedAt j else st.inBuf.undefAt j) ∧ st.wBuf = Bank.undef
  | .permute =>
    (∀ j : BitVec 8, st.inBuf.definedAt j) ∧
    (∀ j : BitVec 8, if j.toNat < st.i.toNat then st.wBuf.definedAt (bitrev8 j) else st.wBuf.undefAt (bitrev8 j))
  | .bfly => (∀ j : BitVec 8, st.inBuf.definedAt j) ∧ (∀ j : BitVec 8, st.wBuf.definedAt j)
  | .write => (∀ j : BitVec 8, st.inBuf.definedAt j) ∧ (∀ j : BitVec 8, st.wBuf.definedAt j)

/-- DONE and STATUS (R28, R77): DONE = 1 exactly when STATUS says how a transform finished, and NONE while one runs. -/
def State.outcomeFollowsPhase (st : State) : Prop :=
  (st.doneFlag = true ↔ st.status ≠ .none) ∧ (st.phase ≠ .idle → st.status = .none)

/-- ferr stays 0 in READ under the policy that does not use it (R26, R162). -/
def State.ferrFollowsPolicy (st : State) : Prop :=
  st.phase = .read → st.params.drainOnFramingError = false → st.ferr = false

/-- The channels hold no more than their depths (R31, R32). -/
def State.channelsWithinDepth (st : State) : Prop :=
  st.params.inDepth.holds st.inChan.length = true ∧ st.params.outDepth.holds st.outChan.length = true

/-- The states in which the machine is as the spec says it is between two steps. -/
structure State.Consistent (st : State) : Prop where
  counters : st.countersInRange
  buffers : st.buffersFollowPhase
  outcome : st.outcomeFollowsPhase
  ferr : st.ferrFollowsPolicy
  channels : st.channelsWithinDepth

/-- A transform has ended and no fault mark stands (R184, R209). -/
def State.finished (st : State) : Bool := st.isIdle && st.doneFlag && !st.protocolFault

/-! ### What a step leaves alone -/

/-- The fields that no engine, host or producer step of the opcode table writes, but for the mark a busy START sets (R36,
R209, log 9). -/
structure State.keepsOutside (st t : State) : Prop where
  params : t.params = st.params
  protocolFault : t.protocolFault = st.protocolFault
  agenda : t.agenda = st.agenda
  received : t.received = st.received
  result : t.result = st.result

/-- The sequencer is where it was (R26). -/
structure State.keepsSequencer (st t : State) : Prop where
  phase : t.phase = st.phase
  n : t.n = st.n
  i : t.i = st.i
  s : t.s = st.s
  k : t.k = st.k
  ferr : t.ferr = st.ferr

/-- The buffers are as they were (R22, R23). -/
structure State.keepsBuffers (st t : State) : Prop where
  inBuf : t.inBuf = st.inBuf
  wBuf : t.wBuf = st.wBuf

/-- DONE and STATUS are as they were (R28). -/
structure State.keepsOutcome (st t : State) : Prop where
  doneFlag : t.doneFlag = st.doneFlag
  status : t.status = st.status

/-- The channels are as they were (R31, R32). -/
structure State.keepsChannels (st t : State) : Prop where
  inChan : t.inChan = st.inChan
  outChan : t.outChan = st.outChan

/-- What the error entry, COMPLETE and RESET leave of a transform (R183, R203, R230): IDLE, DONE and STATUS as given, every
buffer element `undef`. -/
structure State.endedWith (t : State) (done : Bool) (code : Status) : Prop where
  phase : t.phase = .idle
  doneFlag : t.doneFlag = done
  status : t.status = code
  inBuf : t.inBuf = Bank.undef
  wBuf : t.wBuf = Bank.undef

/-! ### What no rule reads -/

/-- The state without the counters that have no meaning in its phase (R26) and without the model's draw counter. -/
def State.forgetDead (st : State) : State :=
  { st with
    n := if st.phase = .read ∨ st.phase = .write then st.n else 0
    i := if st.phase = .permute then st.i else 0
    s := if st.phase = .bfly then st.s else 0
    k := if st.phase = .bfly then st.k else 0
    ferr := if st.phase = .read ∧ st.params.drainOnFramingError = true then st.ferr else false
    draws := 0 }

/-- An outcome with its next state stripped of dead counters. -/
def forgetDeadOutcome : Host.Outcome State Fault Refusal → Host.Outcome State Fault Refusal
  | .next st => .next st.forgetDead
  | .fault f => .fault f
  | .refused r => .refused r

/-! ### Real values -/

/-- The real number of a finite binary64 pattern (92_eei_decisions.md D25): significand * 2^(scale - 1075), signed. -/
def doubleValue (x : Double64) : ℚ :=
  (if x.msb then -1 else 1) * (doubleSignificand x : ℚ) * 2 ^ ((doubleScale x : ℤ) - 1075)

/-- The real number of a Q16.16 pattern: s_32(q) / 2^16 (R70). -/
def q16Value (q : Q16) : ℚ := (q.toInt : ℚ) / 65536

/-- trunc0 of a real (R8): toward zero. -/
def trunc0 (r : ℚ) : ℤ := if r < 0 then -⌊-r⌋ else ⌊r⌋

/-! ### Frames of words -/

/-- A frame is well formed (30_encoding.md R74): 256 words, last on word 255 only. -/
def wellFormedFrame (ws : List TransportWord) : Prop :=
  ws.length = 256 ∧ ∀ n (h : n < ws.length), ws[n].last = decide (n = 255)

/-- The sum of the samples of a frame, as an integer, under a sign per index (R146). -/
def signedSum (f : Vector Q16 256) (sign : Nat → Int) : Int :=
  ((List.finRange 256).map fun n => sign n.val * (f[n]).toInt).sum

end Sys2Proof.Machine
end

