-- ==== Sys2Proof/Certificates/Slice0/Obligations.lean ====
section
/-! DEFINITION. The statements for the provers. Each docstring names the rule of spec/ it formalises. -/

open Sys2Proof Sys2Proof.Machine

/-! ### Operation codes -/

/-- 30_encoding.md R78's OPIDs in the model's notation (log 7): a few opcode-table words, with operands of zeros. -/
def Obligations.OpcodeTableWordsDecode : Prop :=
  decodeTableWord 8 0x00 = some (.qAdd 0 0) ∧ decodeTableWord 8 0x02 = some (.qMul 0 0) ∧
  decodeTableWord 8 0x05 = some (.bitrev8 0) ∧ decodeTableWord 8 0x06 = some .permuteStep ∧
  decodeTableWord 8 0x08 = some (.twRead 0) ∧ decodeTableWord 8 0x0A = some .butterfly ∧
  decodeTableWord 8 0x0E = some (.pack 0 0) ∧ decodeTableWord 8 0x0F = some .readWord ∧
  decodeTableWord 8 0x12 = some .writeWord ∧ decodeTableWord 8 0x14 = some .start ∧
  decodeTableWord 8 0x16 = some .transportFault ∧ decodeTableWord 8 0x17 = some .reset ∧
  decodeTableWord 8 0x18 = none ∧ decodeTableWord 8 0x1F = none ∧ decodeTableWord 8 0x37 = none

/-- The decoder reads back every well-formed operation with every operand, and stops at its end (log 7). -/
def Obligations.DecodeReadsBackEncode : Prop :=
  ∀ (i : Instr) (rest : List Byte), i.wellFormed = true → decode (encode i ++ rest) = .ok (i, rest)

/-- The decoder accepts nothing else: what it reads is well formed, and its code is the one the encoder writes (log 7). -/
def Obligations.DecodeAcceptsOnlyEncodings : Prop :=
  ∀ (code : List Byte) (i : Instr) (rest : List Byte),
    decode code = .ok (i, rest) → i.wellFormed = true ∧ code = encode i ++ rest

/-- A first byte that is no OPID of R78 names no operation and is refused (93_implementation_defined.md, log 26). -/
def Obligations.UnlistedOpidsAreRefused : Prop :=
  ∀ (op : Byte) (operands : List Byte) (st : State) (rest : List Turn),
    24 ≤ op.toNat → st.protocolFault = false → st.agenda = .one (.operation (op :: operands)) :: rest →
      step st = .refused (.badCode (.noOperation op))

/-! ### Q16.16 primitives -/

/-- R100. The value is recorded in the model's result field (log 9) and nothing else changes. -/
def Obligations.QAddWrapsTheSum : Prop :=
  (∀ (a b : Q16) (st : State),
    exec (.qAdd a b) st = .next { st with result := .scalar (BitVec.ofInt 32 (a.toInt + b.toInt)) }) ∧
  (∀ a b : Q16, qAdd a b = a + b) ∧
  (∀ a b : Q16, qAdd a b = qAdd b a) ∧ (∀ a b c : Q16, qAdd (qAdd a b) c = qAdd a (qAdd b c)) ∧
  qAdd 0x7FFFFFFF 0x00000001 = 0x80000000 ∧ qAdd 0x80000000 0x80000000 = 0x00000000 ∧
  qAdd 0x00010000 0x00020000 = 0x00030000

/-- R101. The value is recorded in the model's result field (log 9) and nothing else changes. -/
def Obligations.QSubWrapsTheDifference : Prop :=
  (∀ (a b : Q16) (st : State),
    exec (.qSub a b) st = .next { st with result := .scalar (BitVec.ofInt 32 (a.toInt - b.toInt)) }) ∧
  (∀ a : Q16, qSub a a = 0) ∧
  qSub 0x80000000 0x00000001 = 0x7FFFFFFF ∧ qSub 0x00000000 0x80000000 = 0x80000000 ∧
  qSub 0x00010000 0x00020000 = 0xFFFF0000

/-- R102, in both of its forms: floor of the exact product, and bits 47:16 of the 64-bit product of the sign-extended
operands. The value is recorded in the model's result field (log 9) and nothing else changes. -/
def Obligations.QMulKeepsBits47To16 : Prop :=
  (∀ (a b : Q16) (st : State),
    exec (.qMul a b) st = .next { st with result := .scalar (BitVec.ofInt 32 (⌊((a.toInt * b.toInt : ℤ) : ℚ) / 65536⌋)) }) ∧
  (∀ a b : Q16, qMul a b = (a.signExtend 64 * b.signExtend 64).extractLsb' 16 32) ∧
  (∀ a : Q16, qMul a 0x00010000 = a ∧ qMul a 0 = 0) ∧ (∀ a b : Q16, qMul a b = qMul b a) ∧
  qMul 0xFFFFFFFF 0x00000001 = 0xFFFFFFFF ∧ qMul 0xFFFF8000 0x00000001 = 0xFFFFFFFF ∧
  qMul 0x00008000 0x00000001 = 0x00000000 ∧ qMul 0x80000000 0x80000000 = 0x00000000 ∧
  qMul 0x7FFFFFFF 0x7FFFFFFF = 0xFFFF0000 ∧ qMul 0x01000000 0x01000000 = 0x00000000 ∧
  qMul 0x80000000 0xFFFF0000 = 0x80000000 ∧ qMul 0x00020000 0x00030000 = 0x00060000

/-- R103: truncation of x * 65536 toward zero, wrapped, for every finite x (the product taken exactly, log 19); a NaN or an
infinity is refused (log 20). -/
def Obligations.QFromDoubleTruncatesTowardZero : Prop :=
  (∀ (x : Double64) (st : State), doubleFinite x = true →
    exec (.qFromDouble x) st =
      .next { st with result := .scalar (BitVec.ofInt 32 (trunc0 (doubleValue x * 65536))) }) ∧
  (∀ (x : Double64) (st : State), doubleFinite x = false → exec (.qFromDouble x) st = .refused .notFinite)

/-- R104: the binary64 pattern is finite and its real value is s_32(q) / 65536 exactly; Q_FROM_DOUBLE (R103) gives the
pattern back. The value goes to the model's result field (log 9). -/
def Obligations.QToDoubleIsExact : Prop :=
  ∀ (q : Q16) (st : State), ∃ x : Double64,
    exec (.qToDouble q) st = .next { st with result := .double x } ∧
    doubleFinite x = true ∧ doubleValue x = (q.toInt : ℚ) / 65536 ∧ qFromDouble x = q

/-- R105, laws 2 to 4: difference as a sum; the product as a real, floored, with its error bound; no associativity and no
distributivity. -/
def Obligations.FixedPointLaws : Prop :=
  (∀ a b : Q16, qSub a b = qAdd a (qSub 0 b)) ∧
  (∀ a b : Q16, qMul a b = wrap32 ⌊q16Value a * q16Value b * 65536⌋) ∧
  (∀ a b : Q16, -(2 ^ 31) ≤ ⌊q16Value a * q16Value b * 65536⌋ → ⌊q16Value a * q16Value b * 65536⌋ < 2 ^ 31 →
    -(1 / 65536) < q16Value (qMul a b) - q16Value a * q16Value b ∧
    q16Value (qMul a b) - q16Value a * q16Value b ≤ 0) ∧
  qMul (qMul 0x00018000 0x00000001) 0x00020000 = 0x00000002 ∧
  qMul 0x00018000 (qMul 0x00000001 0x00020000) = 0x00000003 ∧
  qMul (qAdd 0x00000001 0x00000001) 0x00008000 = 0x00000001 ∧
  qAdd (qMul 0x00000001 0x00008000) (qMul 0x00000001 0x00008000) = 0x00000000

/-! ### Bit reversal -/

/-- R120: bit k of the input becomes bit 7 - k of the output. The value goes to the model's result field (log 9). -/
def Obligations.Bitrev8ReversesTheBits : Prop :=
  (∀ (i : BitVec 8) (st : State), exec (.bitrev8 i) st = .next { st with result := .index (bitrev8 i) }) ∧
  (∀ (i : BitVec 8) (k : Nat), k < 8 → (bitrev8 i).getLsbD (7 - k) = i.getLsbD k) ∧
  bitrev8 0x00 = 0x00 ∧ bitrev8 0xFF = 0xFF ∧ bitrev8 0x01 = 0x80 ∧ bitrev8 0x80 = 0x01 ∧ bitrev8 0x0A = 0x50

/-- R122: a bijection, its own inverse, with exactly the 16 palindromes as fixed points, so that the other 240
indices are swapped in pairs. -/
def Obligations.Bitrev8IsAnInvolution : Prop :=
  (∀ i, bitrev8 (bitrev8 i) = i) ∧ Function.Bijective bitrev8 ∧
  (∀ i, bitrev8 i = i ↔ i ∈ [0x00#8, 0x18#8, 0x24#8, 0x3C#8, 0x42#8, 0x5A#8, 0x66#8, 0x7E#8, 0x81#8, 0x99#8, 0xA5#8,
    0xBD#8, 0xC3#8, 0xDB#8, 0xE7#8, 0xFF#8]) ∧
  ((List.range 256).filter fun i => decide (bitrev8 (BitVec.ofNat 8 i) ≠ BitVec.ofNat 8 i)).length = 240

/-- R123: PERMUTE puts sample i at BITREV8(i), in both of the rule's forms, and undoes itself. The value goes to the model's
result field (log 9). -/
def Obligations.PermuteReordersByBitReversal : Prop :=
  (∀ (x : Frame) (st : State), ∃ y : Frame,
    exec (.permute (.literal x)) st = .next { st with result := .frame y } ∧
    (∀ i, y.read (bitrev8 i) = x.read i) ∧ (∀ m, y.read m = x.read (bitrev8 m)) ∧ permute y = x)

/-- R121: one move of the permuter. -/
def Obligations.PermuteStepMovesOneSample : Prop :=
  ∀ (st : State) (i r : Fin 256) (re im : Q16),
    st.phase = .permute → st.i.toNat = i.val → r.val = (bitrev8 (BitVec.ofFin i)).toNat →
    st.inBuf.re[i] = some re → st.inBuf.im[i] = some im →
      ∃ t, exec .permuteStep st = .next t ∧
        (∀ j : Fin 256, t.wBuf.re[j] = if j = r then some re else st.wBuf.re[j]) ∧
        (∀ j : Fin 256, t.wBuf.im[j] = if j = r then some im else st.wBuf.im[j]) ∧
        (i.val < 255 → t.phase = .permute ∧ t.i.toNat = i.val + 1) ∧
        (i.val = 255 → t.phase = .bfly ∧ t.s = 0 ∧ t.k = 0) ∧
        t.inBuf = st.inBuf ∧ st.keepsChannels t ∧ st.keepsOutcome t ∧ st.keepsOutside t

/-! ### Twiddle ROM and multiplier -/

/-- R131: the ROM read, and the entries the rule names of R130's table. The value goes to the model's result field (log 9). -/
def Obligations.TwReadReturnsTheRomEntry : Prop :=
  (∀ (t : BitVec 7) (st : State),
    exec (.twRead t) st = .next { st with result := .sample (st.params.twTable[t.toNat]'t.isLt) }) ∧
  twRead defaultTwTable 0 = ⟨0x00010000, 0x00000000⟩ ∧ twRead defaultTwTable 64 = ⟨0x00000000, 0xFFFF0000⟩ ∧
  twRead defaultTwTable 32 = ⟨0x0000B504, 0xFFFF4AFC⟩ ∧ twRead defaultTwTable 1 = ⟨0x0000FFEC, 0xFFFFF9B8⟩ ∧
  ∀ t, twRead defaultTwTable t ≠ ⟨0xFFFF0000, 0x00000000⟩

/-- R134: the symmetries of R130's table. -/
def Obligations.DefaultRomIsSymmetric : Prop :=
  (∀ t : Fin 127, (twRead defaultTwTable (BitVec.ofNat 7 (127 - t))).re
      = qSub 0 (twRead defaultTwTable (BitVec.ofNat 7 (t + 1))).re ∧
    (twRead defaultTwTable (BitVec.ofNat 7 (127 - t))).im = (twRead defaultTwTable (BitVec.ofNat 7 (t + 1))).im) ∧
  (∀ t : Fin 65, (twRead defaultTwTable (BitVec.ofNat 7 (64 - t))).re
      = qSub 0 (twRead defaultTwTable (BitVec.ofNat 7 t)).im) ∧
  (∀ t : BitVec 7, (twRead defaultTwTable t).im.toInt ≤ 0 ∧ ((twRead defaultTwTable t).im = 0 ↔ t = 0))

/-- R132: four products, each truncated on its own, one difference, one sum; exact at the entries 1 and -j. The value goes to
the model's result field (log 9). -/
def Obligations.CmulTwTruncatesEachProduct : Prop :=
  (∀ (br bi twR twI : Q16) (st : State), exec (.cmulTw br bi twR twI) st =
    .next { st with result := .sample ⟨qSub (qMul br twR) (qMul bi twI), qAdd (qMul br twI) (qMul bi twR)⟩ }) ∧
  (∀ b : Sample, cmulTw b (twRead defaultTwTable 0) = b) ∧
  (∀ b : Sample, cmulTw b (twRead defaultTwTable 64) = ⟨b.im, qSub 0 b.re⟩) ∧
  cmulTw ⟨0x00010000, 0⟩ (twRead defaultTwTable 32) = ⟨0x0000B504, 0xFFFF4AFC⟩

/-! ### Butterfly core -/

/-- R141, R142: the bit form of the indices, their ranges, and that the 128 pairs of a stage cover 0..255 exactly once. -/
def Obligations.ButterflyIndicesTileTheBuffer : Prop :=
  (∀ (s : Fin 8) (k : Fin 128),
    (butterflyIndex s k).top = (k.val >>> s.val) <<< (s.val + 1) ||| k.val % 2 ^ s.val ∧
    (butterflyIndex s k).bot = (butterflyIndex s k).top ||| 2 ^ s.val ∧
    (butterflyIndex s k).bot = (butterflyIndex s k).top + 2 ^ s.val ∧
    (butterflyIndex s k).twIdx = k.val % 2 ^ s.val * 2 ^ (7 - s.val) ∧
    (butterflyIndex s k).top < (butterflyIndex s k).bot ∧ (butterflyIndex s k).bot ≤ 255 ∧
    (butterflyIndex s k).twIdx ≤ 128 - twStride s) ∧
  (∀ s : Fin 8, ∃ k : Fin 128, (butterflyIndex s k).twIdx = 128 - twStride s) ∧
  (∀ (s : Fin 8) (m : Fin 256),
    ∃! k : Fin 128, (butterflyIndex s k).top = m.val ∨ (butterflyIndex s k).bot = m.val)

/-- R143: one butterfly. The indices are R141's and the values R132's and R143's formulas. -/
def Obligations.ButterflyStepCombinesTwoSamples : Prop :=
  ∀ (st : State) (top bot : Fin 256) (t : Fin 128) (ar ai br bi : Q16),
    st.phase = .bfly → st.s.toNat < 8 → st.k.toNat < 128 →
    top.val = st.k.toNat / 2 ^ st.s.toNat * 2 * 2 ^ st.s.toNat + st.k.toNat % 2 ^ st.s.toNat →
    bot.val = top.val + 2 ^ st.s.toNat → t.val = st.k.toNat % 2 ^ st.s.toNat * (128 / 2 ^ st.s.toNat) →
    st.wBuf.re[top] = some ar → st.wBuf.im[top] = some ai → st.wBuf.re[bot] = some br → st.wBuf.im[bot] = some bi →
      let tw := st.params.twTable[t]
      let tr := qSub (qMul br tw.re) (qMul bi tw.im)
      let ti := qAdd (qMul br tw.im) (qMul bi tw.re)
      ∃ u, exec .butterfly st = .next u ∧
        (∀ j : Fin 256, u.wBuf.re[j] =
          if j = top then some (qAdd ar tr) else if j = bot then some (qSub ar tr) else st.wBuf.re[j]) ∧
        (∀ j : Fin 256, u.wBuf.im[j] =
          if j = top then some (qAdd ai ti) else if j = bot then some (qSub ai ti) else st.wBuf.im[j]) ∧
        (st.k.toNat < 127 → u.phase = .bfly ∧ u.s = st.s ∧ u.k.toNat = st.k.toNat + 1) ∧
        (st.k.toNat = 127 → st.s.toNat < 7 → u.phase = .bfly ∧ u.s.toNat = st.s.toNat + 1 ∧ u.k = 0) ∧
        (st.k.toNat = 127 → st.s.toNat = 7 → u.phase = .write ∧ u.n = 0) ∧
        u.inBuf = st.inBuf ∧ st.keepsChannels u ∧ st.keepsOutcome u ∧ st.keepsOutside u

/-- R24, R212: PERMUTE_STEP, BUTTERFLY and WRITE_WORD are fault UndefRead where an element they read is `undef`. No
consistent state is such a state (Obligations.SequencerStepsNeverFault). -/
def Obligations.StepsFaultOnUndefElements : Prop :=
  ∀ (st : State) (j : Fin 256),
    (st.phase = .permute → st.i.toNat = j.val → (st.inBuf.re[j] = none ∨ st.inBuf.im[j] = none) →
      exec .permuteStep st = .fault .undefRead) ∧
    (st.phase = .bfly → st.s.toNat < 8 → st.k.toNat < 128 →
      (j.val = (butterflyIndex st.s.toNat st.k.toNat).top ∨ j.val = (butterflyIndex st.s.toNat st.k.toNat).bot) →
      (st.wBuf.re[j] = none ∨ st.wBuf.im[j] = none) → exec .butterfly st = .fault .undefRead) ∧
    (st.phase = .write → st.n.toNat = j.val → st.params.outDepth.hasRoom st.outChan.length = true →
      (st.wBuf.re[j] = none ∨ st.wBuf.im[j] = none) → exec .writeWord st = .fault .undefRead)

/-- R144, R145: STAGE completes for s in 0..7, and every butterfly of its result has the values that R143 computes from the
argument (the pairs are disjoint, R142); BFLY_CORE completes and is the eight stages in order. The values go to the model's
result field (log 9). A stage number above 7 is fault IndexRange (log 25). -/
def Obligations.StagesApplyEveryButterfly : Prop :=
  (∀ (s : BitVec 4) (x : Frame) (st : State), s.toNat < 8 → ∃ y : Frame,
    exec (.stage s (.literal x)) st = .next { st with result := .frame y } ∧ y = stage st.params.twTable s.toNat x ∧
    ∀ k, k < 128 →
      let ix := butterflyIndex s.toNat k
      let tw := twRead st.params.twTable (BitVec.ofNat 7 ix.twIdx)
      let a := x.read (BitVec.ofNat 8 ix.top)
      let b := x.read (BitVec.ofNat 8 ix.bot)
      y.read (BitVec.ofNat 8 ix.top) = ⟨qAdd a.re (cmulTw b tw).re, qAdd a.im (cmulTw b tw).im⟩ ∧
      y.read (BitVec.ofNat 8 ix.bot) = ⟨qSub a.re (cmulTw b tw).re, qSub a.im (cmulTw b tw).im⟩) ∧
  (∀ (s : BitVec 4) (w : FrameOperand) (st : State), 8 ≤ s.toNat → exec (.stage s w) st = .fault .indexRange) ∧
  (∀ (x : Frame) (st : State), exec (.bflyCore (.literal x)) st =
    .next { st with result := .frame (stage st.params.twTable 7 (stage st.params.twTable 6 (stage st.params.twTable 5
      (stage st.params.twTable 4 (stage st.params.twTable 3 (stage st.params.twTable 2 (stage st.params.twTable 1
        (stage st.params.twTable 0 x)))))))) })

/-- 20_memory.md R59: every order of a stage's 128 butterflies leaves the same W_RE and W_IM, on buffers and on values. -/
def Obligations.StageOrderIsImmaterial : Prop :=
  ∀ (rom : TwTable) (s : Nat) (ks : List Nat), s < 8 → ks.Perm (List.range 128) →
    (∀ w : Bank, butterfliesOn rom s ks w = butterfliesOn rom s (List.range 128) w) ∧
    (∀ w : Frame, butterflies rom s ks w = stage rom s w)

/-- 20_memory.md R60: every order of the permuter's 256 moves leaves the same W_RE and W_IM. -/
def Obligations.PermuteOrderIsImmaterial : Prop :=
  ∀ (source target : Bank) (is : List Nat), is.Perm (List.range 256) →
    permuteMoves source is target = permuteMoves source (List.range 256) target

/-- R146: with the ROM's entry 0 equal to 1 (R131), bin 0 is the sum of the inputs and bin 128 their alternating sum,
modulo 2^32, for every frame. -/
def Obligations.BinZeroAndBin128AreSums : Prop :=
  ∀ (rom : TwTable) (x : Frame), twRead rom 0 = ⟨0x00010000, 0x00000000⟩ →
    (fft rom x).read 0 = ⟨BitVec.ofInt 32 (signedSum x.re fun _ => 1), BitVec.ofInt 32 (signedSum x.im fun _ => 1)⟩ ∧
    (fft rom x).read 128 =
      ⟨BitVec.ofInt 32 (signedSum x.re fun n => (-1) ^ n), BitVec.ofInt 32 (signedSum x.im fun n => (-1) ^ n)⟩

/-- The phase functions take the engine's own buffers as the same argument (log 10): defined buffers give what the written
values give, and an `undef` element is fault UndefRead (R24). -/
def Obligations.PhaseFunctionsReadTheBuffers : Prop :=
  ∀ (st : State) (x : Frame) (s : BitVec 4), s.toNat < 8 →
    (st.inBuf = Bank.ofFrame x → exec (.permute .buffers) st = exec (.permute (.literal x)) st) ∧
    (st.wBuf = Bank.ofFrame x →
      exec (.stage s .buffers) st = exec (.stage s (.literal x)) st ∧
      exec (.bflyCore .buffers) st = exec (.bflyCore (.literal x)) st ∧
      exec (.writeFrame .buffers) st = exec (.writeFrame (.literal x)) st) ∧
    ((∃ j : Fin 256, st.inBuf.re[j] = none ∨ st.inBuf.im[j] = none) →
      exec (.permute .buffers) st = .fault .undefRead) ∧
    ((∃ j : Fin 256, st.wBuf.re[j] = none ∨ st.wBuf.im[j] = none) →
      exec (.stage s .buffers) st = .fault .undefRead ∧ exec (.bflyCore .buffers) st = .fault .undefRead ∧
      exec (.writeFrame .buffers) st = .fault .undefRead)

/-! ### Reader and writer -/

/-- R160 and R161: the halves of a packed word, and that packing and unpacking undo each other. The values go to the model's
result field (log 9). -/
def Obligations.UnpackAndPackSplitByBitRange : Prop :=
  (∀ (d : BitVec 64) (st : State),
    exec (.unpack d) st = .next { st with result := .sample ⟨d.extractLsb' 32 32, d.extractLsb' 0 32⟩ }) ∧
  (∀ (re im : Q16) (st : State), exec (.pack re im) st = .next { st with result := .packed (re ++ im) }) ∧
  (∀ d, pack (unpack d) = d) ∧ (∀ v, unpack (pack v) = v)

/-- R163. The verdict goes to the model's result field (log 9). -/
def Obligations.FramingCheckAcceptsLastOnWord255 : Prop :=
  (∀ (n : BitVec 8) (last : Bool) (st : State), exec (.framingCheck n last) st =
    .next { st with result := .verdict (decide ((n.toNat < 255 ∧ last = false) ∨ (n.toNat = 255 ∧ last = true))) }) ∧
  framingCheck 254 true = false ∧ framingCheck 255 true = true ∧ framingCheck 255 false = false ∧
  framingCheck 128 true = false

/-- R164: what READ_FRAME answers, under both policies, for a written sequence and for the words in IN. Where the words run
out first it answers that the reader waits (log 11). The answer goes to the model's result field (log 9). -/
def Obligations.ReadFrameFindsTheFirstBadWord : Prop :=
  ∀ (st : State) (u : List TransportWord),
    (exec (.readFrame .channel) st = exec (.readFrame (.literal st.inChan)) st) ∧
    (∀ m (h : m < u.length), m < 256 → framingCheck m u[m].last = false →
      (∀ j (hj : j < m), framingCheck j u[j].last = true) → st.params.drainOnFramingError = false →
        exec (.readFrame (.literal u)) st = .next { st with result := .frameRead (.framingError (m + 1)) }) ∧
    (∀ m (h : m < u.length), m < 256 → framingCheck m u[m].last = false → 256 ≤ u.length →
      st.params.drainOnFramingError = true →
        exec (.readFrame (.literal u)) st = .next { st with result := .frameRead (.framingError 256) }) ∧
    (∀ h : 256 ≤ u.length, (∀ j (hj : j < 256), framingCheck j (u[j]'(Nat.lt_of_lt_of_le hj h)).last = true) →
      ∃ x : Frame, exec (.readFrame (.literal u)) st = .next { st with result := .frameRead (.ok x 256) } ∧
        ∀ n : BitVec 8, x.read n = ⟨(u[n.toNat]'(Nat.lt_of_lt_of_le n.isLt h)).data.extractLsb' 32 32,
          (u[n.toNat]'(Nat.lt_of_lt_of_le n.isLt h)).data.extractLsb' 0 32⟩) ∧
    (u.length < 256 →
      (st.params.drainOnFramingError = true ∨ ∀ j (hj : j < u.length), framingCheck j u[j].last = true) →
        exec (.readFrame (.literal u)) st = .next { st with result := .frameRead .waits })

/-- R162, with the error entry of R203: READ_WORD takes the head of IN. A word that raises FramingError ends the transform in
the same step; another one is stored at index n, and the counter rises or PERMUTE begins. -/
def Obligations.ReadWordTakesTheHeadWord : Prop :=
  ∀ (st : State) (n : Fin 256) (w : TransportWord) (rest : List TransportWord),
    st.phase = .read → st.n.toNat = n.val → st.inChan = w :: rest →
      let bad := !framingCheck n.val w.last
      let ferr := st.ferr || (st.params.drainOnFramingError && bad)
      let raised := if st.params.drainOnFramingError = true then decide (n.val = 255) && ferr else bad
      (raised = true → ∃ t, exec .readWord st = .next t ∧ t.endedWith true .framingError ∧
        t.inChan = rest ∧ t.outChan = st.outChan ∧ st.keepsOutside t) ∧
      (raised = false → ∃ t, exec .readWord st = .next t ∧ t.inChan = rest ∧ t.outChan = st.outChan ∧
        (∀ j : Fin 256, t.inBuf.re[j] = if j = n then some (w.data.extractLsb' 32 32) else st.inBuf.re[j]) ∧
        (∀ j : Fin 256, t.inBuf.im[j] = if j = n then some (w.data.extractLsb' 0 32) else st.inBuf.im[j]) ∧
        t.wBuf = st.wBuf ∧
        (n.val < 255 → t.phase = .read ∧ t.n.toNat = n.val + 1 ∧ t.ferr = ferr) ∧
        (n.val = 255 → t.phase = .permute ∧ t.i = 0) ∧ st.keepsOutcome t ∧ st.keepsOutside t)

/-- R168: keep and strb change nothing on input, in READ_WORD and in the reader and transform functions, and both are 0xFF
on every word WRITE_WORD pushes. -/
def Obligations.KeepAndStrbAreIgnored : Prop :=
  (∀ (st : State) (w v : TransportWord) (rest : List TransportWord),
    st.phase = .read → st.n.toNat < 256 → w.data = v.data → w.last = v.last →
      exec .readWord { st with inChan := w :: rest } = exec .readWord { st with inChan := v :: rest }) ∧
  (∀ (drain : Bool) (u : List TransportWord) (keep strb : TransportWord → BitVec 8),
    readFrame drain (u.map fun w => { w with keep := keep w, strb := strb w }) = readFrame drain u) ∧
  (∀ (p : Params) (u : List TransportWord) (keep strb : TransportWord → BitVec 8),
    transform p (u.map fun w => { w with keep := keep w, strb := strb w }) = transform p u) ∧
  (∀ st t, exec .writeWord st = .next t →
    t.outChan = st.outChan ∨ ∃ w, t.outChan = st.outChan ++ [w] ∧ w.keep = 0xFF ∧ w.strb = 0xFF)

/-- R165, R183: WRITE_WORD pushes the packed sample of its position; word 255 carries last and completes the transform. -/
def Obligations.WriteWordPushesTheNextSample : Prop :=
  ∀ (st : State) (n : Fin 256) (re im : Q16),
    st.phase = .write → st.n.toNat = n.val → st.params.outDepth.hasRoom st.outChan.length = true →
    st.wBuf.re[n] = some re → st.wBuf.im[n] = some im →
      ∃ t, exec .writeWord st = .next t ∧
        t.outChan = st.outChan ++ [⟨re ++ im, 0xFF, 0xFF, decide (n.val = 255)⟩] ∧ t.inChan = st.inChan ∧
        (n.val < 255 → t.phase = .write ∧ t.n.toNat = n.val + 1 ∧ st.keepsBuffers t ∧ st.keepsOutcome t) ∧
        (n.val = 255 → t.endedWith true .ok) ∧ st.keepsOutside t

/-- R166: WRITE_FRAME gives the 256 words in index order, in the model's result field (log 9). -/
def Obligations.WriteFrameListsEverySample : Prop :=
  ∀ (x : Frame) (st : State), ∃ ws : List TransportWord,
    exec (.writeFrame (.literal x)) st = .next { st with result := .words ws } ∧ wellFormedFrame ws ∧
    ∀ n : BitVec 8, ws[n.toNat]? = some ⟨(x.read n).re ++ (x.read n).im, 0xFF, 0xFF, decide (n.toNat = 255)⟩

/-- R10, R167, R33: a step that is not enabled changes nothing (log 12): a reader with IN empty, a writer with OUT full, and
every engine or producer step outside its phase. -/
def Obligations.StepsThatAreNotEnabledChangeNothing : Prop :=
  ∀ st : State,
    (st.phase ≠ .read ∨ 256 ≤ st.n.toNat ∨ st.inChan = [] → exec .readWord st = .next st) ∧
    (st.phase ≠ .permute ∨ 256 ≤ st.i.toNat → exec .permuteStep st = .next st) ∧
    (st.phase ≠ .bfly ∨ 8 ≤ st.s.toNat ∨ 128 ≤ st.k.toNat → exec .butterfly st = .next st) ∧
    (st.phase ≠ .write ∨ 256 ≤ st.n.toNat ∨ st.params.outDepth.hasRoom st.outChan.length = false →
      exec .writeWord st = .next st) ∧
    (st.phase ≠ .read → exec .transportFault st = .next st)

/-! ### Control -/

/-- R180: START in IDLE clears DONE, STATUS and ferr and begins at word 0. It touches no channel and no buffer. -/
def Obligations.StartBeginsATransform : Prop :=
  ∀ st : State, st.phase = .idle →
    ∃ t, exec .start st = .next t ∧ t.phase = .read ∧ t.n = 0 ∧ t.ferr = false ∧ t.doneFlag = false ∧
      t.status = .none ∧ st.keepsChannels t ∧ st.keepsBuffers t ∧ st.keepsOutside t

/-- R209, R212, R230: START while busy sets the permanent mark and changes nothing else; every step of a marked machine
faults; no operation, RESET among them, clears the mark. -/
def Obligations.StartWhileBusyMarksForGood : Prop :=
  (∀ st : State, st.phase ≠ .idle → exec .start st = .next { st with protocolFault := true }) ∧
  (∀ st : State, st.protocolFault = true → step st = .fault .hostProtocol) ∧
  (∀ (i : Instr) (st t : State), st.protocolFault = true → exec i st = .next t → t.protocolFault = true)

/-- R181: TRANSFORM as the composition of the reader, PERMUTE, BFLY_CORE and WRITE_FRAME, its answer in the model's result
field (log 9; too few words: log 11). -/
def Obligations.TransformComposesTheUnits : Prop :=
  ∀ (st : State) (u : List TransportWord),
    (exec (.transform .channel) st = exec (.transform (.literal st.inChan)) st) ∧
    (∀ c, readFrame st.params.drainOnFramingError u = .framingError c →
      exec (.transform (.literal u)) st = .next { st with result := .transformed (.ended [] c .framingError) }) ∧
    (∀ x c, readFrame st.params.drainOnFramingError u = .ok x c →
      c = 256 ∧ exec (.transform (.literal u)) st = .next { st with
        result := .transformed (.ended (writeFrame (bflyCore st.params.twTable (permute x))) 256 .ok) }) ∧
    (readFrame st.params.drainOnFramingError u = .waits →
      exec (.transform (.literal u)) st = .next { st with result := .transformed .waits })

/-- R202: the producer's fault ends READ with the error entry of R203; the words in IN stay. In another phase it has no
effect. -/
def Obligations.TransportFaultEndsRead : Prop :=
  ∀ st : State,
    (st.phase = .read → ∃ t, exec .transportFault st = .next t ∧ t.endedWith true .transportError ∧
      st.keepsChannels t ∧ st.keepsOutside t) ∧
    (st.phase ≠ .read → exec .transportFault st = .next st)

/-- R203: what the error entry does, and all it does, for each of the two errors. The engine has no step enabled after it,
so that no later step of the transform happens. -/
def Obligations.ErrorEntryDiscardsTheTransform : Prop :=
  ∀ (st : State) (code : Status), (st.errorEntry code).endedWith true code ∧
    (∀ j : Fin 256, (st.errorEntry code).inBuf.re[j] = none ∧ (st.errorEntry code).inBuf.im[j] = none ∧
      (st.errorEntry code).wBuf.re[j] = none ∧ (st.errorEntry code).wBuf.im[j] = none) ∧
    (st.errorEntry code).engineEnabled = false ∧
    st.keepsChannels (st.errorEntry code) ∧ st.keepsOutside (st.errorEntry code)

/-- R230: RESET in every phase, what it leaves and what it keeps. -/
def Obligations.ResetLeavesTheChannels : Prop :=
  ∀ st : State, ∃ t, exec .reset st = .next t ∧ t.endedWith false .none ∧ st.keepsChannels t ∧ st.keepsOutside t

/-- R35: the reset values that the spec states. -/
def Obligations.ResetStateHasTheSpecValues : Prop :=
  State.reset.phase = .idle ∧ State.reset.ctrlIdle = 1 ∧ State.reset.doneFlag = false ∧ State.reset.ctrlDone = 0 ∧
  State.reset.status = .none ∧ State.reset.ctrlStatus = 0 ∧
  (∀ j : Fin 256, State.reset.inBuf.re[j] = none ∧ State.reset.inBuf.im[j] = none ∧
    State.reset.wBuf.re[j] = none ∧ State.reset.wBuf.im[j] = none)

/-! ### Rules of the whole machine -/

/-- The state after reset is consistent. -/
def Obligations.ResetIsConsistent : Prop := State.reset.Consistent

/-- Every step of every agent keeps the machine consistent: counters below their bounds (R27), buffers defined as far as the
phase has come and `undef` in IDLE (R24), DONE and STATUS in step with the phase (R28, R77), channels within their depths
(R31, R32). -/
def Obligations.StepKeepsConsistent : Prop :=
  ∀ st t : State, st.Consistent → step st = .next t → t.Consistent

/-- R212, R24, R52: in a consistent state no step of the sequencer table faults: each answers a next state. -/
def Obligations.SequencerStepsNeverFault : Prop :=
  ∀ st : State, st.Consistent →
    (∀ i ∈ [Instr.readWord, .permuteStep, .butterfly, .writeWord, .start, .transportFault, .reset],
      ∃ t, exec i st = .next t) ∧
    (st.protocolFault = false → st.agenda = [] → ∃ t, step st = .next t)

/-- R33: in a consistent state the engine has no enabled step exactly in IDLE, in READ with IN empty and in WRITE with OUT
full; there the engine's turn changes nothing. -/
def Obligations.EngineWaitsExactlyWhenBlocked : Prop :=
  ∀ st : State, st.Consistent →
    (st.engineEnabled = false ↔
      st.phase = .idle ∨ (st.phase = .read ∧ st.inChan = []) ∨
      (st.phase = .write ∧ st.params.outDepth.hasRoom st.outChan.length = false)) ∧
    (st.engineEnabled = false → engineTurn st = .next st)

/-- R182: the complete list of the steps that change the sequencer. -/
def Obligations.SequencerFollowsTheTable : Prop :=
  ∀ (i : Instr) (st t : State), exec i st = .next t →
    st.keepsSequencer t ∨
    (i = .start ∧ st.phase = .idle ∧ t.phase = .read ∧ t.n = 0 ∧ t.doneFlag = false ∧ t.status = .none ∧
      t.ferr = false) ∨
    (i = .readWord ∧ st.phase = .read ∧ st.n.toNat < 255 ∧ st.inChan ≠ [] ∧ t.phase = .read ∧
      t.n.toNat = st.n.toNat + 1) ∨
    (i = .readWord ∧ st.phase = .read ∧ st.n.toNat = 255 ∧ st.inChan ≠ [] ∧ t.phase = .permute ∧ t.i = 0) ∨
    (i = .readWord ∧ st.phase = .read ∧ st.inChan ≠ [] ∧ t.endedWith true .framingError) ∨
    (i = .transportFault ∧ st.phase = .read ∧ t.endedWith true .transportError) ∨
    (i = .permuteStep ∧ st.phase = .permute ∧ st.i.toNat < 255 ∧ t.phase = .permute ∧
      t.i.toNat = st.i.toNat + 1) ∨
    (i = .permuteStep ∧ st.phase = .permute ∧ st.i.toNat = 255 ∧ t.phase = .bfly ∧ t.s = 0 ∧ t.k = 0) ∨
    (i = .butterfly ∧ st.phase = .bfly ∧ st.k.toNat < 127 ∧ t.phase = .bfly ∧ t.s = st.s ∧
      t.k.toNat = st.k.toNat + 1) ∨
    (i = .butterfly ∧ st.phase = .bfly ∧ st.k.toNat = 127 ∧ st.s.toNat < 7 ∧ t.phase = .bfly ∧
      t.s.toNat = st.s.toNat + 1 ∧ t.k = 0) ∨
    (i = .butterfly ∧ st.phase = .bfly ∧ st.k.toNat = 127 ∧ st.s.toNat = 7 ∧ t.phase = .write ∧ t.n = 0) ∨
    (i = .writeWord ∧ st.phase = .write ∧ st.n.toNat < 255 ∧ st.outHasRoom = true ∧ t.phase = .write ∧
      t.n.toNat = st.n.toNat + 1) ∨
    (i = .writeWord ∧ st.phase = .write ∧ st.n.toNat = 255 ∧ st.outHasRoom = true ∧ t.endedWith true .ok) ∨
    (i = .reset ∧ t.endedWith false .none)

/-- R31, R32, R62, R204: only READ_WORD removes a word from IN, from the head, in READ; only WRITE_WORD appends one to OUT,
at the tail, in WRITE; so an operation that ends in an error writes nothing to OUT. -/
def Obligations.OnlyReaderAndWriterTouchTheChannels : Prop :=
  ∀ (i : Instr) (st t : State), exec i st = .next t →
    (t.inChan = st.inChan ∨ (i = .readWord ∧ st.phase = .read ∧ ∃ w, st.inChan = w :: t.inChan)) ∧
    (t.outChan = st.outChan ∨
      (i = .writeWord ∧ st.phase = .write ∧ st.outHasRoom = true ∧ ∃ w, t.outChan = st.outChan ++ [w])) ∧
    ((t.status = .framingError ∨ t.status = .transportError) → t.status ≠ st.status → t.outChan = st.outChan)

/-- R22, R23, R28: who writes what. IN_* by READ_WORD, W_* by PERMUTE_STEP and BUTTERFLY, all four also discarded at the end
of a transform and by RESET; DONE and STATUS by START, by the end of a transform and by RESET. -/
def Obligations.BuffersAndStatusHaveTheirWriters : Prop :=
  ∀ (i : Instr) (st t : State), exec i st = .next t →
    (i ∉ [Instr.readWord, .writeWord, .transportFault, .reset] → t.inBuf = st.inBuf) ∧
    (i ∉ [Instr.readWord, .permuteStep, .butterfly, .writeWord, .transportFault, .reset] → t.wBuf = st.wBuf) ∧
    (i ∉ [Instr.start, .readWord, .writeWord, .transportFault, .reset] → st.keepsOutcome t) ∧
    (t.phase ≠ .idle → t.wBuf = st.wBuf ∨ i = .permuteStep ∨ i = .butterfly) ∧
    (t.phase ≠ .idle → t.inBuf = st.inBuf ∨ i = .readWord)

/-- R36, R135, R25: no step changes the ROM or another parameter. -/
def Obligations.ParametersNeverChange : Prop := ∀ st t : State, step st = .next t → t.params = st.params

/-- R26, R35: no step reads a counter outside the phases R26 lists for it: two states that differ only in such counters (and
in the model's draw counter, log 13) step to outcomes that differ only in such. -/
def Obligations.DeadCountersAreNeverRead : Prop :=
  ∀ st t : State, st.forgetDead = t.forgetDead → forgetDeadOutcome (step st) = forgetDeadOutcome (step t)

/-! ### Steps and agents -/

/-- A step runs the decoded operation: the agenda's next code, in the state without it (log 4, log 8). -/
def Obligations.StepRunsTheDecodedOperation : Prop :=
  (∀ (st : State) (code tail : List Byte) (rest : List Turn) (i : Instr),
    st.protocolFault = false → st.agenda = .one (.operation code) :: rest → decode code = .ok (i, tail) →
      step st = exec i { st with agenda := rest }) ∧
  (∀ (st : State) (nbits w : Nat) (i : Instr),
    st.protocolFault = false → decodeTableWord nbits w = some i → step (st.withFetchWord nbits w) = exec i st)

/-- With no turn due, or with a turn whose agent cannot move yet, the engine runs the operation of its phase (R182), and
none in IDLE (R211, R231; log 5, log 6). -/
def Obligations.EngineRunsTheOperationOfItsPhase : Prop :=
  ∀ st : State, st.protocolFault = false →
    (st.agenda = [] ∨ (∃ a rest, st.agenda = .one a :: rest ∧ a.ready st = false)) →
      (st.phase = .idle → step st = .next st) ∧ (st.phase = .read → step st = exec .readWord st) ∧
      (st.phase = .permute → step st = exec .permuteStep st) ∧ (st.phase = .bfly → step st = exec .butterfly st) ∧
      (st.phase = .write → step st = exec .writeWord st)

/-- The host's wait and the schedule of R80, as turns of the agenda (log 4, log 5): `wait` goes on once DONE = 1, and after a
statement the engine takes steps until it has none enabled. -/
def Obligations.WaitAndSettleHoldTheAgenda : Prop :=
  ∀ (st : State) (rest : List Turn), st.protocolFault = false →
    (st.agenda = .one .waitDone :: rest →
      (st.doneFlag = true → step st = .next { st with agenda := rest }) ∧
      (st.doneFlag = false → step st = engineTurn st)) ∧
    (st.agenda = .one .settle :: rest →
      (st.engineEnabled = false → step st = .next { st with agenda := rest }) ∧
      (st.engineEnabled = true → step st = engineTurn st)) ∧
    (∀ w, st.agenda = .one (.send w) :: rest → st.params.inDepth.hasRoom st.inChan.length = false →
      step st = engineTurn st) ∧
    (st.agenda = .one .recv :: rest → st.outChan = [] → step st = engineTurn st)

/-- R31, R32: the producer appends at IN's tail while IN has room; the consumer removes OUT's head. Nothing else changes but
the agenda and the model's record of received words (log 24). -/
def Obligations.ProducerAppendsAndConsumerRemoves : Prop :=
  (∀ (st : State) (w : TransportWord) (rest : List Turn),
    st.protocolFault = false → st.agenda = .one (.send w) :: rest →
    st.params.inDepth.hasRoom st.inChan.length = true →
      step st = .next { st with inChan := st.inChan ++ [w], agenda := rest }) ∧
  (∀ (st : State) (w : TransportWord) (ws : List TransportWord) (rest : List Turn),
    st.protocolFault = false → st.agenda = .one .recv :: rest → st.outChan = w :: ws →
      step st = .next { st with outChan := ws, received := st.received ++ [w], agenda := rest })

/-- R205: of moves that coincide RESET happens and the others are lost; without a RESET they become turns, in their order
(log 23). -/
def Obligations.ResetWinsOverCoincidentMoves : Prop :=
  ∀ (st : State) (moves : List Action) (rest : List Turn),
    st.protocolFault = false → st.agenda = .together moves :: rest →
      (Action.operation (encode .reset) ∈ moves → step st = exec .reset { st with agenda := rest }) ∧
      ((∀ a ∈ moves, a.isReset = false) → step st = .next { st with agenda := moves.map .one ++ rest })

/-! ### Phases as functions -/

/-- R164: from READ at word 0 with the words of a good frame at the head of IN, 256 steps store READ_FRAME's values and
leave READ; where READ_FRAME answers FramingError with c words consumed, under either policy, c steps consume c words and end
in FramingError. -/
def Obligations.ReaderStepsComputeReadFrame : Prop :=
  ∀ (st : State) (u rest : List TransportWord),
    st.protocolFault = false → st.agenda = [] → st.phase = .read → st.n = 0 → st.ferr = false →
    st.inChan = u ++ rest →
    (∀ x, u.length = 256 → readFrame st.params.drainOnFramingError u = .ok x 256 →
      ∃ t, Host.Core.run Sys2Proof.core 256 st = .next t ∧ t.phase = .permute ∧ t.i = 0 ∧
        t.inBuf = Bank.ofFrame x ∧ t.inChan = rest ∧ t.outChan = st.outChan ∧ t.wBuf = st.wBuf ∧
        st.keepsOutcome t ∧ st.keepsOutside t) ∧
    (∀ c, u.length = c → readFrame st.params.drainOnFramingError u = .framingError c →
      ∃ t, Host.Core.run Sys2Proof.core c st = .next t ∧ t.endedWith true .framingError ∧ t.inChan = rest ∧
        t.outChan = st.outChan ∧ st.keepsOutside t)

/-- R123: from PERMUTE at i = 0 with defined inputs, 256 steps leave W_RE and W_IM equal to PERMUTE(IN_RE, IN_IM). -/
def Obligations.PermuteStepsComputePermute : Prop :=
  ∀ (st : State) (x : Frame),
    st.protocolFault = false → st.agenda = [] → st.phase = .permute → st.i = 0 → st.inBuf = Bank.ofFrame x →
      ∃ t, Host.Core.run Sys2Proof.core 256 st = .next t ∧ t.phase = .bfly ∧ t.s = 0 ∧ t.k = 0 ∧
        t.wBuf = Bank.ofFrame (permute x) ∧ t.inBuf = st.inBuf ∧ st.keepsChannels t ∧ st.keepsOutcome t ∧
        st.keepsOutside t

/-- R145: from BFLY at (0, 0) with defined values, 1024 steps leave W_RE and W_IM equal to BFLY_CORE of their values. -/
def Obligations.ButterflyStepsComputeBflyCore : Prop :=
  ∀ (st : State) (x : Frame),
    st.protocolFault = false → st.agenda = [] → st.phase = .bfly → st.s = 0 → st.k = 0 →
    st.wBuf = Bank.ofFrame x →
      ∃ t, Host.Core.run Sys2Proof.core 1024 st = .next t ∧ t.phase = .write ∧ t.n = 0 ∧
        t.wBuf = Bank.ofFrame (bflyCore st.params.twTable x) ∧ t.inBuf = st.inBuf ∧ st.keepsChannels t ∧
        st.keepsOutcome t ∧ st.keepsOutside t

/-- R166: from WRITE at n = 0 with defined values and room for the frame, 256 steps append WRITE_FRAME(W) and complete. -/
def Obligations.WriterStepsAppendWriteFrame : Prop :=
  ∀ (st : State) (x : Frame),
    st.protocolFault = false → st.agenda = [] → st.phase = .write → st.n = 0 → st.wBuf = Bank.ofFrame x →
    (∀ j, j < 256 → st.params.outDepth.hasRoom (st.outChan.length + j) = true) →
      ∃ t, Host.Core.run Sys2Proof.core 256 st = .next t ∧ t.endedWith true .ok ∧
        t.outChan = st.outChan ++ writeFrame x ∧ t.inChan = st.inChan ∧ st.keepsOutside t

/-- R181, R186: from IDLE, START and 1792 engine steps on a well-formed frame append the transform of its samples to OUT,
remove its 256 words from IN and leave DONE = 1 and STATUS = OK, whatever the policy. -/
def Obligations.TransformCompletesIn1793Steps : Prop :=
  ∀ (st : State) (u rest : List TransportWord) (x : Frame),
    st.protocolFault = false → st.agenda = [.one (.operation (encode .start))] → st.phase = .idle →
    st.inChan = u ++ rest → wellFormedFrame u →
    (∀ (n : BitVec 8) (w : TransportWord), u[n.toNat]? = some w → x.read n = unpack w.data) →
    (∀ j, j < 256 → st.params.outDepth.hasRoom (st.outChan.length + j) = true) →
      ∃ t, Host.Core.run Sys2Proof.core 1793 st = .next t ∧ t.endedWith true .ok ∧ t.finished = true ∧
        t.outChan = st.outChan ++ writeFrame (bflyCore st.params.twTable (permute x)) ∧ t.inChan = rest ∧
        t.agenda = [] ∧ t.params = st.params

/-- R185, R168: a transform depends on the data of its 256 words and on the ROM alone: whatever else the two machines hold,
and whatever keep and strb the words carry, two well-formed frames with the same data give the same output words. -/
def Obligations.TransformsAreIndependent : Prop :=
  ∀ (st₁ st₂ : State) (u₁ u₂ rest₁ rest₂ : List TransportWord),
    (∀ st, st = st₁ ∨ st = st₂ → st.protocolFault = false ∧ st.agenda = [.one (.operation (encode .start))] ∧
      st.phase = .idle ∧ ∀ j, j < 256 → st.params.outDepth.hasRoom (st.outChan.length + j) = true) →
    st₁.inChan = u₁ ++ rest₁ → st₂.inChan = u₂ ++ rest₂ → wellFormedFrame u₁ → wellFormedFrame u₂ →
    u₁.map TransportWord.data = u₂.map TransportWord.data → st₁.params.twTable = st₂.params.twTable →
      ∃ t₁ t₂ output, Host.Core.run Sys2Proof.core 1793 st₁ = .next t₁ ∧
        Host.Core.run Sys2Proof.core 1793 st₂ = .next t₂ ∧
        t₁.outChan = st₁.outChan ++ output ∧ t₂.outChan = st₂.outChan ++ output ∧ wellFormedFrame output ∧
        t₁.endedWith true .ok ∧ t₂.endedWith true .ok ∧ t₁.inChan = rest₁ ∧ t₂.inChan = rest₂
end

