-- ==== Sys2Proof/Laws/Bank.lean ====
section
/-! SUPPORT. The laws of frames and buffer pairs: read after write, the frame of a write, and that a pair of defined values
reads and writes as the values do. -/

namespace Sys2Proof

@[simp] theorem ofNat8_toNat (i : BitVec 8) : BitVec.ofNat 8 i.toNat = i := by simp

theorem ofNat8_inj {a b : Nat} (ha : a < 256) (hb : b < 256) (h : BitVec.ofNat 8 a = BitVec.ofNat 8 b) : a = b := by
  have := congrArg BitVec.toNat h
  simp only [BitVec.toNat_ofNat] at this
  omega

theorem Sample.ext_iff' {v w : Sample} : v = w ↔ v.re = w.re ∧ v.im = w.im := by
  cases v; cases w; simp

/-- Two frames with the same samples are equal. -/
theorem Frame.ext_read {f g : Frame} (h : ∀ i, f.read i = g.read i) : f = g := by
  obtain ⟨fr, fi⟩ := f
  obtain ⟨gr, gi⟩ := g
  have key : ∀ j (hj : j < 256), fr[j] = gr[j] ∧ fi[j] = gi[j] := by
    intro j hj
    have := h (BitVec.ofNat 8 j)
    simpa [Frame.read, Nat.mod_eq_of_lt hj] using this
  simp only [Frame.mk.injEq]
  exact ⟨Vector.ext fun j hj => (key j hj).1, Vector.ext fun j hj => (key j hj).2⟩

@[simp] theorem Frame.read_write_same (f : Frame) (i : BitVec 8) (v : Sample) : (f.write i v).read i = v := by
  simp [Frame.read, Frame.write]

theorem Frame.read_write_other (f : Frame) {i j : BitVec 8} (v : Sample) (h : i ≠ j) :
    (f.write i v).read j = f.read j := by
  have : i.toNat ≠ j.toNat := fun e => h (BitVec.eq_of_toNat_eq e)
  simp [Frame.read, Frame.write, this]

theorem Frame.read_write (f : Frame) (i j : BitVec 8) (v : Sample) :
    (f.write i v).read j = if i = j then v else f.read j := by
  split
  · next h => subst h; simp
  · next h => exact f.read_write_other v h

@[simp] theorem Frame.read_tabulate (g : BitVec 8 → Sample) (i : BitVec 8) : (Frame.tabulate g).read i = g i := by
  simp [Frame.read, Frame.tabulate]

end Sys2Proof

namespace Sys2Proof.Machine

theorem Bank.ext' {a b : Bank} (hr : ∀ j : Fin 256, a.re[j] = b.re[j]) (hi : ∀ j : Fin 256, a.im[j] = b.im[j]) :
    a = b := by
  obtain ⟨ar, ai⟩ := a
  obtain ⟨br, bi⟩ := b
  simp only [Bank.mk.injEq]
  exact ⟨Vector.ext fun j hj => hr ⟨j, hj⟩, Vector.ext fun j hj => hi ⟨j, hj⟩⟩

/-- A read that succeeds is in range and finds both parts defined. -/
theorem Bank.read_eq_ok {b : Bank} {i : Nat} {v : Sample} :
    b.read i = .ok v ↔ ∃ h : i < 256, b.re[i] = some v.re ∧ b.im[i] = some v.im := by
  unfold Bank.read
  split
  · next h =>
    simp only [h, exists_true_left]
    split
    · next re im hre him => cases v; simp [hre, him]
    · next hno =>
      constructor
      · intro h; cases h
      · rintro ⟨hre, him⟩; exact (hno _ _ hre him).elim
  · next h => simp [h]

/-- A read of an element with an `undef` part is UndefRead. -/
theorem Bank.read_undef {b : Bank} {i : Nat} (h : i < 256) (hno : b.re[i] = none ∨ b.im[i] = none) :
    b.read i = .error .undefRead := by
  unfold Bank.read
  simp only [h, dite_true]
  split
  · next hre him => rcases hno with e | e <;> simp_all
  · rfl

/-- A read of a defined element in range succeeds. -/
theorem Bank.read_of_some {b : Bank} {i : Nat} (h : i < 256) {re im : Q16} (hre : b.re[i] = some re)
    (him : b.im[i] = some im) : b.read i = .ok ⟨re, im⟩ := Bank.read_eq_ok.2 ⟨h, hre, him⟩

/-- A write in range replaces both parts of its element. -/
theorem Bank.write_of_lt (b : Bank) {i : Nat} (h : i < 256) (v : Sample) :
    b.write i v = .ok ⟨b.re.set i (some v.re), b.im.set i (some v.im)⟩ := by simp [Bank.write, h]

theorem Bank.write_eq_ok {b b' : Bank} {i : Nat} {v : Sample} :
    b.write i v = .ok b' ↔ ∃ h : i < 256, b' = ⟨b.re.set i (some v.re), b.im.set i (some v.im)⟩ := by
  unfold Bank.write
  split
  · next h => simp [h, eq_comm]
  · next h => simp [h]

/-- Read after write: the written element, and every other element as before. -/
theorem Bank.read_after_write {b b' : Bank} {i : Nat} {v : Sample} (h : b.write i v = .ok b') (j : Nat) :
    b'.read j = if i = j then .ok v else b.read j := by
  obtain ⟨hi, rfl⟩ := Bank.write_eq_ok.1 h
  by_cases hij : i = j
  · subst hij; simp [Bank.read, hi]
  · by_cases hj : j < 256
    · simp [Bank.read, hj, hij]
    · simp [Bank.read, hj, hij]

theorem Bank.ofFrame_injective {f g : Frame} (h : Bank.ofFrame f = Bank.ofFrame g) : f = g := by
  obtain ⟨fr, fi⟩ := f
  obtain ⟨gr, gi⟩ := g
  simp only [Bank.ofFrame, Bank.mk.injEq] at h
  simp only [Frame.mk.injEq]
  constructor
  · refine Vector.ext fun j hj => ?_
    have := congrArg (·[j]) h.1
    simpa using this
  · refine Vector.ext fun j hj => ?_
    have := congrArg (·[j]) h.2
    simpa using this

theorem Bank.read_ofFrame (f : Frame) {i : Nat} (h : i < 256) :
    (Bank.ofFrame f).read i = .ok (f.read (BitVec.ofNat 8 i)) := by
  apply Bank.read_of_some h <;> simp [Bank.ofFrame, Nat.mod_eq_of_lt h]

/-- A buffer pair that reads as 256 values everywhere holds them. -/
theorem Bank.eq_ofFrame {b : Bank} {f : Frame} (h : ∀ i : BitVec 8, b.read i.toNat = .ok (f.read i)) :
    b = Bank.ofFrame f := by
  have key : ∀ j (hj : j < 256), b.re[j] = some f.re[j] ∧ b.im[j] = some f.im[j] := by
    intro j hj
    obtain ⟨_, e₁, e₂⟩ := Bank.read_eq_ok.1 (h (BitVec.ofNat 8 j))
    have e : (BitVec.ofNat 8 j).toNat = j := by simp; omega
    simp only [Frame.read, e] at e₁ e₂
    exact ⟨e₁, e₂⟩
  apply Bank.ext'
  · intro j; simpa [Bank.ofFrame] using (key j j.isLt).1
  · intro j; simpa [Bank.ofFrame] using (key j j.isLt).2

theorem Bank.write_ofFrame (f : Frame) {i : Nat} (h : i < 256) (v : Sample) :
    (Bank.ofFrame f).write i v = .ok (Bank.ofFrame (f.write (BitVec.ofNat 8 i) v)) := by
  rw [Bank.write_of_lt _ h]
  simp [Bank.ofFrame, Frame.write, Nat.mod_eq_of_lt h]

@[simp] theorem Bank.toFrame_ofFrame (f : Frame) : (Bank.ofFrame f).toFrame = .ok f := by
  simp [Bank.toFrame, Bank.ofFrame, Bank.allDefined, Function.comp_def]

/-- A buffer pair with an `undef` element is no pair of 256 values. -/
theorem Bank.toFrame_undef {b : Bank} (h : ∃ j : Fin 256, b.re[j] = none ∨ b.im[j] = none) :
    b.toFrame = .error .undefRead := by
  have : b.allDefined = false := by
    rw [Bool.eq_false_iff]
    intro hall
    simp only [Bank.allDefined, Bool.and_eq_true, Vector.all_eq_true] at hall
    obtain ⟨j, hj | hj⟩ := h
    · have := hall.1 j.val j.isLt; simp_all
    · have := hall.2 j.val j.isLt; simp_all
  simp [Bank.toFrame, this]

end Sys2Proof.Machine
end

