-- ==== Sys2Proof/Laws/BitReverse.lean ====
section
/-! SUPPORT. Bit reversal and the permuter: the index function is its own inverse, and the moves of distinct indices write
distinct elements. -/

namespace Sys2Proof.Machine

@[simp] theorem bitrev8_bitrev8 (i : BitVec 8) : bitrev8 (bitrev8 i) = i := by
  revert i
  decide +kernel

theorem bitrev8_inj {i j : BitVec 8} (h : bitrev8 i = bitrev8 j) : i = j := by
  rw [← bitrev8_bitrev8 i, h, bitrev8_bitrev8]

@[simp] theorem permute_read (x : Frame) (m : BitVec 8) : (permute x).read m = x.read (bitrev8 m) := by
  simp [permute]

/-- A move of a defined sample (R121). -/
theorem permuteMove_eq {source : Bank} {i : Nat} {v : Sample} (target : Bank) (h : source.read i = .ok v) :
    permuteMove source i target = .ok
      ⟨target.re.set (bitrev8 (BitVec.ofNat 8 i)).toNat (some v.re) (bitrev8 (BitVec.ofNat 8 i)).isLt,
        target.im.set (bitrev8 (BitVec.ofNat 8 i)).toNat (some v.im) (bitrev8 (BitVec.ofNat 8 i)).isLt⟩ := by
  simp [permuteMove, h, Bank.write_of_lt _ (bitrev8 (BitVec.ofNat 8 i)).isLt]

/-- The only ways a move ends: with its sample defined and written, or with the read's fault. -/
theorem permuteMove_cases (source : Bank) (i : Nat) (target : Bank) :
    (∃ v, source.read i = .ok v ∧ permuteMove source i target = .ok
      ⟨target.re.set (bitrev8 (BitVec.ofNat 8 i)).toNat (some v.re) (bitrev8 (BitVec.ofNat 8 i)).isLt,
        target.im.set (bitrev8 (BitVec.ofNat 8 i)).toNat (some v.im) (bitrev8 (BitVec.ofNat 8 i)).isLt⟩) ∨
    (∃ f, source.read i = .error f ∧ permuteMove source i target = .error f) := by
  cases h : source.read i with
  | ok v => exact .inl ⟨v, rfl, permuteMove_eq target h⟩
  | error f => exact .inr ⟨f, rfl, by simp [permuteMove, h]⟩

end Sys2Proof.Machine
end

