-- ==== Sys2Proof/Laws/Butterfly.lean ====
section
/-! SUPPORT. The butterfly core: the indices of a stage, one butterfly on values and on buffers, and a stage as a whole. -/

namespace Sys2Proof.Machine

/-! ### Indices (R141, R142) -/

theorem butterflyIndex_facts :
    ∀ (s : Fin 8) (k : Fin 128), (butterflyIndex s k).top < 256 ∧ (butterflyIndex s k).bot < 256 ∧
      (butterflyIndex s k).twIdx < 128 ∧ (butterflyIndex s k).bot = (butterflyIndex s k).top + half s ∧
      (butterflyIndex s k).top / (2 * half s) * half s + (butterflyIndex s k).top % half s = k ∧
      (butterflyIndex s k).bot / (2 * half s) * half s + (butterflyIndex s k).bot % half s = k := by
  decide +kernel

section
variable {s k : Nat} (hs : s < 8) (hk : k < 128)
include hs hk

theorem top_lt : (butterflyIndex s k).top < 256 := (butterflyIndex_facts ⟨s, hs⟩ ⟨k, hk⟩).1
theorem bot_lt : (butterflyIndex s k).bot < 256 := (butterflyIndex_facts ⟨s, hs⟩ ⟨k, hk⟩).2.1
theorem twIdx_lt : (butterflyIndex s k).twIdx < 128 := (butterflyIndex_facts ⟨s, hs⟩ ⟨k, hk⟩).2.2.1
theorem bot_eq : (butterflyIndex s k).bot = (butterflyIndex s k).top + half s :=
  (butterflyIndex_facts ⟨s, hs⟩ ⟨k, hk⟩).2.2.2.1

/-- The butterfly that touches an element is computed from the element's index. -/
theorem butterfly_of_index {m : Nat} (hm : (butterflyIndex s k).top = m ∨ (butterflyIndex s k).bot = m) :
    m / (2 * half s) * half s + m % half s = k := by
  have := (butterflyIndex_facts ⟨s, hs⟩ ⟨k, hk⟩).2.2.2.2
  rcases hm with rfl | rfl
  · exact this.1
  · exact this.2

theorem top_ne_bot : (butterflyIndex s k).top ≠ (butterflyIndex s k).bot := by
  have := bot_eq hs hk
  have : 0 < half s := by unfold half; positivity
  omega

end

/-- Two butterflies of a stage share no element (R142). -/
theorem butterfly_indices_disjoint {s k l : Nat} (hs : s < 8) (hk : k < 128) (hl : l < 128) (hkl : k ≠ l) :
    (butterflyIndex s k).top ≠ (butterflyIndex s l).top ∧ (butterflyIndex s k).top ≠ (butterflyIndex s l).bot ∧
    (butterflyIndex s k).bot ≠ (butterflyIndex s l).top ∧ (butterflyIndex s k).bot ≠ (butterflyIndex s l).bot := by
  refine ⟨fun e => hkl ?_, fun e => hkl ?_, fun e => hkl ?_, fun e => hkl ?_⟩
  · rw [← butterfly_of_index hs hk (.inl rfl), ← butterfly_of_index hs hl (.inl rfl), e]
  · rw [← butterfly_of_index hs hk (.inl rfl), ← butterfly_of_index hs hl (.inr rfl), e]
  · rw [← butterfly_of_index hs hk (.inr rfl), ← butterfly_of_index hs hl (.inl rfl), e]
  · rw [← butterfly_of_index hs hk (.inr rfl), ← butterfly_of_index hs hl (.inr rfl), e]

/-! ### One butterfly on values -/

/-- The two samples and the twiddle factor of a butterfly. -/
def topSample (s k : Nat) (w : Frame) : Sample := w.read (BitVec.ofNat 8 (butterflyIndex s k).top)
def botSample (s k : Nat) (w : Frame) : Sample := w.read (BitVec.ofNat 8 (butterflyIndex s k).bot)
def twSample (rom : TwTable) (s k : Nat) : Sample := twRead rom (BitVec.ofNat 7 (butterflyIndex s k).twIdx)

/-- What sample `m` is after one butterfly. -/
theorem butterfly_read (rom : TwTable) {s k m : Nat} (hs : s < 8) (hk : k < 128) (hm : m < 256) (w : Frame) :
    (butterfly rom s k w).read (BitVec.ofNat 8 m) =
      if (butterflyIndex s k).top = m then butterflyTop (topSample s k w) (botSample s k w) (twSample rom s k)
      else if (butterflyIndex s k).bot = m then butterflyBot (topSample s k w) (botSample s k w) (twSample rom s k)
      else w.read (BitVec.ofNat 8 m) := by
  have ht := top_lt hs hk
  have hb := bot_lt hs hk
  have hn := top_ne_bot hs hk
  have et : BitVec.ofNat 8 (butterflyIndex s k).top = BitVec.ofNat 8 m ↔ (butterflyIndex s k).top = m :=
    ⟨ofNat8_inj ht hm, fun e => by rw [e]⟩
  have eb : BitVec.ofNat 8 (butterflyIndex s k).bot = BitVec.ofNat 8 m ↔ (butterflyIndex s k).bot = m :=
    ⟨ofNat8_inj hb hm, fun e => by rw [e]⟩
  simp only [butterfly, Frame.read_write, et, eb, topSample, botSample, twSample]
  by_cases h1 : (butterflyIndex s k).top = m
  · have : (butterflyIndex s k).bot ≠ m := fun e => hn (h1.trans e.symm)
    simp [h1, this]
  · simp [h1]

/-- The samples of butterfly `l` are not touched by another butterfly of the stage. -/
theorem butterfly_keeps_others (rom : TwTable) {s k l : Nat} (hs : s < 8) (hk : k < 128) (hl : l < 128) (hkl : k ≠ l)
    (w : Frame) :
    topSample s l (butterfly rom s k w) = topSample s l w ∧ botSample s l (butterfly rom s k w) = botSample s l w := by
  obtain ⟨h1, h2, h3, h4⟩ := butterfly_indices_disjoint hs hk hl hkl
  constructor
  · rw [topSample, butterfly_read rom hs hk (top_lt hs hl), if_neg h1, if_neg h3]; rfl
  · rw [botSample, butterfly_read rom hs hk (bot_lt hs hl), if_neg h2, if_neg h4]; rfl

/-- Butterflies of a stage commute. -/
theorem butterfly_comm (rom : TwTable) {s k l : Nat} (hs : s < 8) (hk : k < 128) (hl : l < 128) (w : Frame) :
    butterfly rom s l (butterfly rom s k w) = butterfly rom s k (butterfly rom s l w) := by
  by_cases hkl : k = l
  · rw [hkl]
  · apply Frame.ext_read
    intro j
    obtain ⟨m, hm, rfl⟩ : ∃ m, m < 256 ∧ j = BitVec.ofNat 8 m := ⟨j.toNat, j.isLt, by simp⟩
    obtain ⟨e1, e2⟩ := butterfly_keeps_others rom hs hk hl hkl w
    obtain ⟨e3, e4⟩ := butterfly_keeps_others rom hs hl hk (Ne.symm hkl) w
    obtain ⟨h1, h2, h3, h4⟩ := butterfly_indices_disjoint hs hk hl hkl
    simp only [butterfly_read rom hs hk hm, butterfly_read rom hs hl hm, e1, e2, e3, e4]
    split_ifs <;> first | rfl | omega

/-! ### A stage on values -/

theorem butterflies_keep_others (rom : TwTable) {s l : Nat} (hs : s < 8) (hl : l < 128) (ks : List Nat)
    (hks : ∀ k ∈ ks, k < 128) (hlk : l ∉ ks) (w : Frame) :
    topSample s l (butterflies rom s ks w) = topSample s l w ∧
    botSample s l (butterflies rom s ks w) = botSample s l w := by
  induction ks generalizing w with
  | nil => exact ⟨rfl, rfl⟩
  | cons k ks ih =>
    simp only [List.mem_cons, not_or] at hlk
    have hk := hks k (by simp)
    obtain ⟨e1, e2⟩ := butterfly_keeps_others rom hs hk hl (Ne.symm hlk.1) w
    obtain ⟨e3, e4⟩ := ih (fun k hk => hks k (by simp [hk])) hlk.2 (butterfly rom s k w)
    exact ⟨e3.trans e1, e4.trans e2⟩

/-- A list of distinct butterflies gives each its values, computed from the samples before the first of them. -/
theorem butterflies_read (rom : TwTable) {s : Nat} (hs : s < 8) (ks : List Nat) (hks : ∀ k ∈ ks, k < 128)
    (hd : ks.Nodup) (w : Frame) {k : Nat} (hk : k ∈ ks) :
    topSample s k (butterflies rom s ks w) = butterflyTop (topSample s k w) (botSample s k w) (twSample rom s k) ∧
    botSample s k (butterflies rom s ks w) = butterflyBot (topSample s k w) (botSample s k w) (twSample rom s k) := by
  induction ks generalizing w with
  | nil => simp at hk
  | cons l ks ih =>
    have hl := hks l (by simp)
    have hks' : ∀ k ∈ ks, k < 128 := fun k hk => hks k (by simp [hk])
    rw [List.nodup_cons] at hd
    have hcons : butterflies rom s (l :: ks) w = butterflies rom s ks (butterfly rom s l w) := rfl
    rw [hcons]
    rcases List.mem_cons.1 hk with rfl | hk'
    · obtain ⟨e1, e2⟩ := butterflies_keep_others rom hs hl ks hks' hd.1 (butterfly rom s k w)
      rw [e1, e2]
      constructor
      · rw [topSample, butterfly_read rom hs hl (top_lt hs hl), if_pos rfl]
      · rw [botSample, butterfly_read rom hs hl (bot_lt hs hl), if_neg (top_ne_bot hs hl), if_pos rfl]
    · have hne : l ≠ k := fun e => hd.1 (e ▸ hk')
      obtain ⟨e1, e2⟩ := butterfly_keeps_others rom hs hl (hks k (by simp [hk'])) hne w
      rw [← e1, ← e2]
      have := ih hks' hd.2 (butterfly rom s l w) hk'
      rw [e1, e2] at this ⊢
      exact this

/-- STAGE gives every butterfly's values, computed from its argument. -/
theorem stage_read (rom : TwTable) {s k : Nat} (hs : s < 8) (hk : k < 128) (w : Frame) :
    topSample s k (stage rom s w) = butterflyTop (topSample s k w) (botSample s k w) (twSample rom s k) ∧
    botSample s k (stage rom s w) = butterflyBot (topSample s k w) (botSample s k w) (twSample rom s k) :=
  butterflies_read rom hs _ (fun _ h => List.mem_range.1 h) List.nodup_range w (List.mem_range.2 hk)

/-! ### One butterfly on buffers -/

theorem romRead_of_lt (rom : TwTable) {t : Nat} (h : t < 128) : romRead rom t = .ok (twRead rom (BitVec.ofNat 7 t)) := by
  simp [romRead, twRead, h, Nat.mod_eq_of_lt h]

/-- On buffers of defined values a butterfly does what it does on the values. -/
theorem butterflyOn_ofFrame (rom : TwTable) {s k : Nat} (hs : s < 8) (hk : k < 128) (w : Frame) :
    butterflyOn rom s k (Bank.ofFrame w) = .ok (Bank.ofFrame (butterfly rom s k w)) := by
  simp only [butterflyOn, romRead_of_lt rom (twIdx_lt hs hk), Bank.read_ofFrame w (top_lt hs hk),
    Bank.read_ofFrame w (bot_lt hs hk), Bank.write_ofFrame _ (top_lt hs hk), Bank.write_ofFrame _ (bot_lt hs hk)]
  rfl

theorem butterfliesOn_ofFrame (rom : TwTable) {s : Nat} (hs : s < 8) (ks : List Nat) (hks : ∀ k ∈ ks, k < 128)
    (w : Frame) : butterfliesOn rom s ks (Bank.ofFrame w) = .ok (Bank.ofFrame (butterflies rom s ks w)) := by
  induction ks generalizing w with
  | nil => rfl
  | cons k ks ih =>
    simp only [butterfliesOn, List.foldlM_cons, butterflyOn_ofFrame rom hs (hks k (by simp))]
    exact ih (fun k hk => hks k (by simp [hk])) _

/-- The only ways a butterfly ends: with all its samples defined, writing both, or at an `undef` element. -/
theorem butterflyOn_cases (rom : TwTable) {s k : Nat} (hs : s < 8) (hk : k < 128) (w : Bank) :
    (∃ a b w₁ w₂, w.read (butterflyIndex s k).top = .ok a ∧ w.read (butterflyIndex s k).bot = .ok b ∧
      w.write (butterflyIndex s k).top (butterflyTop a b (twSample rom s k)) = .ok w₁ ∧
      w₁.write (butterflyIndex s k).bot (butterflyBot a b (twSample rom s k)) = .ok w₂ ∧
      butterflyOn rom s k w = .ok w₂) ∨
    ((w.read (butterflyIndex s k).top = .error .undefRead ∨ w.read (butterflyIndex s k).bot = .error .undefRead) ∧
      butterflyOn rom s k w = .error .undefRead) := by
  have hr := romRead_of_lt rom (twIdx_lt hs hk)
  have hread : ∀ i, i < 256 → (∃ v, w.read i = .ok v) ∨ w.read i = .error .undefRead := by
    intro i hi
    cases e : w.read i with
    | ok v => exact .inl ⟨v, rfl⟩
    | error f =>
      right
      unfold Bank.read at e
      simp only [hi, dite_true] at e
      split at e <;> cases e
      rfl
  rcases hread _ (top_lt hs hk) with ⟨a, ha⟩ | ha
  · rcases hread _ (bot_lt hs hk) with ⟨b, hb⟩ | hb
    · left
      refine ⟨a, b, _, _, ha, hb, Bank.write_of_lt _ (top_lt hs hk) _, Bank.write_of_lt _ (bot_lt hs hk) _, ?_⟩
      simp only [butterflyOn, hr, ha, hb, Bank.write_of_lt _ (top_lt hs hk), Bank.write_of_lt _ (bot_lt hs hk)]
      rfl
    · right
      refine ⟨.inr hb, ?_⟩
      simp only [butterflyOn, hr, ha, hb]
  · right
    refine ⟨.inl ha, ?_⟩
    simp only [butterflyOn, hr, ha]

end Sys2Proof.Machine
end

