-- ==== Sys2Proof/Laws/Decode.lean ====
section
/-! SUPPORT. The operand fields of the notation: each reader reads back what its writer wrote, and accepts nothing else. -/

namespace Sys2Proof

theorem except_bind_ok {ε α β : Type} {x : Except ε α} {f : α → Except ε β} {r : β} :
    (x >>= f) = .ok r ↔ ∃ a, x = .ok a ∧ f a = .ok r := by
  cases x <;> simp [bind, Except.bind]

@[simp] theorem ok_bind' {ε α β : Type} (a : α) (f : α → Except ε β) : ((.ok a : Except ε α) >>= f) = f a := rfl

/-- The four bytes of a 32-bit operand put together again. -/
theorem concat_bytes32 (v : BitVec 32) :
    (v.extractLsb' 24 8 ++ v.extractLsb' 16 8 ++ v.extractLsb' 8 8 ++ v.extractLsb' 0 8 : BitVec (8 + 8 + 8 + 8)) = v := by
  apply BitVec.eq_of_getLsbD_eq
  intro i hi
  simp only [BitVec.getLsbD_append, BitVec.getLsbD_extractLsb']
  split
  · simp_all
  · split
    · simp_all
    · split
      · simp_all; grind
      · simp_all; grind

theorem concat_halves64 (v : BitVec 64) :
    (v.extractLsb' 32 32 ++ v.extractLsb' 0 32 : BitVec (32 + 32)) = v := by
  apply BitVec.eq_of_getLsbD_eq
  intro i hi
  simp only [BitVec.getLsbD_append, BitVec.getLsbD_extractLsb']
  split
  · simp_all
  · simp_all; grind

/-- The bytes of four concatenated bytes. -/
theorem bytes32_concat (b0 b1 b2 b3 : Byte) :
    bytes32 (b3 ++ b2 ++ b1 ++ b0 : BitVec (8 + 8 + 8 + 8)) = [b0, b1, b2, b3] := by
  simp only [bytes32, List.cons.injEq, and_true]
  refine ⟨?_, ?_, ?_, ?_⟩ <;>
  · apply BitVec.eq_of_getLsbD_eq
    intro i hi
    simp only [BitVec.getLsbD_append, BitVec.getLsbD_extractLsb', hi, decide_true, Bool.true_and]
    grind

theorem extract_low_concat (h l : BitVec 32) : (h ++ l : BitVec (32 + 32)).extractLsb' 0 32 = l := by
  apply BitVec.eq_of_getLsbD_eq
  intro i hi
  simp only [BitVec.getLsbD_append, BitVec.getLsbD_extractLsb', hi, decide_true, Bool.true_and]
  grind

theorem extract_high_concat (h l : BitVec 32) : (h ++ l : BitVec (32 + 32)).extractLsb' 32 32 = h := by
  apply BitVec.eq_of_getLsbD_eq
  intro i hi
  simp only [BitVec.getLsbD_append, BitVec.getLsbD_extractLsb', hi, decide_true, Bool.true_and]
  grind

/-! ### Reading back -/

@[simp] theorem readByte_cons (b : Byte) (rest : List Byte) : readByte (b :: rest) = .ok (b, rest) := rfl

@[simp] theorem read32_bytes32 (v : BitVec 32) (rest : List Byte) : read32 (bytes32 v ++ rest) = .ok (v, rest) := by
  simp only [bytes32, List.cons_append, List.nil_append, read32]
  rw [concat_bytes32]

@[simp] theorem read64_bytes64 (v : BitVec 64) (rest : List Byte) : read64 (bytes64 v ++ rest) = .ok (v, rest) := by
  simp only [bytes64, List.append_assoc, read64, read32_bytes32, ok_bind']
  rw [concat_halves64]
  rfl

@[simp] theorem readBool_byteOfBool (b : Bool) (rest : List Byte) :
    readBool (byteOfBool b :: rest) = .ok (b, rest) := by
  cases b <;> rfl

@[simp] theorem readRomIndex_byte (t : BitVec 7) (rest : List Byte) :
    readRomIndex (t.setWidth 8 :: rest) = .ok (t, rest) := by
  have h : (t.setWidth 8).toNat < 128 := by
    have := t.isLt
    simp only [BitVec.toNat_setWidth]; omega
  have e : (t.setWidth 8).setWidth 7 = t := by
    apply BitVec.eq_of_toNat_eq
    have := t.isLt
    simp only [BitVec.toNat_setWidth]; omega
  simp only [readRomIndex, readByte_cons, ok_bind', h, if_true, e]
  rfl

theorem readStage_byte (s : BitVec 4) (hs : s.toNat < 8) (rest : List Byte) :
    readStage (s.setWidth 8 :: rest) = .ok (s, rest) := by
  have h : (s.setWidth 8).toNat < 8 := by simp only [BitVec.toNat_setWidth]; omega
  have e : (s.setWidth 8).setWidth 4 = s := by
    apply BitVec.eq_of_toNat_eq
    simp only [BitVec.toNat_setWidth]; omega
  simp only [readStage, readByte_cons, ok_bind', h, if_true, e]
  rfl

theorem readScalars_bytesOfScalars (vs : List Q16) (rest : List Byte) :
    readScalars vs.length (bytesOfScalars vs ++ rest) = .ok (vs, rest) := by
  induction vs with
  | nil => rfl
  | cons v vs ih =>
    simp only [bytesOfScalars] at ih
    simp only [bytesOfScalars, List.flatMap_cons, List.append_assoc, List.length_cons, readScalars, read32_bytes32,
      ok_bind', ih]
    rfl

@[simp] theorem readHalfFrame_bytes (v : Vector Q16 256) (rest : List Byte) :
    readHalfFrame (bytesOfScalars v.toList ++ rest) = .ok (v, rest) := by
  have h := readScalars_bytesOfScalars v.toList rest
  simp only [Vector.length_toList] at h
  simp only [readHalfFrame, h, ok_bind', Vector.length_toList, dite_true]
  rfl

@[simp] theorem readFrameOperand_bytes (x : FrameOperand) (rest : List Byte) :
    readFrameOperand (bytesOfFrameOperand x ++ rest) = .ok (x, rest) := by
  cases x with
  | buffers => rfl
  | literal f =>
    have h : readBool (0 :: (bytesOfScalars f.re.toList ++ (bytesOfScalars f.im.toList ++ rest)))
        = .ok (false, bytesOfScalars f.re.toList ++ (bytesOfScalars f.im.toList ++ rest)) :=
      readBool_byteOfBool false _
    simp only [bytesOfFrameOperand, List.cons_append, List.append_assoc, readFrameOperand, h, ok_bind',
      readHalfFrame_bytes]
    rfl

@[simp] theorem readTransportWord_bytes (w : TransportWord) (rest : List Byte) :
    readTransportWord (bytesOfTransportWord w ++ rest) = .ok (w, rest) := by
  simp only [bytesOfTransportWord, List.append_assoc, List.cons_append, List.nil_append, readTransportWord,
    read64_bytes64, ok_bind', readByte_cons, readBool_byteOfBool]
  rfl

theorem readTransportWords_bytes (ws : List TransportWord) (rest : List Byte) :
    readTransportWords ws.length (ws.flatMap bytesOfTransportWord ++ rest) = .ok (ws, rest) := by
  induction ws with
  | nil => rfl
  | cons w ws ih =>
    simp only [List.flatMap_cons, List.append_assoc, List.length_cons, readTransportWords, readTransportWord_bytes,
      ok_bind', ih]
    rfl

theorem readWordsOperand_bytes (u : WordsOperand) (hu : u.wellFormed = true) (rest : List Byte) :
    readWordsOperand (bytesOfWordsOperand u ++ rest) = .ok (u, rest) := by
  cases u with
  | channel => rfl
  | literal ws =>
    simp only [WordsOperand.wellFormed, decide_eq_true_eq] at hu
    have h : ∀ bs, readBool (0 :: bs) = .ok (false, bs) := readBool_byteOfBool false
    have hc : (BitVec.ofNat 8 ws.length).toNat + 256 * (BitVec.ofNat 8 (ws.length / 256)).toNat = ws.length := by
      simp only [BitVec.toNat_ofNat]; omega
    simp only [bytesOfWordsOperand, List.cons_append, readWordsOperand, h, ok_bind', readByte_cons, hc,
      readTransportWords_bytes]
    rfl

/-! ### Nothing else is accepted -/

theorem readByte_ok {bs rest : List Byte} {b : Byte} : readByte bs = .ok (b, rest) ↔ bs = b :: rest := by
  cases bs <;> simp [readByte]

theorem read32_ok {bs rest : List Byte} {v : BitVec 32} (h : read32 bs = .ok (v, rest)) : bs = bytes32 v ++ rest := by
  unfold read32 at h
  split at h
  · simp only [Except.ok.injEq, Prod.mk.injEq] at h
    obtain ⟨rfl, rfl⟩ := h
    rw [bytes32_concat]; rfl
  · cases h

theorem read64_ok {bs rest : List Byte} {v : BitVec 64} (h : read64 bs = .ok (v, rest)) : bs = bytes64 v ++ rest := by
  simp only [read64, except_bind_ok, Prod.exists] at h
  obtain ⟨low, bs1, h1, high, bs2, h2, h3⟩ := h
  simp only [pure, Except.pure, Except.ok.injEq, Prod.mk.injEq] at h3
  obtain ⟨rfl, rfl⟩ := h3
  rw [read32_ok h1, read32_ok h2, bytes64, extract_low_concat, extract_high_concat, List.append_assoc]

theorem readBool_ok {bs rest : List Byte} {b : Bool} (h : readBool bs = .ok (b, rest)) :
    bs = byteOfBool b :: rest := by
  simp only [readBool, except_bind_ok, Prod.exists] at h
  obtain ⟨c, bs1, h1, h2⟩ := h
  rw [readByte_ok] at h1
  subst h1
  split at h2
  · next e => cases h2; subst e; rfl
  · split at h2
    · next e => cases h2; subst e; rfl
    · cases h2

theorem readRomIndex_ok {bs rest : List Byte} {t : BitVec 7} (h : readRomIndex bs = .ok (t, rest)) :
    bs = t.setWidth 8 :: rest := by
  simp only [readRomIndex, except_bind_ok, Prod.exists] at h
  obtain ⟨c, bs1, h1, h2⟩ := h
  rw [readByte_ok] at h1
  subst h1
  split at h2
  · next e =>
    cases h2
    congr 1
    apply BitVec.eq_of_toNat_eq
    simp only [BitVec.toNat_setWidth]; omega
  · cases h2

theorem readStage_ok {bs rest : List Byte} {s : BitVec 4} (h : readStage bs = .ok (s, rest)) :
    bs = s.setWidth 8 :: rest ∧ s.toNat < 8 := by
  simp only [readStage, except_bind_ok, Prod.exists] at h
  obtain ⟨c, bs1, h1, h2⟩ := h
  rw [readByte_ok] at h1
  subst h1
  split at h2
  · next e =>
    cases h2
    refine ⟨?_, by simp only [BitVec.toNat_setWidth]; omega⟩
    congr 1
    apply BitVec.eq_of_toNat_eq
    simp only [BitVec.toNat_setWidth]; omega
  · cases h2

theorem readScalars_ok {count : Nat} {bs rest : List Byte} {vs : List Q16}
    (h : readScalars count bs = .ok (vs, rest)) : bs = bytesOfScalars vs ++ rest := by
  induction count generalizing bs vs with
  | zero => cases h; rfl
  | succ count ih =>
    simp only [readScalars, except_bind_ok, Prod.exists] at h
    obtain ⟨v, bs1, h1, ws, bs2, h2, h3⟩ := h
    simp only [pure, Except.pure, Except.ok.injEq, Prod.mk.injEq] at h3
    obtain ⟨rfl, rfl⟩ := h3
    rw [read32_ok h1, ih h2]
    simp [bytesOfScalars]

theorem readHalfFrame_ok {bs rest : List Byte} {v : Vector Q16 256} (h : readHalfFrame bs = .ok (v, rest)) :
    bs = bytesOfScalars v.toList ++ rest := by
  simp only [readHalfFrame, except_bind_ok, Prod.exists] at h
  obtain ⟨vs, bs1, h1, h2⟩ := h
  split at h2
  · cases h2; exact readScalars_ok h1
  · cases h2

theorem readFrameOperand_ok {bs rest : List Byte} {x : FrameOperand} (h : readFrameOperand bs = .ok (x, rest)) :
    bs = bytesOfFrameOperand x ++ rest := by
  simp only [readFrameOperand, except_bind_ok, Prod.exists] at h
  obtain ⟨own, bs1, h1, h2⟩ := h
  have h1 := readBool_ok h1
  subst h1
  cases own with
  | true => cases h2; rfl
  | false =>
    simp only [Bool.false_eq_true, if_false, except_bind_ok, Prod.exists] at h2
    obtain ⟨re, bs2, h2, im, bs3, h3, h4⟩ := h2
    cases h4
    rw [readHalfFrame_ok h2, readHalfFrame_ok h3]
    simp [bytesOfFrameOperand, byteOfBool]

theorem readTransportWord_ok {bs rest : List Byte} {w : TransportWord} (h : readTransportWord bs = .ok (w, rest)) :
    bs = bytesOfTransportWord w ++ rest := by
  simp only [readTransportWord, except_bind_ok, Prod.exists] at h
  obtain ⟨data, b1, h1, keep, b2, h2, strb, b3, h3, last, b4, h4, h5⟩ := h
  cases h5
  rw [read64_ok h1, readByte_ok.1 h2, readByte_ok.1 h3, readBool_ok h4]
  simp [bytesOfTransportWord]

theorem readTransportWords_ok {count : Nat} {bs rest : List Byte} {ws : List TransportWord}
    (h : readTransportWords count bs = .ok (ws, rest)) :
    bs = ws.flatMap bytesOfTransportWord ++ rest ∧ ws.length = count := by
  induction count generalizing bs ws with
  | zero => cases h; exact ⟨rfl, rfl⟩
  | succ count ih =>
    simp only [readTransportWords, except_bind_ok, Prod.exists] at h
    obtain ⟨w, bs1, h1, ws', bs2, h2, h3⟩ := h
    cases h3
    obtain ⟨e, hl⟩ := ih h2
    rw [readTransportWord_ok h1, e]
    simp [hl]

theorem readWordsOperand_ok {bs rest : List Byte} {u : WordsOperand} (h : readWordsOperand bs = .ok (u, rest)) :
    bs = bytesOfWordsOperand u ++ rest ∧ u.wellFormed = true := by
  simp only [readWordsOperand, except_bind_ok, Prod.exists] at h
  obtain ⟨own, bs1, h1, h2⟩ := h
  have h1 := readBool_ok h1
  subst h1
  cases own with
  | true => cases h2; exact ⟨rfl, rfl⟩
  | false =>
    simp only [Bool.false_eq_true, if_false, except_bind_ok, Prod.exists] at h2
    obtain ⟨low, b2, h2, high, b3, h3, ws, b4, h4, h5⟩ := h2
    cases h5
    obtain ⟨e, hl⟩ := readTransportWords_ok h4
    rw [readByte_ok.1 h2, readByte_ok.1 h3, e]
    have l1 := low.isLt
    have l2 := high.isLt
    constructor
    · have e1 : BitVec.ofNat 8 ws.length = low := by
        apply BitVec.eq_of_toNat_eq; simp only [BitVec.toNat_ofNat]; omega
      have e2 : BitVec.ofNat 8 (ws.length / 256) = high := by
        apply BitVec.eq_of_toNat_eq; simp only [BitVec.toNat_ofNat]; omega
      simp [bytesOfWordsOperand, byteOfBool, e1, e2]
    · simp only [WordsOperand.wellFormed, decide_eq_true_eq]; omega

end Sys2Proof
end

