-- ==== Sys2Proof/Laws/FixedPoint.lean ====
section
/-! SUPPORT. The fixed-point functions as bit-vector arithmetic and as real numbers. -/

namespace Sys2Proof.Machine

theorem qAdd_eq_add (a b : Q16) : qAdd a b = a + b := by
  simp [qAdd, wrap32, BitVec.ofInt_add]

theorem qSub_eq_sub (a b : Q16) : qSub a b = a - b := by
  rw [qSub, wrap32, Int.sub_eq_add_neg, BitVec.ofInt_add, BitVec.ofInt_neg]
  simp [BitVec.sub_eq_add_neg]

/-- The exact product divided by 2^16 is what floor division of integers gives (R8). -/
theorem shiftFloor_eq_floor (x : Int) : shiftFloor x 16 = ⌊(x : ℚ) / 65536⌋ := by
  have h : (65536 : ℚ) = ((65536 : ℕ) : ℚ) := by norm_num
  rw [h, Rat.floor_intCast_div_natCast]
  rfl

theorem qMul_comm (a b : Q16) : qMul a b = qMul b a := by
  rw [qMul, qMul, Int.mul_comm]

@[simp] theorem qMul_one (a : Q16) : qMul a 0x00010000 = a := by
  have h : shiftFloor (a.toInt * (0x00010000 : Q16).toInt) 16 = a.toInt := by
    have e : (0x00010000 : Q16).toInt = 65536 := by decide
    rw [e, shiftFloor]
    omega
  rw [qMul, h, wrap32, BitVec.ofInt_toInt]

@[simp] theorem qMul_zero (a : Q16) : qMul a 0 = 0 := by
  simp [qMul, shiftFloor, wrap32]

/-- A product with -1.0 is the negation, and wraps where the negation does (R102, R132). -/
theorem qMul_neg_one (a : Q16) : qMul a 0xFFFF0000 = -a := by
  have minus : (0xFFFF0000 : Q16).toInt = -65536 := by decide
  rw [qMul, minus, shiftFloor, wrap32]
  have : a.toInt * -65536 / 2 ^ 16 = -a.toInt := by omega
  rw [this, BitVec.ofInt_neg, BitVec.ofInt_toInt]

/-- The product's wrap keeps bits 47 to 16 of the 64-bit product (R102). -/
theorem qMul_eq_bits (a b : Q16) :
    qMul a b = (a.signExtend 64 * b.signExtend 64).extractLsb' 16 32 := by
  have hp : a.signExtend 64 * b.signExtend 64 = BitVec.ofInt 64 (a.toInt * b.toInt) := by
    rw [BitVec.ofInt_mul]; rfl
  rw [hp, qMul, wrap32, shiftFloor]
  apply BitVec.eq_of_toNat_eq
  rw [BitVec.extractLsb'_toNat, BitVec.toNat_ofInt, BitVec.toNat_ofInt, Nat.shiftRight_eq_div_pow]
  omega

/-! ### binary64 -/

/-- The integer part of |x| * 65536 (R103). -/
theorem doubleScaledMagnitude_eq_floor (x : Double64) :
    (doubleScaledMagnitude x : ℤ) = ⌊(doubleSignificand x : ℚ) * 2 ^ ((doubleScale x : ℤ) - 1075) * 65536⌋ := by
  have h16 : (65536 : ℚ) = 2 ^ (16 : ℤ) := by norm_num
  rw [h16, mul_assoc, ← zpow_add₀ (by norm_num)]
  unfold doubleScaledMagnitude
  split
  · next h =>
    have e : (doubleScale x : ℤ) - 1075 + 16 = ((doubleScale x - 1059 : ℕ) : ℤ) := by omega
    rw [e, zpow_natCast]
    rw [← Int.floor_intCast (R := ℚ) ((doubleSignificand x * 2 ^ (doubleScale x - 1059) : ℕ) : ℤ)]
    push_cast
    rfl
  · next h =>
    have e : (doubleScale x : ℤ) - 1075 + 16 = -((1059 - doubleScale x : ℕ) : ℤ) := by omega
    rw [e, zpow_neg, zpow_natCast, ← div_eq_mul_inv]
    have := Rat.floor_intCast_div_natCast (doubleSignificand x : ℤ) (2 ^ (1059 - doubleScale x))
    push_cast at this ⊢
    rw [this]

/-- The fields of a pattern read back. -/
theorem doubleExponent_pattern (negative : Bool) {e : Nat} (f : Nat) (he : e < 2048) :
    doubleExponent (doublePattern negative e f) = e := by
  have : (doublePattern negative e f).extractLsb' 52 11 = BitVec.ofNat 11 e := by
    apply BitVec.eq_of_getLsbD_eq
    intro i hi
    simp only [doublePattern, BitVec.getLsbD_append, BitVec.getLsbD_extractLsb', hi, decide_true, Bool.true_and]
    grind
  rw [doubleExponent, this, BitVec.toNat_ofNat, Nat.mod_eq_of_lt he]

theorem doubleFraction_pattern (negative : Bool) (e : Nat) {f : Nat} (hf : f < 2 ^ 52) :
    doubleFraction (doublePattern negative e f) = f := by
  have : (doublePattern negative e f).extractLsb' 0 52 = BitVec.ofNat 52 f := by
    apply BitVec.eq_of_getLsbD_eq
    intro i hi
    simp only [doublePattern, BitVec.getLsbD_append, BitVec.getLsbD_extractLsb', hi, decide_true, Bool.true_and]
    grind
  rw [doubleFraction, this, BitVec.toNat_ofNat, Nat.mod_eq_of_lt hf]

theorem msb_pattern (negative : Bool) (e f : Nat) : (doublePattern negative e f).msb = negative := by
  simp only [doublePattern, BitVec.msb_append]
  simp

theorem doubleFinite_iff (x : Double64) : doubleFinite x = true ↔ doubleExponent x < 2047 := by
  simp [doubleFinite]

end Sys2Proof.Machine
end

