-- ==== Sys2Proof/Laws/FrameIo.lean ====
section
/-! SUPPORT. The reader's search for the first bad word, and the writer's words. -/

namespace Sys2Proof.Machine

theorem framingCheck_eq (n : Nat) (last : Bool) :
    framingCheck n last = decide ((n < 255 ∧ last = false) ∨ (n = 255 ∧ last = true)) := by
  cases last <;> simp [framingCheck]

theorem firstBad_some {u : List TransportWord} {m : Nat} (h : m < u.length) (hm : m < 256)
    (hb : framingCheck m u[m].last = false) (hj : ∀ j (hj : j < m), framingCheck j u[j].last = true) :
    firstBad u = some m := by
  unfold firstBad
  rw [List.find?_range_eq_some]
  refine ⟨by simp [badWord, h, hb], by simpa using hm, fun j hlt => ?_⟩
  have : j < u.length := by omega
  simp [badWord, this, hj j hlt]

theorem firstBad_none {u : List TransportWord}
    (hj : ∀ j (h : j < u.length), j < 256 → framingCheck j u[j].last = true) : firstBad u = none := by
  unfold firstBad
  rw [List.find?_eq_none]
  intro j hj'
  simp only [List.mem_range] at hj'
  by_cases h : j < u.length
  · simp [badWord, h, hj j h hj']
  · simp [badWord, List.getElem?_eq_none (Nat.le_of_not_lt h)]

theorem firstBad_exists {u : List TransportWord} {m : Nat} (h : m < u.length) (hm : m < 256)
    (hb : framingCheck m u[m].last = false) : ∃ j, firstBad u = some j := by
  rw [← Option.isSome_iff_exists]
  unfold firstBad
  rw [List.find?_isSome]
  exact ⟨m, by simpa using hm, by simp [badWord, h, hb]⟩

/-- What the search has found: the word is there, it fails the check, and every earlier word passes. -/
theorem of_firstBad_some {u : List TransportWord} {m : Nat} (h : firstBad u = some m) :
    m < 256 ∧ ∃ hm : m < u.length, framingCheck m u[m].last = false ∧
      ∀ j (hj : j < m), framingCheck j u[j].last = true := by
  unfold firstBad at h
  rw [List.find?_range_eq_some] at h
  obtain ⟨h1, h2, h3⟩ := h
  have hm : m < u.length := by
    by_contra hc
    simp [badWord, List.getElem?_eq_none (Nat.le_of_not_lt hc)] at h1
  refine ⟨by simpa using h2, hm, by simpa [badWord, hm] using h1, fun j hj => ?_⟩
  have hlt : j < u.length := by omega
  simpa [badWord, hlt] using h3 j hj

/-- What a search without result says of every word. -/
theorem of_firstBad_none {u : List TransportWord} (h : firstBad u = none) {j : Nat} (hj : j < 256)
    (hl : j < u.length) : framingCheck j u[j].last = true := by
  by_contra hc
  obtain ⟨m, hm⟩ := firstBad_exists hl hj (by simpa using hc)
  rw [h] at hm
  cases hm

@[simp] theorem framedSamples_read {u : List TransportWord} (h : 256 ≤ u.length) (n : BitVec 8) :
    (framedSamples u h).read n = unpack (u[n.toNat]'(Nat.lt_of_lt_of_le n.isLt h)).data := by simp [framedSamples]

/-- READ_FRAME's Ok: 256 words are there, none fails the check, and the samples are theirs. -/
theorem readFrame_ok {drain : Bool} {u : List TransportWord} {x : Frame} {c : Nat} (h : readFrame drain u = .ok x c) :
    c = 256 ∧ firstBad u = none ∧ ∃ enough : 256 ≤ u.length, x = framedSamples u enough := by
  unfold readFrame at h
  split at h
  · split at h
    · split at h <;> cases h
    · cases h
  · next hb =>
    split at h
    · next hl => injection h with h1 h2; exact ⟨h2.symm, hb, hl, h1.symm⟩
    · cases h

/-- READ_FRAME's Error: a word fails the check, and the count is the policy's. -/
theorem readFrame_framingError {drain : Bool} {u : List TransportWord} {c : Nat}
    (h : readFrame drain u = .framingError c) :
    ∃ m, firstBad u = some m ∧ (drain = false → c = m + 1) ∧ (drain = true → c = 256 ∧ 256 ≤ u.length) := by
  unfold readFrame at h
  split at h
  · next m hb =>
    refine ⟨m, hb, ?_⟩
    cases drain
    · injection h with h; exact ⟨fun _ => h.symm, nofun⟩
    · simp only [if_true] at h
      split at h
      · cases h
      · injection h with h; exact ⟨nofun, fun _ => ⟨h.symm, by omega⟩⟩
  · split at h <;> cases h

@[simp] theorem writeFrame_length (x : Frame) : (writeFrame x).length = 256 := by simp [writeFrame]

theorem writeFrame_getElem (x : Frame) {n : Nat} (h : n < 256) :
    (writeFrame x)[n]'(by simpa using h) = outputWord n (x.read (BitVec.ofNat 8 n)) := by simp [writeFrame]

/-- The writer's words, one by one. -/
theorem writeFrame_take_succ (x : Frame) {n : Nat} (h : n < 256) :
    (writeFrame x).take (n + 1) = (writeFrame x).take n ++ [outputWord n (x.read (BitVec.ofNat 8 n))] := by
  rw [List.take_succ_eq_append_getElem (by simpa using h), writeFrame_getElem x h]

end Sys2Proof.Machine
end

