-- ==== Sys2Proof/Laws/Order.lean ====
section
/-! SUPPORT. Moves of the permuter and butterflies of one stage commute, on buffers with any elements, and what commutes may
be done in any order. -/

namespace Sys2Proof.Machine

/-- A fold that may fail does not depend on the order of its list, where any two of its steps commute. -/
theorem foldlM_perm {α β ε : Type} {f : β → α → Except ε β} {l₁ l₂ : List α} (h : l₁.Perm l₂)
    (comm : ∀ x ∈ l₁, ∀ y ∈ l₁, ∀ z, (f z x >>= fun z => f z y) = (f z y >>= fun z => f z x)) (z : β) :
    l₁.foldlM f z = l₂.foldlM f z := by
  have key : ∀ (l : List α) (a : Except ε β),
      l.foldl (fun a x => a >>= fun z => f z x) a = a >>= fun z => l.foldlM f z := by
    intro l
    induction l with
    | nil => intro a; cases a <;> rfl
    | cons x l ih =>
      intro a
      rw [List.foldl_cons, ih]
      cases a <;> rfl
  have e := h.foldl_eq' (f := fun a x => a >>= fun z => f z x) (fun x hx y hy a => by
    cases a with
    | ok z => exact comm x hx y hy z
    | error e => rfl) (.ok z)
  rw [key, key] at e
  exact e

/-- A read in range finds a value or is UndefRead. -/
theorem Bank.read_cases (b : Bank) {i : Nat} (hi : i < 256) : (∃ v, b.read i = .ok v) ∨ b.read i = .error .undefRead := by
  cases e : b.read i with
  | ok v => exact .inl ⟨v, rfl⟩
  | error f =>
    right
    unfold Bank.read at e
    simp only [hi, dite_true] at e
    split at e <;> cases e
    rfl

theorem permuteMove_comm (source : Bank) {i j : Nat} (hi : i < 256) (hj : j < 256) (w : Bank) :
    (permuteMove source i w >>= fun w => permuteMove source j w) =
      (permuteMove source j w >>= fun w => permuteMove source i w) := by
  by_cases hij : i = j
  · rw [hij]
  · have hne : (bitrev8 (BitVec.ofNat 8 i)).toNat ≠ (bitrev8 (BitVec.ofNat 8 j)).toNat := by
      intro h
      exact hij (ofNat8_inj hi hj (bitrev8_inj (BitVec.eq_of_toNat_eq h)))
    rcases source.read_cases hi with ⟨v, hv⟩ | hv <;> rcases source.read_cases hj with ⟨u, hu⟩ | hu
    · simp only [permuteMove_eq _ hv, permuteMove_eq _ hu, bind, Except.bind]
      rw [Vector.set_comm _ _ hne, Vector.set_comm _ _ hne]
    · simp [permuteMove, hv, hu, Bank.write_of_lt _ (bitrev8 (BitVec.ofNat 8 i)).isLt, bind, Except.bind]
    · simp [permuteMove, hv, hu, Bank.write_of_lt _ (bitrev8 (BitVec.ofNat 8 j)).isLt, bind, Except.bind]
    · simp only [permuteMove, hv, hu, bind, Except.bind]

/-- Elements outside a written pair read as before. -/
theorem Bank.read_after_writes {w w₁ w₂ : Bank} {i j m : Nat} {u v : Sample} (h₁ : w.write i u = .ok w₁)
    (h₂ : w₁.write j v = .ok w₂) (hi : i ≠ m) (hj : j ≠ m) : w₂.read m = w.read m := by
  rw [Bank.read_after_write h₂, if_neg hj, Bank.read_after_write h₁, if_neg hi]

theorem butterflyOn_comm (rom : TwTable) {s k l : Nat} (hs : s < 8) (hk : k < 128) (hl : l < 128) (w : Bank) :
    (butterflyOn rom s k w >>= fun w => butterflyOn rom s l w) =
      (butterflyOn rom s l w >>= fun w => butterflyOn rom s k w) := by
  by_cases hkl : k = l
  · rw [hkl]
  · obtain ⟨n1, n2, n3, n4⟩ := butterfly_indices_disjoint hs hk hl hkl
    have tk := top_lt hs hk
    have bk := bot_lt hs hk
    have tl := top_lt hs hl
    have bl := bot_lt hs hl
    have rk := romRead_of_lt rom (twIdx_lt hs hk)
    have rl := romRead_of_lt rom (twIdx_lt hs hl)
    rcases butterflyOn_cases rom hs hk w with ⟨a, b, w₁, w₂, ha, hb, h1, h2, e⟩ | ⟨hu, e⟩
    · have t1 := Bank.read_after_writes h1 h2 n1 n3
      have t2 := Bank.read_after_writes h1 h2 n2 n4
      rcases butterflyOn_cases rom hs hl w with ⟨c, d, v₁, v₂, hc, hd, g1, g2, e'⟩ | ⟨hu', e'⟩
      · have t3 := Bank.read_after_writes g1 g2 n1.symm n2.symm
        have t4 := Bank.read_after_writes g1 g2 n3.symm n4.symm
        simp only [e, e', bind, Except.bind]
        obtain ⟨_, rfl⟩ := Bank.write_eq_ok.1 h1
        obtain ⟨_, rfl⟩ := Bank.write_eq_ok.1 h2
        obtain ⟨_, rfl⟩ := Bank.write_eq_ok.1 g1
        obtain ⟨_, rfl⟩ := Bank.write_eq_ok.1 g2
        simp only [butterflyOn, rk, rl, t1, t2, t3, t4, ha, hb, hc, hd, Bank.write_of_lt _ tk, Bank.write_of_lt _ bk,
          Bank.write_of_lt _ tl, Bank.write_of_lt _ bl]
        refine congrArg Except.ok (Bank.ext' (fun j => ?_) (fun j => ?_)) <;>
        · simp only [Fin.getElem_fin, Vector.getElem_set]
          split_ifs <;> first | rfl | omega
      · simp only [e, e', bind, Except.bind]
        simp only [butterflyOn, rl, t1, t2]
        simp only [butterflyOn, rl] at e'
        rcases hu' with h | h
        · simp only [h]
        · rcases w.read_cases tl with ⟨c, hc⟩ | hc <;> simp only [hc, h]
    · simp only [e, bind, Except.bind]
      rcases butterflyOn_cases rom hs hl w with ⟨c, d, v₁, v₂, hc, hd, g1, g2, e'⟩ | ⟨hu', e'⟩
      · have t3 := Bank.read_after_writes g1 g2 n1.symm n2.symm
        have t4 := Bank.read_after_writes g1 g2 n3.symm n4.symm
        simp only [e']
        simp only [butterflyOn, rk, t3, t4]
        rcases hu with h | h
        · simp only [h]
        · rcases w.read_cases tk with ⟨c, hc⟩ | hc <;> simp only [hc, h]
      · simp only [e']

theorem butterflies_perm (rom : TwTable) {s : Nat} (hs : s < 8) {ks ls : List Nat} (h : ks.Perm ls)
    (hk : ∀ k ∈ ks, k < 128) (w : Frame) : butterflies rom s ks w = butterflies rom s ls w :=
  h.foldl_eq' (fun x hx y hy z => butterfly_comm rom hs (hk x hx) (hk y hy) z) w

end Sys2Proof.Machine
end

