-- ==== Sys2Proof/Laws/PerInstr.lean ====
section
/-! SUPPORT. Per-instruction statements: the family OpidByte. -/

namespace Sys2Proof.Laws.OpidByte

/-- The code of the operation begins with its OPID, in bits 4:0 with zeros above them, and OPIDs 0x18 to 0x1F name none
(30_encoding.md R78). -/
def Statement (i : Instr) : Prop := (encode i).head? = some i.opid ∧ i.opid.toNat < 24

theorem qAdd (a b : Q16) : Statement (.qAdd a b) := ⟨rfl, by simp [Instr.opid]⟩
theorem qSub (a b : Q16) : Statement (.qSub a b) := ⟨rfl, by simp [Instr.opid]⟩
theorem qMul (a b : Q16) : Statement (.qMul a b) := ⟨rfl, by simp [Instr.opid]⟩
theorem qFromDouble (x : Double64) : Statement (.qFromDouble x) := ⟨rfl, by simp [Instr.opid]⟩
theorem qToDouble (q : Q16) : Statement (.qToDouble q) := ⟨rfl, by simp [Instr.opid]⟩
theorem bitrev8 (i : BitVec 8) : Statement (.bitrev8 i) := ⟨rfl, by simp [Instr.opid]⟩
theorem permuteStep : Statement .permuteStep := ⟨rfl, by simp [Instr.opid]⟩
theorem permute (x : FrameOperand) : Statement (.permute x) := ⟨rfl, by simp [Instr.opid]⟩
theorem twRead (t : BitVec 7) : Statement (.twRead t) := ⟨rfl, by simp [Instr.opid]⟩
theorem cmulTw (br bi twR twI : Q16) : Statement (.cmulTw br bi twR twI) := ⟨rfl, by simp [Instr.opid]⟩
theorem butterfly : Statement .butterfly := ⟨rfl, by simp [Instr.opid]⟩
theorem stage (s : BitVec 4) (w : FrameOperand) : Statement (.stage s w) := ⟨rfl, by simp [Instr.opid]⟩
theorem bflyCore (w : FrameOperand) : Statement (.bflyCore w) := ⟨rfl, by simp [Instr.opid]⟩
theorem unpack (d : BitVec 64) : Statement (.unpack d) := ⟨rfl, by simp [Instr.opid]⟩
theorem pack (re im : Q16) : Statement (.pack re im) := ⟨rfl, by simp [Instr.opid]⟩
theorem readWord : Statement .readWord := ⟨rfl, by simp [Instr.opid]⟩
theorem framingCheck (n : BitVec 8) (last : Bool) : Statement (.framingCheck n last) := ⟨rfl, by simp [Instr.opid]⟩
theorem readFrame (u : WordsOperand) : Statement (.readFrame u) := ⟨rfl, by simp [Instr.opid]⟩
theorem writeWord : Statement .writeWord := ⟨rfl, by simp [Instr.opid]⟩
theorem writeFrame (w : FrameOperand) : Statement (.writeFrame w) := ⟨rfl, by simp [Instr.opid]⟩
theorem start : Statement .start := ⟨rfl, by simp [Instr.opid]⟩
theorem transform (u : WordsOperand) : Statement (.transform u) := ⟨rfl, by simp [Instr.opid]⟩
theorem transportFault : Statement .transportFault := ⟨rfl, by simp [Instr.opid]⟩
theorem reset : Statement .reset := ⟨rfl, by simp [Instr.opid]⟩

end Sys2Proof.Laws.OpidByte
end

