-- ==== Sys2Proof/Laws/State.lean ====
section
/-! SUPPORT. One lemma per field per update of the state (Machine/Ops.lean), so that no proof unfolds a record update. -/

namespace Sys2Proof.Machine.State

variable (st : State)

/-! ### setInChan -/

@[simp] theorem setInChan_phase (ws : List TransportWord) : (st.setInChan ws).phase = st.phase := rfl
@[simp] theorem setInChan_n (ws : List TransportWord) : (st.setInChan ws).n = st.n := rfl
@[simp] theorem setInChan_i (ws : List TransportWord) : (st.setInChan ws).i = st.i := rfl
@[simp] theorem setInChan_s (ws : List TransportWord) : (st.setInChan ws).s = st.s := rfl
@[simp] theorem setInChan_k (ws : List TransportWord) : (st.setInChan ws).k = st.k := rfl
@[simp] theorem setInChan_ferr (ws : List TransportWord) : (st.setInChan ws).ferr = st.ferr := rfl
@[simp] theorem setInChan_inBuf (ws : List TransportWord) : (st.setInChan ws).inBuf = st.inBuf := rfl
@[simp] theorem setInChan_wBuf (ws : List TransportWord) : (st.setInChan ws).wBuf = st.wBuf := rfl
@[simp] theorem setInChan_doneFlag (ws : List TransportWord) : (st.setInChan ws).doneFlag = st.doneFlag := rfl
@[simp] theorem setInChan_status (ws : List TransportWord) : (st.setInChan ws).status = st.status := rfl
@[simp] theorem setInChan_inChan (ws : List TransportWord) : (st.setInChan ws).inChan = ws := rfl
@[simp] theorem setInChan_outChan (ws : List TransportWord) : (st.setInChan ws).outChan = st.outChan := rfl
@[simp] theorem setInChan_protocolFault (ws : List TransportWord) : (st.setInChan ws).protocolFault = st.protocolFault := rfl
@[simp] theorem setInChan_params (ws : List TransportWord) : (st.setInChan ws).params = st.params := rfl
@[simp] theorem setInChan_agenda (ws : List TransportWord) : (st.setInChan ws).agenda = st.agenda := rfl
@[simp] theorem setInChan_received (ws : List TransportWord) : (st.setInChan ws).received = st.received := rfl
@[simp] theorem setInChan_result (ws : List TransportWord) : (st.setInChan ws).result = st.result := rfl
@[simp] theorem setInChan_draws (ws : List TransportWord) : (st.setInChan ws).draws = st.draws := rfl

/-! ### setOutChan -/

@[simp] theorem setOutChan_phase (ws : List TransportWord) : (st.setOutChan ws).phase = st.phase := rfl
@[simp] theorem setOutChan_n (ws : List TransportWord) : (st.setOutChan ws).n = st.n := rfl
@[simp] theorem setOutChan_i (ws : List TransportWord) : (st.setOutChan ws).i = st.i := rfl
@[simp] theorem setOutChan_s (ws : List TransportWord) : (st.setOutChan ws).s = st.s := rfl
@[simp] theorem setOutChan_k (ws : List TransportWord) : (st.setOutChan ws).k = st.k := rfl
@[simp] theorem setOutChan_ferr (ws : List TransportWord) : (st.setOutChan ws).ferr = st.ferr := rfl
@[simp] theorem setOutChan_inBuf (ws : List TransportWord) : (st.setOutChan ws).inBuf = st.inBuf := rfl
@[simp] theorem setOutChan_wBuf (ws : List TransportWord) : (st.setOutChan ws).wBuf = st.wBuf := rfl
@[simp] theorem setOutChan_doneFlag (ws : List TransportWord) : (st.setOutChan ws).doneFlag = st.doneFlag := rfl
@[simp] theorem setOutChan_status (ws : List TransportWord) : (st.setOutChan ws).status = st.status := rfl
@[simp] theorem setOutChan_inChan (ws : List TransportWord) : (st.setOutChan ws).inChan = st.inChan := rfl
@[simp] theorem setOutChan_outChan (ws : List TransportWord) : (st.setOutChan ws).outChan = ws := rfl
@[simp] theorem setOutChan_protocolFault (ws : List TransportWord) : (st.setOutChan ws).protocolFault = st.protocolFault := rfl
@[simp] theorem setOutChan_params (ws : List TransportWord) : (st.setOutChan ws).params = st.params := rfl
@[simp] theorem setOutChan_agenda (ws : List TransportWord) : (st.setOutChan ws).agenda = st.agenda := rfl
@[simp] theorem setOutChan_received (ws : List TransportWord) : (st.setOutChan ws).received = st.received := rfl
@[simp] theorem setOutChan_result (ws : List TransportWord) : (st.setOutChan ws).result = st.result := rfl
@[simp] theorem setOutChan_draws (ws : List TransportWord) : (st.setOutChan ws).draws = st.draws := rfl

/-! ### setInBuf -/

@[simp] theorem setInBuf_phase (b : Bank) : (st.setInBuf b).phase = st.phase := rfl
@[simp] theorem setInBuf_n (b : Bank) : (st.setInBuf b).n = st.n := rfl
@[simp] theorem setInBuf_i (b : Bank) : (st.setInBuf b).i = st.i := rfl
@[simp] theorem setInBuf_s (b : Bank) : (st.setInBuf b).s = st.s := rfl
@[simp] theorem setInBuf_k (b : Bank) : (st.setInBuf b).k = st.k := rfl
@[simp] theorem setInBuf_ferr (b : Bank) : (st.setInBuf b).ferr = st.ferr := rfl
@[simp] theorem setInBuf_inBuf (b : Bank) : (st.setInBuf b).inBuf = b := rfl
@[simp] theorem setInBuf_wBuf (b : Bank) : (st.setInBuf b).wBuf = st.wBuf := rfl
@[simp] theorem setInBuf_doneFlag (b : Bank) : (st.setInBuf b).doneFlag = st.doneFlag := rfl
@[simp] theorem setInBuf_status (b : Bank) : (st.setInBuf b).status = st.status := rfl
@[simp] theorem setInBuf_inChan (b : Bank) : (st.setInBuf b).inChan = st.inChan := rfl
@[simp] theorem setInBuf_outChan (b : Bank) : (st.setInBuf b).outChan = st.outChan := rfl
@[simp] theorem setInBuf_protocolFault (b : Bank) : (st.setInBuf b).protocolFault = st.protocolFault := rfl
@[simp] theorem setInBuf_params (b : Bank) : (st.setInBuf b).params = st.params := rfl
@[simp] theorem setInBuf_agenda (b : Bank) : (st.setInBuf b).agenda = st.agenda := rfl
@[simp] theorem setInBuf_received (b : Bank) : (st.setInBuf b).received = st.received := rfl
@[simp] theorem setInBuf_result (b : Bank) : (st.setInBuf b).result = st.result := rfl
@[simp] theorem setInBuf_draws (b : Bank) : (st.setInBuf b).draws = st.draws := rfl

/-! ### setWBuf -/

@[simp] theorem setWBuf_phase (b : Bank) : (st.setWBuf b).phase = st.phase := rfl
@[simp] theorem setWBuf_n (b : Bank) : (st.setWBuf b).n = st.n := rfl
@[simp] theorem setWBuf_i (b : Bank) : (st.setWBuf b).i = st.i := rfl
@[simp] theorem setWBuf_s (b : Bank) : (st.setWBuf b).s = st.s := rfl
@[simp] theorem setWBuf_k (b : Bank) : (st.setWBuf b).k = st.k := rfl
@[simp] theorem setWBuf_ferr (b : Bank) : (st.setWBuf b).ferr = st.ferr := rfl
@[simp] theorem setWBuf_inBuf (b : Bank) : (st.setWBuf b).inBuf = st.inBuf := rfl
@[simp] theorem setWBuf_wBuf (b : Bank) : (st.setWBuf b).wBuf = b := rfl
@[simp] theorem setWBuf_doneFlag (b : Bank) : (st.setWBuf b).doneFlag = st.doneFlag := rfl
@[simp] theorem setWBuf_status (b : Bank) : (st.setWBuf b).status = st.status := rfl
@[simp] theorem setWBuf_inChan (b : Bank) : (st.setWBuf b).inChan = st.inChan := rfl
@[simp] theorem setWBuf_outChan (b : Bank) : (st.setWBuf b).outChan = st.outChan := rfl
@[simp] theorem setWBuf_protocolFault (b : Bank) : (st.setWBuf b).protocolFault = st.protocolFault := rfl
@[simp] theorem setWBuf_params (b : Bank) : (st.setWBuf b).params = st.params := rfl
@[simp] theorem setWBuf_agenda (b : Bank) : (st.setWBuf b).agenda = st.agenda := rfl
@[simp] theorem setWBuf_received (b : Bank) : (st.setWBuf b).received = st.received := rfl
@[simp] theorem setWBuf_result (b : Bank) : (st.setWBuf b).result = st.result := rfl
@[simp] theorem setWBuf_draws (b : Bank) : (st.setWBuf b).draws = st.draws := rfl

/-! ### setFerr -/

@[simp] theorem setFerr_phase (b : Bool) : (st.setFerr b).phase = st.phase := rfl
@[simp] theorem setFerr_n (b : Bool) : (st.setFerr b).n = st.n := rfl
@[simp] theorem setFerr_i (b : Bool) : (st.setFerr b).i = st.i := rfl
@[simp] theorem setFerr_s (b : Bool) : (st.setFerr b).s = st.s := rfl
@[simp] theorem setFerr_k (b : Bool) : (st.setFerr b).k = st.k := rfl
@[simp] theorem setFerr_ferr (b : Bool) : (st.setFerr b).ferr = b := rfl
@[simp] theorem setFerr_inBuf (b : Bool) : (st.setFerr b).inBuf = st.inBuf := rfl
@[simp] theorem setFerr_wBuf (b : Bool) : (st.setFerr b).wBuf = st.wBuf := rfl
@[simp] theorem setFerr_doneFlag (b : Bool) : (st.setFerr b).doneFlag = st.doneFlag := rfl
@[simp] theorem setFerr_status (b : Bool) : (st.setFerr b).status = st.status := rfl
@[simp] theorem setFerr_inChan (b : Bool) : (st.setFerr b).inChan = st.inChan := rfl
@[simp] theorem setFerr_outChan (b : Bool) : (st.setFerr b).outChan = st.outChan := rfl
@[simp] theorem setFerr_protocolFault (b : Bool) : (st.setFerr b).protocolFault = st.protocolFault := rfl
@[simp] theorem setFerr_params (b : Bool) : (st.setFerr b).params = st.params := rfl
@[simp] theorem setFerr_agenda (b : Bool) : (st.setFerr b).agenda = st.agenda := rfl
@[simp] theorem setFerr_received (b : Bool) : (st.setFerr b).received = st.received := rfl
@[simp] theorem setFerr_result (b : Bool) : (st.setFerr b).result = st.result := rfl
@[simp] theorem setFerr_draws (b : Bool) : (st.setFerr b).draws = st.draws := rfl

/-! ### setOutcome -/

@[simp] theorem setOutcome_phase (done : Bool) (code : Status) : (st.setOutcome done code).phase = st.phase := rfl
@[simp] theorem setOutcome_n (done : Bool) (code : Status) : (st.setOutcome done code).n = st.n := rfl
@[simp] theorem setOutcome_i (done : Bool) (code : Status) : (st.setOutcome done code).i = st.i := rfl
@[simp] theorem setOutcome_s (done : Bool) (code : Status) : (st.setOutcome done code).s = st.s := rfl
@[simp] theorem setOutcome_k (done : Bool) (code : Status) : (st.setOutcome done code).k = st.k := rfl
@[simp] theorem setOutcome_ferr (done : Bool) (code : Status) : (st.setOutcome done code).ferr = st.ferr := rfl
@[simp] theorem setOutcome_inBuf (done : Bool) (code : Status) : (st.setOutcome done code).inBuf = st.inBuf := rfl
@[simp] theorem setOutcome_wBuf (done : Bool) (code : Status) : (st.setOutcome done code).wBuf = st.wBuf := rfl
@[simp] theorem setOutcome_doneFlag (done : Bool) (code : Status) : (st.setOutcome done code).doneFlag = done := rfl
@[simp] theorem setOutcome_status (done : Bool) (code : Status) : (st.setOutcome done code).status = code := rfl
@[simp] theorem setOutcome_inChan (done : Bool) (code : Status) : (st.setOutcome done code).inChan = st.inChan := rfl
@[simp] theorem setOutcome_outChan (done : Bool) (code : Status) : (st.setOutcome done code).outChan = st.outChan := rfl
@[simp] theorem setOutcome_protocolFault (done : Bool) (code : Status) : (st.setOutcome done code).protocolFault = st.protocolFault := rfl
@[simp] theorem setOutcome_params (done : Bool) (code : Status) : (st.setOutcome done code).params = st.params := rfl
@[simp] theorem setOutcome_agenda (done : Bool) (code : Status) : (st.setOutcome done code).agenda = st.agenda := rfl
@[simp] theorem setOutcome_received (done : Bool) (code : Status) : (st.setOutcome done code).received = st.received := rfl
@[simp] theorem setOutcome_result (done : Bool) (code : Status) : (st.setOutcome done code).result = st.result := rfl
@[simp] theorem setOutcome_draws (done : Bool) (code : Status) : (st.setOutcome done code).draws = st.draws := rfl

/-! ### markProtocolFault -/

@[simp] theorem markProtocolFault_phase : (st.markProtocolFault).phase = st.phase := rfl
@[simp] theorem markProtocolFault_n : (st.markProtocolFault).n = st.n := rfl
@[simp] theorem markProtocolFault_i : (st.markProtocolFault).i = st.i := rfl
@[simp] theorem markProtocolFault_s : (st.markProtocolFault).s = st.s := rfl
@[simp] theorem markProtocolFault_k : (st.markProtocolFault).k = st.k := rfl
@[simp] theorem markProtocolFault_ferr : (st.markProtocolFault).ferr = st.ferr := rfl
@[simp] theorem markProtocolFault_inBuf : (st.markProtocolFault).inBuf = st.inBuf := rfl
@[simp] theorem markProtocolFault_wBuf : (st.markProtocolFault).wBuf = st.wBuf := rfl
@[simp] theorem markProtocolFault_doneFlag : (st.markProtocolFault).doneFlag = st.doneFlag := rfl
@[simp] theorem markProtocolFault_status : (st.markProtocolFault).status = st.status := rfl
@[simp] theorem markProtocolFault_inChan : (st.markProtocolFault).inChan = st.inChan := rfl
@[simp] theorem markProtocolFault_outChan : (st.markProtocolFault).outChan = st.outChan := rfl
@[simp] theorem markProtocolFault_protocolFault : (st.markProtocolFault).protocolFault = true := rfl
@[simp] theorem markProtocolFault_params : (st.markProtocolFault).params = st.params := rfl
@[simp] theorem markProtocolFault_agenda : (st.markProtocolFault).agenda = st.agenda := rfl
@[simp] theorem markProtocolFault_received : (st.markProtocolFault).received = st.received := rfl
@[simp] theorem markProtocolFault_result : (st.markProtocolFault).result = st.result := rfl
@[simp] theorem markProtocolFault_draws : (st.markProtocolFault).draws = st.draws := rfl

/-! ### setResult -/

@[simp] theorem setResult_phase (r : Result) : (st.setResult r).phase = st.phase := rfl
@[simp] theorem setResult_n (r : Result) : (st.setResult r).n = st.n := rfl
@[simp] theorem setResult_i (r : Result) : (st.setResult r).i = st.i := rfl
@[simp] theorem setResult_s (r : Result) : (st.setResult r).s = st.s := rfl
@[simp] theorem setResult_k (r : Result) : (st.setResult r).k = st.k := rfl
@[simp] theorem setResult_ferr (r : Result) : (st.setResult r).ferr = st.ferr := rfl
@[simp] theorem setResult_inBuf (r : Result) : (st.setResult r).inBuf = st.inBuf := rfl
@[simp] theorem setResult_wBuf (r : Result) : (st.setResult r).wBuf = st.wBuf := rfl
@[simp] theorem setResult_doneFlag (r : Result) : (st.setResult r).doneFlag = st.doneFlag := rfl
@[simp] theorem setResult_status (r : Result) : (st.setResult r).status = st.status := rfl
@[simp] theorem setResult_inChan (r : Result) : (st.setResult r).inChan = st.inChan := rfl
@[simp] theorem setResult_outChan (r : Result) : (st.setResult r).outChan = st.outChan := rfl
@[simp] theorem setResult_protocolFault (r : Result) : (st.setResult r).protocolFault = st.protocolFault := rfl
@[simp] theorem setResult_params (r : Result) : (st.setResult r).params = st.params := rfl
@[simp] theorem setResult_agenda (r : Result) : (st.setResult r).agenda = st.agenda := rfl
@[simp] theorem setResult_received (r : Result) : (st.setResult r).received = st.received := rfl
@[simp] theorem setResult_result (r : Result) : (st.setResult r).result = r := rfl
@[simp] theorem setResult_draws (r : Result) : (st.setResult r).draws = st.draws := rfl

/-! ### setAgenda -/

@[simp] theorem setAgenda_phase (turns : List Turn) : (st.setAgenda turns).phase = st.phase := rfl
@[simp] theorem setAgenda_n (turns : List Turn) : (st.setAgenda turns).n = st.n := rfl
@[simp] theorem setAgenda_i (turns : List Turn) : (st.setAgenda turns).i = st.i := rfl
@[simp] theorem setAgenda_s (turns : List Turn) : (st.setAgenda turns).s = st.s := rfl
@[simp] theorem setAgenda_k (turns : List Turn) : (st.setAgenda turns).k = st.k := rfl
@[simp] theorem setAgenda_ferr (turns : List Turn) : (st.setAgenda turns).ferr = st.ferr := rfl
@[simp] theorem setAgenda_inBuf (turns : List Turn) : (st.setAgenda turns).inBuf = st.inBuf := rfl
@[simp] theorem setAgenda_wBuf (turns : List Turn) : (st.setAgenda turns).wBuf = st.wBuf := rfl
@[simp] theorem setAgenda_doneFlag (turns : List Turn) : (st.setAgenda turns).doneFlag = st.doneFlag := rfl
@[simp] theorem setAgenda_status (turns : List Turn) : (st.setAgenda turns).status = st.status := rfl
@[simp] theorem setAgenda_inChan (turns : List Turn) : (st.setAgenda turns).inChan = st.inChan := rfl
@[simp] theorem setAgenda_outChan (turns : List Turn) : (st.setAgenda turns).outChan = st.outChan := rfl
@[simp] theorem setAgenda_protocolFault (turns : List Turn) : (st.setAgenda turns).protocolFault = st.protocolFault := rfl
@[simp] theorem setAgenda_params (turns : List Turn) : (st.setAgenda turns).params = st.params := rfl
@[simp] theorem setAgenda_agenda (turns : List Turn) : (st.setAgenda turns).agenda = turns := rfl
@[simp] theorem setAgenda_received (turns : List Turn) : (st.setAgenda turns).received = st.received := rfl
@[simp] theorem setAgenda_result (turns : List Turn) : (st.setAgenda turns).result = st.result := rfl
@[simp] theorem setAgenda_draws (turns : List Turn) : (st.setAgenda turns).draws = st.draws := rfl

/-! ### take -/

@[simp] theorem take_phase (w : TransportWord) : (st.take w).phase = st.phase := rfl
@[simp] theorem take_n (w : TransportWord) : (st.take w).n = st.n := rfl
@[simp] theorem take_i (w : TransportWord) : (st.take w).i = st.i := rfl
@[simp] theorem take_s (w : TransportWord) : (st.take w).s = st.s := rfl
@[simp] theorem take_k (w : TransportWord) : (st.take w).k = st.k := rfl
@[simp] theorem take_ferr (w : TransportWord) : (st.take w).ferr = st.ferr := rfl
@[simp] theorem take_inBuf (w : TransportWord) : (st.take w).inBuf = st.inBuf := rfl
@[simp] theorem take_wBuf (w : TransportWord) : (st.take w).wBuf = st.wBuf := rfl
@[simp] theorem take_doneFlag (w : TransportWord) : (st.take w).doneFlag = st.doneFlag := rfl
@[simp] theorem take_status (w : TransportWord) : (st.take w).status = st.status := rfl
@[simp] theorem take_inChan (w : TransportWord) : (st.take w).inChan = st.inChan := rfl
@[simp] theorem take_outChan (w : TransportWord) : (st.take w).outChan = st.outChan := rfl
@[simp] theorem take_protocolFault (w : TransportWord) : (st.take w).protocolFault = st.protocolFault := rfl
@[simp] theorem take_params (w : TransportWord) : (st.take w).params = st.params := rfl
@[simp] theorem take_agenda (w : TransportWord) : (st.take w).agenda = st.agenda := rfl
@[simp] theorem take_received (w : TransportWord) : (st.take w).received = st.received ++ [w] := rfl
@[simp] theorem take_result (w : TransportWord) : (st.take w).result = st.result := rfl
@[simp] theorem take_draws (w : TransportWord) : (st.take w).draws = st.draws := rfl

/-! ### setSeq -/

@[simp] theorem setSeq_phase (p : Position) : (st.setSeq p).phase = p.phase := rfl
@[simp] theorem setSeq_n (p : Position) : (st.setSeq p).n = p.counterN (Config.freeN st.draws) := rfl
@[simp] theorem setSeq_i (p : Position) : (st.setSeq p).i = p.counterI (Config.freeI st.draws) := rfl
@[simp] theorem setSeq_s (p : Position) : (st.setSeq p).s = p.counterS (Config.freeS st.draws) := rfl
@[simp] theorem setSeq_k (p : Position) : (st.setSeq p).k = p.counterK (Config.freeK st.draws) := rfl
@[simp] theorem setSeq_ferr (p : Position) : (st.setSeq p).ferr = p.counterFerr st.ferr (Config.freeFerr st.draws) := rfl
@[simp] theorem setSeq_inBuf (p : Position) : (st.setSeq p).inBuf = st.inBuf := rfl
@[simp] theorem setSeq_wBuf (p : Position) : (st.setSeq p).wBuf = st.wBuf := rfl
@[simp] theorem setSeq_doneFlag (p : Position) : (st.setSeq p).doneFlag = st.doneFlag := rfl
@[simp] theorem setSeq_status (p : Position) : (st.setSeq p).status = st.status := rfl
@[simp] theorem setSeq_inChan (p : Position) : (st.setSeq p).inChan = st.inChan := rfl
@[simp] theorem setSeq_outChan (p : Position) : (st.setSeq p).outChan = st.outChan := rfl
@[simp] theorem setSeq_protocolFault (p : Position) : (st.setSeq p).protocolFault = st.protocolFault := rfl
@[simp] theorem setSeq_params (p : Position) : (st.setSeq p).params = st.params := rfl
@[simp] theorem setSeq_agenda (p : Position) : (st.setSeq p).agenda = st.agenda := rfl
@[simp] theorem setSeq_received (p : Position) : (st.setSeq p).received = st.received := rfl
@[simp] theorem setSeq_result (p : Position) : (st.setSeq p).result = st.result := rfl
@[simp] theorem setSeq_draws (p : Position) : (st.setSeq p).draws = st.draws + 1 := rfl

/-! ### pushOut -/

@[simp] theorem pushOut_phase (w : TransportWord) : (st.pushOut w).phase = st.phase := rfl
@[simp] theorem pushOut_n (w : TransportWord) : (st.pushOut w).n = st.n := rfl
@[simp] theorem pushOut_i (w : TransportWord) : (st.pushOut w).i = st.i := rfl
@[simp] theorem pushOut_s (w : TransportWord) : (st.pushOut w).s = st.s := rfl
@[simp] theorem pushOut_k (w : TransportWord) : (st.pushOut w).k = st.k := rfl
@[simp] theorem pushOut_ferr (w : TransportWord) : (st.pushOut w).ferr = st.ferr := rfl
@[simp] theorem pushOut_inBuf (w : TransportWord) : (st.pushOut w).inBuf = st.inBuf := rfl
@[simp] theorem pushOut_wBuf (w : TransportWord) : (st.pushOut w).wBuf = st.wBuf := rfl
@[simp] theorem pushOut_doneFlag (w : TransportWord) : (st.pushOut w).doneFlag = st.doneFlag := rfl
@[simp] theorem pushOut_status (w : TransportWord) : (st.pushOut w).status = st.status := rfl
@[simp] theorem pushOut_inChan (w : TransportWord) : (st.pushOut w).inChan = st.inChan := rfl
@[simp] theorem pushOut_outChan (w : TransportWord) : (st.pushOut w).outChan = st.outChan ++ [w] := rfl
@[simp] theorem pushOut_protocolFault (w : TransportWord) : (st.pushOut w).protocolFault = st.protocolFault := rfl
@[simp] theorem pushOut_params (w : TransportWord) : (st.pushOut w).params = st.params := rfl
@[simp] theorem pushOut_agenda (w : TransportWord) : (st.pushOut w).agenda = st.agenda := rfl
@[simp] theorem pushOut_received (w : TransportWord) : (st.pushOut w).received = st.received := rfl
@[simp] theorem pushOut_result (w : TransportWord) : (st.pushOut w).result = st.result := rfl
@[simp] theorem pushOut_draws (w : TransportWord) : (st.pushOut w).draws = st.draws := rfl

/-! ### pushIn -/

@[simp] theorem pushIn_phase (w : TransportWord) : (st.pushIn w).phase = st.phase := rfl
@[simp] theorem pushIn_n (w : TransportWord) : (st.pushIn w).n = st.n := rfl
@[simp] theorem pushIn_i (w : TransportWord) : (st.pushIn w).i = st.i := rfl
@[simp] theorem pushIn_s (w : TransportWord) : (st.pushIn w).s = st.s := rfl
@[simp] theorem pushIn_k (w : TransportWord) : (st.pushIn w).k = st.k := rfl
@[simp] theorem pushIn_ferr (w : TransportWord) : (st.pushIn w).ferr = st.ferr := rfl
@[simp] theorem pushIn_inBuf (w : TransportWord) : (st.pushIn w).inBuf = st.inBuf := rfl
@[simp] theorem pushIn_wBuf (w : TransportWord) : (st.pushIn w).wBuf = st.wBuf := rfl
@[simp] theorem pushIn_doneFlag (w : TransportWord) : (st.pushIn w).doneFlag = st.doneFlag := rfl
@[simp] theorem pushIn_status (w : TransportWord) : (st.pushIn w).status = st.status := rfl
@[simp] theorem pushIn_inChan (w : TransportWord) : (st.pushIn w).inChan = st.inChan ++ [w] := rfl
@[simp] theorem pushIn_outChan (w : TransportWord) : (st.pushIn w).outChan = st.outChan := rfl
@[simp] theorem pushIn_protocolFault (w : TransportWord) : (st.pushIn w).protocolFault = st.protocolFault := rfl
@[simp] theorem pushIn_params (w : TransportWord) : (st.pushIn w).params = st.params := rfl
@[simp] theorem pushIn_agenda (w : TransportWord) : (st.pushIn w).agenda = st.agenda := rfl
@[simp] theorem pushIn_received (w : TransportWord) : (st.pushIn w).received = st.received := rfl
@[simp] theorem pushIn_result (w : TransportWord) : (st.pushIn w).result = st.result := rfl
@[simp] theorem pushIn_draws (w : TransportWord) : (st.pushIn w).draws = st.draws := rfl

/-! ### discardBuffers -/

@[simp] theorem discardBuffers_phase : (st.discardBuffers).phase = st.phase := rfl
@[simp] theorem discardBuffers_n : (st.discardBuffers).n = st.n := rfl
@[simp] theorem discardBuffers_i : (st.discardBuffers).i = st.i := rfl
@[simp] theorem discardBuffers_s : (st.discardBuffers).s = st.s := rfl
@[simp] theorem discardBuffers_k : (st.discardBuffers).k = st.k := rfl
@[simp] theorem discardBuffers_ferr : (st.discardBuffers).ferr = st.ferr := rfl
@[simp] theorem discardBuffers_inBuf : (st.discardBuffers).inBuf = Bank.undef := rfl
@[simp] theorem discardBuffers_wBuf : (st.discardBuffers).wBuf = Bank.undef := rfl
@[simp] theorem discardBuffers_doneFlag : (st.discardBuffers).doneFlag = st.doneFlag := rfl
@[simp] theorem discardBuffers_status : (st.discardBuffers).status = st.status := rfl
@[simp] theorem discardBuffers_inChan : (st.discardBuffers).inChan = st.inChan := rfl
@[simp] theorem discardBuffers_outChan : (st.discardBuffers).outChan = st.outChan := rfl
@[simp] theorem discardBuffers_protocolFault : (st.discardBuffers).protocolFault = st.protocolFault := rfl
@[simp] theorem discardBuffers_params : (st.discardBuffers).params = st.params := rfl
@[simp] theorem discardBuffers_agenda : (st.discardBuffers).agenda = st.agenda := rfl
@[simp] theorem discardBuffers_received : (st.discardBuffers).received = st.received := rfl
@[simp] theorem discardBuffers_result : (st.discardBuffers).result = st.result := rfl
@[simp] theorem discardBuffers_draws : (st.discardBuffers).draws = st.draws := rfl

end Sys2Proof.Machine.State

/-! ### Positions: the phase and the counters of each -/

namespace Sys2Proof.Machine.Position

@[simp] theorem idle_phase : Position.idle.phase = .idle := rfl
@[simp] theorem read_phase (n : BitVec 9) : (Position.read n).phase = .read := rfl
@[simp] theorem permute_phase (i : BitVec 9) : (Position.permute i).phase = .permute := rfl
@[simp] theorem bfly_phase (s : BitVec 4) (k : BitVec 8) : (Position.bfly s k).phase = .bfly := rfl
@[simp] theorem write_phase (n : BitVec 9) : (Position.write n).phase = .write := rfl

@[simp] theorem idle_counterN (other : BitVec 9) : Position.idle.counterN other = other := rfl
@[simp] theorem read_counterN (other : BitVec 9) (n : BitVec 9) : (Position.read n).counterN other = n := rfl
@[simp] theorem permute_counterN (other : BitVec 9) (i : BitVec 9) : (Position.permute i).counterN other = other := rfl
@[simp] theorem bfly_counterN (other : BitVec 9) (s : BitVec 4) (k : BitVec 8) : (Position.bfly s k).counterN other = other := rfl
@[simp] theorem write_counterN (other : BitVec 9) (n : BitVec 9) : (Position.write n).counterN other = n := rfl

@[simp] theorem idle_counterI (other : BitVec 9) : Position.idle.counterI other = other := rfl
@[simp] theorem read_counterI (other : BitVec 9) (n : BitVec 9) : (Position.read n).counterI other = other := rfl
@[simp] theorem permute_counterI (other : BitVec 9) (i : BitVec 9) : (Position.permute i).counterI other = i := rfl
@[simp] theorem bfly_counterI (other : BitVec 9) (s : BitVec 4) (k : BitVec 8) : (Position.bfly s k).counterI other = other := rfl
@[simp] theorem write_counterI (other : BitVec 9) (n : BitVec 9) : (Position.write n).counterI other = other := rfl

@[simp] theorem idle_counterS (other : BitVec 4) : Position.idle.counterS other = other := rfl
@[simp] theorem read_counterS (other : BitVec 4) (n : BitVec 9) : (Position.read n).counterS other = other := rfl
@[simp] theorem permute_counterS (other : BitVec 4) (i : BitVec 9) : (Position.permute i).counterS other = other := rfl
@[simp] theorem bfly_counterS (other : BitVec 4) (s : BitVec 4) (k : BitVec 8) : (Position.bfly s k).counterS other = s := rfl
@[simp] theorem write_counterS (other : BitVec 4) (n : BitVec 9) : (Position.write n).counterS other = other := rfl

@[simp] theorem idle_counterK (other : BitVec 8) : Position.idle.counterK other = other := rfl
@[simp] theorem read_counterK (other : BitVec 8) (n : BitVec 9) : (Position.read n).counterK other = other := rfl
@[simp] theorem permute_counterK (other : BitVec 8) (i : BitVec 9) : (Position.permute i).counterK other = other := rfl
@[simp] theorem bfly_counterK (other : BitVec 8) (s : BitVec 4) (k : BitVec 8) : (Position.bfly s k).counterK other = k := rfl
@[simp] theorem write_counterK (other : BitVec 8) (n : BitVec 9) : (Position.write n).counterK other = other := rfl

@[simp] theorem idle_counterFerr (kept other : Bool) : Position.idle.counterFerr kept other = other := rfl
@[simp] theorem read_counterFerr (kept other : Bool) (n : BitVec 9) : (Position.read n).counterFerr kept other = kept := rfl
@[simp] theorem permute_counterFerr (kept other : Bool) (i : BitVec 9) : (Position.permute i).counterFerr kept other = other := rfl
@[simp] theorem bfly_counterFerr (kept other : Bool) (s : BitVec 4) (k : BitVec 8) : (Position.bfly s k).counterFerr kept other = other := rfl
@[simp] theorem write_counterFerr (kept other : Bool) (n : BitVec 9) : (Position.write n).counterFerr kept other = other := rfl

end Sys2Proof.Machine.Position
end

