-- ==== Sys2Proof/Laws/Steps.lean ====
section
/-! SUPPORT. What each operation can do, said once: the ends of a transform, the equation of each step where it is enabled,
and the inversion of each step (if it answers a next state, then which). -/

namespace Sys2Proof.Machine

variable {st t : State}

/-! ### The ends of a transform -/

theorem errorEntry_endedWith (st : State) (code : Status) : (st.errorEntry code).endedWith true code :=
  ⟨rfl, rfl, rfl, rfl, rfl⟩
theorem complete_endedWith (st : State) : st.complete.endedWith true .ok := ⟨rfl, rfl, rfl, rfl, rfl⟩
theorem resetEngine_endedWith (st : State) : st.resetEngine.endedWith false .none := ⟨rfl, rfl, rfl, rfl, rfl⟩

theorem errorEntry_keepsOutside (st : State) (code : Status) : st.keepsOutside (st.errorEntry code) :=
  ⟨rfl, rfl, rfl, rfl, rfl⟩
theorem complete_keepsOutside (st : State) : st.keepsOutside st.complete := ⟨rfl, rfl, rfl, rfl, rfl⟩
theorem resetEngine_keepsOutside (st : State) : st.keepsOutside st.resetEngine := ⟨rfl, rfl, rfl, rfl, rfl⟩
theorem begin_keepsOutside (st : State) : st.keepsOutside st.begin := ⟨rfl, rfl, rfl, rfl, rfl⟩

theorem errorEntry_keepsChannels (st : State) (code : Status) : st.keepsChannels (st.errorEntry code) := ⟨rfl, rfl⟩
theorem complete_keepsChannels (st : State) : st.keepsChannels st.complete := ⟨rfl, rfl⟩
theorem resetEngine_keepsChannels (st : State) : st.keepsChannels st.resetEngine := ⟨rfl, rfl⟩
theorem begin_keepsChannels (st : State) : st.keepsChannels st.begin := ⟨rfl, rfl⟩

/-! ### Defined elements -/

theorem Bank.definedAt_set (b : Bank) {i : Nat} (hi : i < 256) (re im : Q16) (j : BitVec 8) :
    (Bank.mk (b.re.set i (some re)) (b.im.set i (some im))).definedAt j ↔ i = j.toNat ∨ b.definedAt j := by
  by_cases h : i = j.toNat <;> simp [Bank.definedAt, h]

theorem Bank.undefAt_set (b : Bank) {i : Nat} (hi : i < 256) (re im : Q16) {j : BitVec 8} (h : i ≠ j.toNat) :
    (Bank.mk (b.re.set i (some re)) (b.im.set i (some im))).undefAt j ↔ b.undefAt j := by
  simp [Bank.undefAt, h]

/-! ### The next position -/

/-- A counter below its bound that is not its last value. -/
theorem toNat_lt_255 {n : BitVec 9} (hn : n.toNat < 256) (h : n ≠ 255) : n.toNat < 255 := by
  have : n.toNat ≠ 255 := fun e => h (BitVec.eq_of_toNat_eq (by simpa using e))
  omega

theorem succ9_toNat {n : BitVec 9} (hn : n.toNat < 256) : (n + 1).toNat = n.toNat + 1 := by
  rw [BitVec.toNat_add]
  simp
  omega

theorem succ4_toNat {s : BitVec 4} (hs : s.toNat < 8) : (s + 1).toNat = s.toNat + 1 := by
  rw [BitVec.toNat_add]
  simp
  omega

theorem succ8_toNat {k : BitVec 8} (hk : k.toNat < 128) : (k + 1).toNat = k.toNat + 1 := by
  rw [BitVec.toNat_add]
  simp
  omega

theorem afterRead_last {n : BitVec 9} (h : n = 255) : afterRead n = .permute 0 := if_pos h
theorem afterRead_other {n : BitVec 9} (h : n ≠ 255) : afterRead n = .read (n + 1) := if_neg h
theorem afterMove_last {i : BitVec 9} (h : i = 255) : afterMove i = .bfly 0 0 := if_pos h
theorem afterMove_other {i : BitVec 9} (h : i ≠ 255) : afterMove i = .permute (i + 1) := if_neg h

/-! ### READ_WORD -/

/-- READ_WORD in READ with a word at the head of IN (R162). -/
theorem execReadWord_eq {w : TransportWord} {rest : List TransportWord} (hp : st.phase = .read) (hn : st.n.toNat < 256)
    (hin : st.inChan = w :: rest) :
    execReadWord st = .next (((st.setInChan rest).setInBuf
      ⟨st.inBuf.re.set st.n.toNat (some (unpack w.data).re), st.inBuf.im.set st.n.toNat (some (unpack w.data).im)⟩).judgeWord
        (!framingCheck st.n.toNat w.last)) := by
  simp [execReadWord, State.readEnabled, hp, hn, hin, Bank.write_of_lt]

/-- READ_WORD answers a next state in two ways only: it takes a word, or it is not enabled. -/
theorem execReadWord_next (h : execReadWord st = .next t) :
    (t = st ∧ (st.phase ≠ .read ∨ 256 ≤ st.n.toNat ∨ st.inChan = [])) ∨
    (st.phase = .read ∧ ∃ hn : st.n.toNat < 256, ∃ w rest, st.inChan = w :: rest ∧
      t = ((st.setInChan rest).setInBuf ⟨st.inBuf.re.set st.n.toNat (some (unpack w.data).re),
        st.inBuf.im.set st.n.toNat (some (unpack w.data).im)⟩).judgeWord (!framingCheck st.n.toNat w.last)) := by
  by_cases hp : st.phase = .read
  · by_cases hn : st.n.toNat < 256
    · cases hin : st.inChan with
      | nil =>
        simp [execReadWord, State.readEnabled, hp, hn, hin] at h
        exact .inl ⟨h.symm, .inr (.inr rfl)⟩
      | cons w rest =>
        rw [execReadWord_eq hp hn hin] at h
        cases h
        exact .inr ⟨hp, hn, w, rest, rfl, rfl⟩
    · simp [execReadWord, State.readEnabled, hn] at h
      exact .inl ⟨h.symm, .inr (.inl (by omega))⟩
  · simp [execReadWord, State.readEnabled, hp] at h
    exact .inl ⟨h.symm, .inl hp⟩

/-- READ_WORD never stops the machine. -/
theorem execReadWord_total (st : State) : ∃ t, execReadWord st = .next t := by
  unfold execReadWord
  split
  · next he =>
    have hn : st.n.toNat < 256 := by simp [State.readEnabled] at he; exact he.2
    split
    · exact ⟨_, rfl⟩
    · rw [Bank.write_of_lt _ hn]; exact ⟨_, rfl⟩
  · exact ⟨_, rfl⟩

/-- What READ_WORD does after it has stored its word: the error entry, or the next position with ferr kept. -/
theorem judgeWord_cases (st : State) (bad : Bool) :
    (st.judgeWord bad = st.errorEntry .framingError ∧
      (st.params.drainOnFramingError = true → st.n = 255 ∧ (st.ferr = true ∨ bad = true)) ∧
      (st.params.drainOnFramingError = false → bad = true)) ∨
    (∃ b, st.judgeWord bad = (st.setFerr b).setSeq (afterRead st.n) ∧
      (st.params.drainOnFramingError = true → b = (st.ferr || bad) ∧ (st.n ≠ 255 ∨ b = false)) ∧
      (st.params.drainOnFramingError = false → b = st.ferr ∧ bad = false)) := by
  unfold State.judgeWord
  cases hd : st.params.drainOnFramingError
  · cases bad
    · exact .inr ⟨st.ferr, by simp [State.setFerr], by simp⟩
    · exact .inl (by simp)
  · simp only [if_true]
    split
    · next h => exact .inl ⟨rfl, fun _ => ⟨h.1, by simpa using h.2⟩, nofun⟩
    · next h =>
      refine .inr ⟨_, rfl, fun _ => ⟨rfl, ?_⟩, nofun⟩
      by_cases hn : st.n = 255
      · right; simpa [hn] using h
      · exact .inl hn

/-- READ_WORD in READ with a word at the head of IN: what it stores, and the two ways it goes on (R162). -/
theorem execReadWord_cases {w : TransportWord} {rest : List TransportWord} (hp : st.phase = .read)
    (hn : st.n.toNat < 256) (hin : st.inChan = w :: rest) :
    ∃ b, st.inBuf.write st.n.toNat (unpack w.data) = .ok b ∧
      ((execReadWord st = .next (((st.setInChan rest).setInBuf b).errorEntry .framingError) ∧
        (st.params.drainOnFramingError = true →
          st.n = 255 ∧ (st.ferr = true ∨ framingCheck st.n.toNat w.last = false)) ∧
        (st.params.drainOnFramingError = false → framingCheck st.n.toNat w.last = false)) ∨
      (∃ f, execReadWord st = .next ((((st.setInChan rest).setInBuf b).setFerr f).setSeq (afterRead st.n)) ∧
        (st.params.drainOnFramingError = true →
          f = (st.ferr || !framingCheck st.n.toNat w.last) ∧ (st.n ≠ 255 ∨ f = false)) ∧
        (st.params.drainOnFramingError = false → f = st.ferr ∧ framingCheck st.n.toNat w.last = true))) := by
  refine ⟨_, Bank.write_of_lt _ hn _, ?_⟩
  rw [execReadWord_eq hp hn hin]
  rcases judgeWord_cases ((st.setInChan rest).setInBuf ⟨st.inBuf.re.set st.n.toNat (some (unpack w.data).re),
    st.inBuf.im.set st.n.toNat (some (unpack w.data).im)⟩) (!framingCheck st.n.toNat w.last) with ⟨e, h₁, h₂⟩ | ⟨f, e, h₁, h₂⟩
  · exact .inl ⟨congrArg _ e, by simpa using h₁, by simpa using h₂⟩
  · exact .inr ⟨f, congrArg _ e, by simpa using h₁, by simpa using h₂⟩

/-! ### PERMUTE_STEP -/

/-- PERMUTE_STEP answers a next state in two ways only: it moves a sample, or it is not enabled. -/
theorem execPermuteStep_next (h : execPermuteStep st = .next t) :
    (t = st ∧ (st.phase ≠ .permute ∨ 256 ≤ st.i.toNat)) ∨
    (st.phase = .permute ∧ st.i.toNat < 256 ∧ ∃ w, permuteMove st.inBuf st.i.toNat st.wBuf = .ok w ∧
      t = (st.setWBuf w).setSeq (afterMove st.i)) := by
  unfold execPermuteStep at h
  split at h
  · next he =>
    simp only [State.permuteEnabled, Bool.and_eq_true, decide_eq_true_eq] at he
    split at h
    · next w hw => cases h; exact .inr ⟨he.1, he.2, w, hw, rfl⟩
    · cases h
  · next he =>
    cases h
    refine .inl ⟨rfl, ?_⟩
    by_cases hp : st.phase = .permute
    · right; simpa [State.permuteEnabled, hp] using he
    · exact .inl hp

/-! ### BUTTERFLY -/

/-- BUTTERFLY answers a next state in two ways only: it combines two samples, or it is not enabled. -/
theorem execButterfly_next (h : execButterfly st = .next t) :
    (t = st ∧ (st.phase ≠ .bfly ∨ 8 ≤ st.s.toNat ∨ 128 ≤ st.k.toNat)) ∨
    (st.phase = .bfly ∧ st.s.toNat < 8 ∧ st.k.toNat < 128 ∧ ∃ w,
      butterflyOn st.params.twTable st.s.toNat st.k.toNat st.wBuf = .ok w ∧
      t = (st.setWBuf w).setSeq (afterButterfly st.s st.k)) := by
  unfold execButterfly at h
  split at h
  · next he =>
    simp only [State.bflyEnabled, Bool.and_eq_true, decide_eq_true_eq] at he
    split at h
    · next w hw => cases h; exact .inr ⟨he.1.1, he.1.2, he.2, w, hw, rfl⟩
    · cases h
  · next he =>
    cases h
    refine .inl ⟨rfl, ?_⟩
    by_cases hp : st.phase = .bfly
    · by_cases hs : st.s.toNat < 8
      · right; right; simpa [State.bflyEnabled, hp, hs] using he
      · exact .inr (.inl (by omega))
    · exact .inl hp

/-! ### WRITE_WORD -/

/-- WRITE_WORD answers a next state in two ways only: it pushes a word, or it is not enabled. -/
theorem execWriteWord_next (h : execWriteWord st = .next t) :
    (t = st ∧ (st.phase ≠ .write ∨ 256 ≤ st.n.toNat ∨ st.outHasRoom = false)) ∨
    (st.phase = .write ∧ st.n.toNat < 256 ∧ st.outHasRoom = true ∧ ∃ v, st.wBuf.read st.n.toNat = .ok v ∧
      t = if st.n = 255 then (st.pushOut (outputWord st.n.toNat v)).complete
        else (st.pushOut (outputWord st.n.toNat v)).setSeq (.write (st.n + 1))) := by
  unfold execWriteWord at h
  split at h
  · next he =>
    simp only [State.writeEnabled, Bool.and_eq_true, decide_eq_true_eq] at he
    unfold outputWordAt at h
    cases hv : st.wBuf.read st.n.toNat with
    | ok v =>
      simp only [hv, Except.map] at h
      cases h
      exact .inr ⟨he.1.1, he.1.2, he.2, v, rfl, rfl⟩
    | error f => simp only [hv, Except.map] at h; cases h
  · next he =>
    cases h
    refine .inl ⟨rfl, ?_⟩
    by_cases hp : st.phase = .write
    · by_cases hn : st.n.toNat < 256
      · right; right; simpa [State.writeEnabled, hp, hn] using he
      · exact .inr (.inl (by omega))
    · exact .inl hp

/-! ### Pure functions -/

/-- The operations that are no steps of R182's table: they record a value and change nothing else (log 9). -/
def isPure : Instr → Bool
  | .permuteStep | .butterfly | .readWord | .writeWord | .start | .transportFault | .reset => false
  | .qAdd _ _ | .qSub _ _ | .qMul _ _ | .qFromDouble _ | .qToDouble _ | .bitrev8 _ | .permute _ | .twRead _
  | .cmulTw _ _ _ _ | .stage _ _ | .bflyCore _ | .unpack _ | .pack _ _ | .framingCheck _ _ | .readFrame _
  | .writeFrame _ | .transform _ => true

theorem recordOfFrame_next {own : Bank} {x : FrameOperand} {value : Frame → Result}
    (h : st.recordOfFrame own x value = .next t) : ∃ r, t = st.setResult r := by
  unfold State.recordOfFrame at h
  split at h
  · cases h; exact ⟨_, rfl⟩
  · cases h

/-- A pure operation that answers a next state changes the result field only. -/
theorem exec_pure {i : Instr} (hi : isPure i = true) (h : exec i st = .next t) : ∃ r, t = st.setResult r := by
  cases i with
  | qAdd a b => cases h; exact ⟨_, rfl⟩
  | qSub a b => cases h; exact ⟨_, rfl⟩
  | qMul a b => cases h; exact ⟨_, rfl⟩
  | qFromDouble x =>
    simp only [exec, execQFromDouble] at h
    split at h
    · cases h; exact ⟨_, rfl⟩
    · cases h
  | qToDouble q => cases h; exact ⟨_, rfl⟩
  | bitrev8 i => cases h; exact ⟨_, rfl⟩
  | permute x => exact recordOfFrame_next h
  | twRead t => cases h; exact ⟨_, rfl⟩
  | cmulTw br bi twR twI => cases h; exact ⟨_, rfl⟩
  | stage s w =>
    simp only [exec, execStage] at h
    split at h
    · exact recordOfFrame_next h
    · cases h
  | bflyCore w => exact recordOfFrame_next h
  | unpack d => cases h; exact ⟨_, rfl⟩
  | pack re im => cases h; exact ⟨_, rfl⟩
  | framingCheck n last => cases h; exact ⟨_, rfl⟩
  | readFrame u => cases h; exact ⟨_, rfl⟩
  | writeFrame w => exact recordOfFrame_next h
  | transform u => cases h; exact ⟨_, rfl⟩
  | permuteStep | butterfly | readWord | writeWord | start | transportFault | reset => simp [isPure] at hi

/-! ### Everything an operation can do -/

/-- The complete list of what an operation that answers a next state has done. -/
inductive Effect (st : State) : Instr → State → Prop
  | unchanged (i : Instr) : Effect st i st
  | value (i : Instr) (r : Result) : isPure i = true → Effect st i (st.setResult r)
  | taken (w : TransportWord) (rest : List TransportWord) (b : Bank) (f : Bool) : st.phase = .read → st.n.toNat < 256 →
      st.inChan = w :: rest → st.inBuf.write st.n.toNat (unpack w.data) = .ok b →
      (st.params.drainOnFramingError = true →
        f = (st.ferr || !framingCheck st.n.toNat w.last) ∧ (st.n ≠ 255 ∨ f = false)) →
      (st.params.drainOnFramingError = false → f = st.ferr ∧ framingCheck st.n.toNat w.last = true) →
      Effect st .readWord ((((st.setInChan rest).setInBuf b).setFerr f).setSeq (afterRead st.n))
  | misframed (w : TransportWord) (rest : List TransportWord) (b : Bank) : st.phase = .read → st.n.toNat < 256 →
      st.inChan = w :: rest →
      (st.params.drainOnFramingError = true →
        st.n = 255 ∧ (st.ferr = true ∨ framingCheck st.n.toNat w.last = false)) →
      (st.params.drainOnFramingError = false → framingCheck st.n.toNat w.last = false) →
      Effect st .readWord (((st.setInChan rest).setInBuf b).errorEntry .framingError)
  | moved (w : Bank) : st.phase = .permute → st.i.toNat < 256 → permuteMove st.inBuf st.i.toNat st.wBuf = .ok w →
      Effect st .permuteStep ((st.setWBuf w).setSeq (afterMove st.i))
  | combined (w : Bank) : st.phase = .bfly → st.s.toNat < 8 → st.k.toNat < 128 →
      butterflyOn st.params.twTable st.s.toNat st.k.toNat st.wBuf = .ok w →
      Effect st .butterfly ((st.setWBuf w).setSeq (afterButterfly st.s st.k))
  | pushed (v : Sample) : st.phase = .write → st.n.toNat < 256 → st.n ≠ 255 → st.outHasRoom = true →
      st.wBuf.read st.n.toNat = .ok v →
      Effect st .writeWord ((st.pushOut (outputWord st.n.toNat v)).setSeq (.write (st.n + 1)))
  | completed (v : Sample) : st.phase = .write → st.n = 255 → st.outHasRoom = true → st.wBuf.read 255 = .ok v →
      Effect st .writeWord (st.pushOut (outputWord 255 v)).complete
  | begun : st.phase = .idle → Effect st .start st.begin
  | marked : st.phase ≠ .idle → Effect st .start st.markProtocolFault
  | failed : st.phase = .read → Effect st .transportFault (st.errorEntry .transportError)
  | reset : Effect st .reset st.resetEngine

/-- The inversion of `exec`, once for all. -/
theorem exec_effect {i : Instr} (h : exec i st = .next t) : Effect st i t := by
  cases hi : isPure i with
  | true =>
    obtain ⟨r, rfl⟩ := exec_pure hi h
    exact .value i r hi
  | false =>
    cases i with
    | permuteStep =>
      rcases execPermuteStep_next h with ⟨rfl, _⟩ | ⟨hp, hi, w, hw, rfl⟩
      · exact .unchanged _
      · exact .moved w hp hi hw
    | butterfly =>
      rcases execButterfly_next h with ⟨rfl, _⟩ | ⟨hp, hs, hk, w, hw, rfl⟩
      · exact .unchanged _
      · exact .combined w hp hs hk hw
    | readWord =>
      rcases execReadWord_next h with ⟨rfl, _⟩ | ⟨hp, hn, w, rest, hin, _⟩
      · exact .unchanged _
      · obtain ⟨b, hb, ⟨e, h₁, h₂⟩ | ⟨f, e, h₁, h₂⟩⟩ := execReadWord_cases hp hn hin
        · cases h.symm.trans e; exact .misframed w rest b hp hn hin h₁ h₂
        · cases h.symm.trans e; exact .taken w rest b f hp hn hin hb h₁ h₂
    | writeWord =>
      rcases execWriteWord_next h with ⟨rfl, _⟩ | ⟨hp, hn, hroom, v, hv, rfl⟩
      · exact .unchanged _
      · split
        · next h255 =>
          rw [h255] at hv ⊢
          exact .completed v hp h255 hroom hv
        · next h255 => exact .pushed v hp hn h255 hroom hv
    | start =>
      simp only [exec, execStart] at h
      split at h
      · next hp => cases h; exact .begun hp
      · next hp => cases h; exact .marked hp
    | transportFault =>
      simp only [exec, execTransportFault] at h
      split at h
      · next hp => cases h; exact .failed hp
      · cases h; exact .unchanged _
    | reset => cases h; exact .reset
    | qAdd | qSub | qMul | qFromDouble | qToDouble | bitrev8 | permute | twRead | cmulTw | stage | bflyCore | unpack
    | pack | framingCheck | readFrame | writeFrame | transform => simp [isPure] at hi

end Sys2Proof.Machine
end

