-- ==== Sys2Proof/Laws/Run.lean ====
section
/-! SUPPORT. Steps and runs: what the agenda makes of one step, and runs as sequences of steps. -/

namespace Sys2Proof.Machine

variable {st : State}

/-! ### One step -/

theorem step_marked (h : st.protocolFault = true) : step st = .fault .hostProtocol := by simp [step, advance, h]

theorem step_alone (h : st.protocolFault = false) (ha : st.agenda = []) : step st = engineTurn st := by
  simp [step, advance, h, ha]

/-- With no turn due the engine runs the operation of its phase. -/
theorem step_of_phase {i : Instr} (h : st.protocolFault = false) (ha : st.agenda = [])
    (hp : engineOperation st.phase = some i) : step st = exec i st := by
  rw [step_alone h ha, engineTurn, hp]

theorem step_waiting {a : Action} {rest : List Turn} (h : st.protocolFault = false) (ha : st.agenda = .one a :: rest)
    (hr : a.ready st = false) : step st = engineTurn st := by
  simp [step, advance, h, ha, takeTurn, hr]

theorem step_ready {a : Action} {rest : List Turn} (h : st.protocolFault = false) (ha : st.agenda = .one a :: rest)
    (hr : a.ready st = true) : step st = a.perform (st.setAgenda rest) := by
  simp [step, advance, h, ha, takeTurn, hr]

theorem step_together {as : List Action} {rest : List Turn} (h : st.protocolFault = false)
    (ha : st.agenda = .together as :: rest) :
    step st = if as.any Action.isReset then exec .reset (st.setAgenda rest)
      else .next (st.setAgenda (as.map .one ++ rest)) := by
  simp [step, advance, h, ha, takeTurn]

/-- The only ways a step answers a next state: a move of the engine, an operation, a move of another agent, or coincident
moves put in order. -/
inductive StepEffect (st : State) : State → Prop
  | engine {t : State} : engineTurn st = .next t → StepEffect st t
  | engineTurn (rest : List Turn) {t : State} : engineTurn (st.setAgenda rest) = .next t → StepEffect st t
  | operation (i : Instr) (rest : List Turn) {t : State} : exec i (st.setAgenda rest) = .next t → StepEffect st t
  | sent (w : TransportWord) (rest : List Turn) : st.inHasRoom = true → StepEffect st ((st.setAgenda rest).pushIn w)
  | received (w : TransportWord) (ws : List TransportWord) (rest : List Turn) : st.outChan = w :: ws →
      StepEffect st (((st.setAgenda rest).setOutChan ws).take w)
  | ordered (rest : List Turn) : StepEffect st (st.setAgenda rest)

theorem step_effect {t : State} (h : step st = .next t) : StepEffect st t := by
  cases hm : st.protocolFault with
  | true => rw [step_marked hm] at h; cases h
  | false =>
    cases ha : st.agenda with
    | nil => exact .engine ((step_alone hm ha).symm.trans h)
    | cons turn rest =>
      cases turn with
      | one a =>
        cases hr : a.ready st with
        | false => exact .engine ((step_waiting hm ha hr).symm.trans h)
        | true =>
          rw [step_ready hm ha hr] at h
          cases a with
          | operation code =>
            simp only [Action.perform, runCode] at h
            split at h
            · exact .operation _ rest h
            · cases h
          | send w => cases h; exact .sent w rest hr
          | recv =>
            simp only [Action.perform] at h
            split at h
            · next w ws e => cases h; exact .received w ws rest e
            · cases h; exact .ordered rest
          | waitDone => cases h; exact .ordered rest
          | engineStep => exact .engineTurn rest h
          | settle => cases h; exact .ordered rest
      | together as =>
        rw [step_together hm ha] at h
        split at h
        · exact .operation _ rest h
        · cases h; exact .ordered _

/-! ### Runs -/

theorem core_run_succ {M : Host.Core} {k : Nat} {s t : M.State} (h : M.step s = .next t) : M.run (k + 1) s = M.run k t := by
  simp only [Host.Core.run, h]

theorem core_run_fault {M : Host.Core} {k : Nat} {s : M.State} {f} (h : M.step s = .fault f) : M.run (k + 1) s = .fault f := by
  simp only [Host.Core.run, h]

theorem core_run_refused {M : Host.Core} {k : Nat} {s : M.State} {f} (h : M.step s = .refused f) : M.run (k + 1) s = .refused f := by
  simp only [Host.Core.run, h]

/-- A run of j + k steps is a run of j steps and then one of k. -/
theorem core_run_add {M : Host.Core} {j k : Nat} {s t : M.State} (h : M.run j s = .next t) : M.run (j + k) s = M.run k t := by
  induction j generalizing s with
  | zero => cases h; rw [Nat.zero_add]
  | succ j ih =>
    cases hs : M.step s with
    | next u =>
      rw [core_run_succ hs] at h
      rw [Nat.add_right_comm, core_run_succ hs]
      exact ih h
    | fault r => rw [core_run_fault hs] at h; cases h
    | refused r => rw [core_run_refused hs] at h; cases h

/-- The induction behind every phase: a property of the count of steps that each step carries on. -/
theorem core_run_invariant {M : Host.Core} {count : Nat} {P : Nat → M.State → Prop} {s : M.State} (h0 : P 0 s)
    (hstep : ∀ j, j < count → ∀ u, P j u → ∃ t, M.step u = .next t ∧ P (j + 1) t) :
    ∃ t, M.run count s = .next t ∧ P count t := by
  have key : ∀ j, j ≤ count → ∃ t, M.run j s = .next t ∧ P j t := by
    intro j
    induction j with
    | zero => exact fun _ => ⟨s, rfl, h0⟩
    | succ j ih =>
      intro hj
      obtain ⟨u, hu, hPu⟩ := ih (Nat.le_of_succ_le hj)
      obtain ⟨t, ht, hPt⟩ := hstep j hj u hPu
      refine ⟨t, ?_, hPt⟩
      rw [core_run_add hu, core_run_succ ht]
      rfl
  exact key count (Nat.le_refl _)

/-- The same of this machine. -/
theorem run_invariant {count : Nat} {P : Nat → State → Prop} {s : State} (h0 : P 0 s)
    (hstep : ∀ j, j < count → ∀ u, P j u → ∃ t, step u = .next t ∧ P (j + 1) t) :
    ∃ t, Host.Core.run Sys2Proof.core count s = .next t ∧ P count t :=
  core_run_invariant (M := Sys2Proof.core) h0 hstep

/-- The same of this machine. -/
theorem run_add {j k : Nat} {s t : State} (h : Host.Core.run Sys2Proof.core j s = .next t) :
    Host.Core.run Sys2Proof.core (j + k) s = Host.Core.run Sys2Proof.core k t := core_run_add (M := Sys2Proof.core) h

/-- The same of this machine. -/
theorem run_succ {k : Nat} {s t : State} (h : step s = .next t) :
    Host.Core.run Sys2Proof.core (k + 1) s = Host.Core.run Sys2Proof.core k t := core_run_succ (M := Sys2Proof.core) h

end Sys2Proof.Machine
end

