-- ==== Sys2Proof/Tests/Slice0.lean ====
section
/-! SUPPORT. The model's own tests. Expected values are the spec's: the examples and corner cases of its rules, and
95_test_vectors.md. Binary64 patterns are worked out by hand from the format. -/

namespace Sys2Proof.Tests

open Sys2Proof.Machine

/-! ### Helpers: small states, and what is looked at in an outcome -/

def look {α : Type} (o : Host.Outcome State Fault Refusal) (view : State → α) : Option α :=
  match o with
  | .next t => some (view t)
  | .fault _ => none
  | .refused _ => none

def faultOf (o : Host.Outcome State Fault Refusal) : Option Fault :=
  match o with
  | .next _ => none
  | .fault f => some f
  | .refused _ => none

def refusalOf (o : Host.Outcome State Fault Refusal) : Option Refusal :=
  match o with
  | .next _ => none
  | .fault _ => none
  | .refused r => some r

def constant (v : Sample) : Frame := ⟨Vector.replicate 256 v.re, Vector.replicate 256 v.im⟩
def zeros : Frame := constant ⟨0, 0⟩
def impulse : Frame := zeros.write 0 ⟨0x00010000, 0⟩
def ramp : Frame := Frame.tabulate fun i => ⟨(i.setWidth 32) <<< 16, 0⟩

def word (data : BitVec 64) (last : Bool) : TransportWord := ⟨data, 0xFF, 0xFF, last⟩
/-- A frame of words with data 0 and last on the word `lastAt` only. -/
def words (count lastAt : Nat) : List TransportWord := (List.range count).map fun n => word 0 (decide (n = lastAt))

def draining : Params := ⟨defaultTwTable, true, .unbounded, .unbounded⟩
def oneDeep : Params := ⟨defaultTwTable, false, .bounded 1, .bounded 1⟩

def reading (n : BitVec 9) (ws : List TransportWord) : State := { State.reset with phase := .read, n := n, inChan := ws }
def permuting (i : BitVec 9) (f : Frame) : State := { State.reset with phase := .permute, i := i, inBuf := Bank.ofFrame f }
def combining (s : BitVec 4) (k : BitVec 8) (f : Frame) : State :=
  { State.reset with phase := .bfly, s := s, k := k, wBuf := Bank.ofFrame f }
def writing (n : BitVec 9) (f : Frame) : State := { State.reset with phase := .write, n := n, wBuf := Bank.ofFrame f }
def due (turns : List Turn) : State := { State.reset with agenda := turns }

/-! ### WellFormed: an ill-formed term for each check, and the boundary that passes -/

theorem test_illformed_stage_8 : (Instr.stage 8 .buffers).wellFormed = false := by decide
theorem test_illformed_stage_15 : (Instr.stage 15 (.literal zeros)).wellFormed = false := rfl
theorem test_wellformed_stage_7 : (Instr.stage 7 .buffers).wellFormed = true := by decide
theorem test_illformed_readFrame : (Instr.readFrame (.literal (List.replicate 65536 (word 0 false)))).wellFormed = false := by
  simp only [Instr.wellFormed, WordsOperand.wellFormed, List.length_replicate]
  rfl
theorem test_illformed_transform : (Instr.transform (.literal (List.replicate 65536 (word 0 false)))).wellFormed = false := by
  simp only [Instr.wellFormed, WordsOperand.wellFormed, List.length_replicate]
  rfl
theorem test_wellformed_readFrame : (Instr.readFrame (.literal (List.replicate 65535 (word 0 false)))).wellFormed = true := by
  simp only [Instr.wellFormed, WordsOperand.wellFormed, List.length_replicate]
  rfl

/-! ### Decode: every OPID of R78's table, bits 4:0 of the first byte; then operand bytes, one code per operand shape -/

theorem test_decode_datapath :
    decodeTableWord 8 0b00000 = some (.qAdd 0 0) ∧ decodeTableWord 8 0b00001 = some (.qSub 0 0) ∧
    decodeTableWord 8 0b00010 = some (.qMul 0 0) ∧ decodeTableWord 8 0b00011 = some (.qFromDouble 0) ∧
    decodeTableWord 8 0b00100 = some (.qToDouble 0) ∧ decodeTableWord 8 0b00101 = some (.bitrev8 0) ∧
    decodeTableWord 8 0b01000 = some (.twRead 0) ∧ decodeTableWord 8 0b01001 = some (.cmulTw 0 0 0 0) ∧
    decodeTableWord 8 0b01101 = some (.unpack 0) ∧ decodeTableWord 8 0b01110 = some (.pack 0 0) ∧
    decodeTableWord 8 0b10000 = some (.framingCheck 0 false) := by decide +kernel
theorem test_decode_steps :
    decodeTableWord 8 0b00110 = some .permuteStep ∧ decodeTableWord 8 0b01010 = some .butterfly ∧
    decodeTableWord 8 0b01111 = some .readWord ∧ decodeTableWord 8 0b10010 = some .writeWord ∧
    decodeTableWord 8 0b10100 = some .start ∧ decodeTableWord 8 0b10110 = some .transportFault ∧
    decodeTableWord 8 0b10111 = some .reset := by decide +kernel
/-- The operation's name and the last sample of the frame it carries. -/
def lastSample : Instr → Option (String × Sample)
  | .permute (.literal f) => some ("PERMUTE", f.read 255)
  | .stage 0 (.literal f) => some ("STAGE 0", f.read 255)
  | .bflyCore (.literal f) => some ("BFLY_CORE", f.read 255)
  | .writeFrame (.literal f) => some ("WRITE_FRAME", f.read 255)
  | _ => none
theorem test_decode_frames :
    (decodeTableWord 8 0b00111).bind lastSample = some ("PERMUTE", ⟨0, 0⟩) ∧
    (decodeTableWord 8 0b01011).bind lastSample = some ("STAGE 0", ⟨0, 0⟩) ∧
    (decodeTableWord 8 0b01100).bind lastSample = some ("BFLY_CORE", ⟨0, 0⟩) ∧
    (decodeTableWord 8 0b10011).bind lastSample = some ("WRITE_FRAME", ⟨0, 0⟩) := by decide +kernel
theorem test_decode_sequences :
    decodeTableWord 8 0b10001 = some (.readFrame (.literal [])) ∧
    decodeTableWord 8 0b10101 = some (.transform (.literal [])) := by decide +kernel
theorem test_decode_none :
    decodeTableWord 8 0b11000 = none ∧ decodeTableWord 8 0b11111 = none ∧ decodeTableWord 8 0b100000 = none := by
  decide +kernel
theorem test_decode_scalars :
    decode [0x01, 0x04, 0x03, 0x02, 0x01, 0x40, 0x30, 0x20, 0x10, 0xEE] = .ok (.qSub 0x01020304 0x10203040, [0xEE]) := by
  decide
theorem test_decode_packed :
    decode [0x0D, 0x08, 0x07, 0x06, 0x05, 0x04, 0x03, 0x02, 0x01] = .ok (.unpack 0x0102030405060708, []) := by decide
theorem test_decode_rom_index :
    decode [0x08, 0x7F] = .ok (.twRead 127, []) ∧ decode [0x08, 0x80] = .error .operandRange := by decide
theorem test_decode_stage :
    decode [0x0B, 0x07, 0x01] = .ok (.stage 7 .buffers, []) ∧ decode [0x0B, 0x08, 0x01] = .error .operandRange := by
  decide
theorem test_decode_words :
    decode [0x15, 0x00, 0x01, 0x00, 1, 2, 3, 4, 5, 6, 7, 8, 0x55, 0xAA, 1] =
      .ok (.transform (.literal [⟨0x0807060504030201, 0x55, 0xAA, true⟩]), []) ∧
    decode [0x11, 0x01] = .ok (.readFrame .channel, []) := by decide
theorem test_decode_short :
    decode [] = .error .noCode ∧ decode [0x00, 1, 2, 3, 4, 5, 6, 7] = .error .cutShort ∧
    decode [0x10, 0xFF, 0x02] = .error .operandRange := by decide
/-- The 81-bit listing form of R73. -/
theorem test_listing : (word 0x0102030405060708 true).listing = 0x1FFFF0102030405060708 := by decide

/-! ### One operation, one step -/

theorem test_qAdd_wraps : look (exec (.qAdd 0x7FFFFFFF 1) .reset) State.result = some (.scalar 0x80000000) := by decide
theorem test_qSub_order : look (exec (.qSub 0x00010000 0x00020000) .reset) State.result = some (.scalar 0xFFFF0000) := by
  decide
theorem test_qSub_wraps : look (exec (.qSub 0 0x80000000) .reset) State.result = some (.scalar 0x80000000) := by decide
theorem test_qMul_floors : look (exec (.qMul 0xFFFF8000 1) .reset) State.result = some (.scalar 0xFFFFFFFF) := by decide
theorem test_qMul_drops : look (exec (.qMul 0x7FFFFFFF 0x7FFFFFFF) .reset) State.result = some (.scalar 0xFFFF0000) := by
  decide
/-- -1.5 * 2^-16 is -0x1.8p-16, truncated toward zero; -32769.0 is -0x1.0002p15 and wraps (R103). -/
theorem test_qFromDouble :
    look (exec (.qFromDouble 0xBEF8000000000000) .reset) State.result = some (.scalar 0xFFFFFFFF) ∧
    look (exec (.qFromDouble 0xC0E0002000000000) .reset) State.result = some (.scalar 0x7FFF0000) := by decide +kernel
theorem test_qFromDouble_refuses : refusalOf (exec (.qFromDouble 0x7FF8000000000000) .reset) = some .notFinite := by decide
/-- -0.5 is 0xBFE0..., -32768.0 is 0xC0E0... (R104). -/
theorem test_qToDouble :
    look (exec (.qToDouble 0xFFFF8000) .reset) State.result = some (.double 0xBFE0000000000000) ∧
    look (exec (.qToDouble 0x80000000) .reset) State.result = some (.double 0xC0E0000000000000) := by decide +kernel
theorem test_bitrev8 : look (exec (.bitrev8 0x0A) .reset) State.result = some (.index 0x50) := by decide
/-- R121's example: with i = 1, W[0x80] <- IN[0x01]. -/
theorem test_permuteStep :
    look (exec .permuteStep (permuting 1 ramp)) (fun t => (t.wBuf.re[0x80], t.wBuf.re[0x01], t.phase, t.i)) =
      some (some 0x00010000, none, .permute, 2) := by decide +kernel
theorem test_permuteStep_last :
    look (exec .permuteStep (permuting 255 ramp)) (fun t => (t.wBuf.re[255], t.phase, t.s, t.k)) =
      some (some 0x00FF0000, .bfly, 0, 0) := by decide +kernel
/-- R123's example. -/
theorem test_permute :
    (permute ramp).read 1 = ⟨0x00800000, 0⟩ ∧ (permute ramp).read 2 = ⟨0x00400000, 0⟩ := by decide +kernel
theorem test_permute_undef : faultOf (exec (.permute .buffers) .reset) = some .undefRead := by decide +kernel
theorem test_twRead : look (exec (.twRead 1) .reset) State.result = some (.sample ⟨0x0000FFEC, 0xFFFFF9B8⟩) := by
  decide +kernel
/-- The last entry, and the entry of -3 pi / 4, of R130's table. -/
theorem test_twRead_more :
    twRead defaultTwTable 127 = ⟨0xFFFF0014, 0xFFFFF9B8⟩ ∧ twRead defaultTwTable 96 = ⟨0xFFFF4AFC, 0xFFFF4AFC⟩ := by
  decide +kernel
theorem test_cmulTw :
    look (exec (.cmulTw 0x00010000 0 0x0000B504 0xFFFF4AFC) .reset) State.result =
      some (.sample ⟨0x0000B504, 0xFFFF4AFC⟩) := by decide
/-- Times -j: (bi, -br) (R132). -/
theorem test_cmulTw_minus_j :
    look (exec (.cmulTw 0x80000000 0x00030000 0 0xFFFF0000) .reset) State.result =
      some (.sample ⟨0x00030000, 0x80000000⟩) := by decide
/-- R143's example: stage 7, k = 1. -/
theorem test_butterfly :
    look (exec .butterfly (combining 7 1 (constant ⟨0x00010000, 0⟩)))
      (fun t => (t.wBuf.re[1], t.wBuf.im[1], t.wBuf.re[129], t.wBuf.im[129])) =
      some (some 0x0001FFEC, some 0xFFFFF9B8, some 0x00000014, some 0x00000648) := by decide +kernel
theorem test_butterfly_moves_on :
    look (exec .butterfly (combining 7 1 zeros)) (fun t => (t.phase, t.s, t.k)) = some (.bfly, 7, 2) := by decide +kernel
theorem test_butterfly_last :
    look (exec .butterfly (combining 7 127 zeros)) (fun t => (t.phase, t.n)) = some (.write, 0) := by decide +kernel
/-- R144's example: a constant pair after stage 0. -/
theorem test_stage :
    (stage defaultTwTable 0 (constant ⟨3, 5⟩)).read 10 = ⟨6, 10⟩ ∧
    (stage defaultTwTable 0 (constant ⟨3, 5⟩)).read 11 = ⟨0, 0⟩ := by decide +kernel
theorem test_stage_8 : faultOf (exec (.stage 8 .buffers) .reset) = some .indexRange := by decide
/-- The last stage of R145's example: an impulse is 1.0 in the first 128 elements before it and in all after it. -/
theorem test_stage_7 :
    let spread := Frame.tabulate fun m => ⟨if m.toNat < 128 then 0x00010000 else 0, 0⟩
    (stage defaultTwTable 7 spread).read 5 = ⟨0x00010000, 0⟩ ∧
    (stage defaultTwTable 7 spread).read 133 = ⟨0x00010000, 0⟩ := by decide +kernel
theorem test_unpack : look (exec (.unpack 0x00000000FFFFFFFF) .reset) State.result = some (.sample ⟨0, 0xFFFFFFFF⟩) := by
  decide
theorem test_pack : look (exec (.pack 0x01000000 0xFFFFFFFF) .reset) State.result = some (.packed 0x01000000FFFFFFFF) := by
  decide
/-- R162's example. -/
theorem test_readWord :
    look (exec .readWord (reading 0 [word 0x0001000000000000 false, word 7 true]))
      (fun t => (t.inBuf.re[0], t.inBuf.im[0], t.n, t.phase, t.inChan)) =
      some (some 0x00010000, some 0, 1, .read, [word 7 true]) := by decide +kernel
/-- The early last of 95_test_vectors.md, scenario 6: word 128. -/
theorem test_readWord_early_last :
    look (exec .readWord (reading 128 [word 0 true, word 1 false]))
      (fun t => (t.phase, t.doneFlag, t.ctrlStatus, t.inBuf.re[128], t.inChan)) =
      some (.idle, true, 2, none, [word 1 false]) := by decide +kernel
theorem test_framingCheck :
    look (exec (.framingCheck 128 true) .reset) State.result = some (.verdict false) ∧
    look (exec (.framingCheck 255 true) .reset) State.result = some (.verdict true) := by decide
theorem test_readFrame :
    look (exec (.readFrame (.literal (words 256 255))) .reset)
      (fun t => match t.result with
        | .frameRead (.ok x consumed) => some (x.read 255, consumed)
        | _ => none) = some (some (⟨0, 0⟩, 256)) := by decide +kernel
theorem test_readFrame_early_last :
    look (exec (.readFrame .channel) { State.reset with inChan := words 256 128 }) State.result =
      some (.frameRead (.framingError 129)) ∧
    look (exec (.readFrame .channel) { State.reset with inChan := words 256 128, params := draining }) State.result =
      some (.frameRead (.framingError 256)) := by decide +kernel
/-- R165's example. -/
theorem test_writeWord :
    look (exec .writeWord (writing 0 (constant ⟨0x01000000, 0⟩))) (fun t => (t.outChan, t.phase, t.n)) =
      some ([⟨0x0100000000000000, 0xFF, 0xFF, false⟩], .write, 1) := by decide +kernel
theorem test_writeWord_last :
    look (exec .writeWord (writing 255 (constant ⟨2, 3⟩))) (fun t => (t.outChan, t.phase, t.ctrlDone, t.ctrlStatus)) =
      some ([⟨0x0000000200000003, 0xFF, 0xFF, true⟩], .idle, 1, 1) := by decide +kernel
theorem test_writeFrame :
    look (exec (.writeFrame (.literal (constant ⟨2, 3⟩))) .reset)
      (fun t => match t.result with
        | .words ws => some (ws.length, ws[0]?, ws[255]?)
        | _ => none) =
      some (some (256, some ⟨0x0000000200000003, 0xFF, 0xFF, false⟩, some ⟨0x0000000200000003, 0xFF, 0xFF, true⟩)) := by
  decide +kernel
/-- R180's example, from a finished machine. -/
theorem test_start :
    look (exec .start { State.reset with doneFlag := true, status := .ok })
      (fun t => (t.phase, t.n, t.doneFlag, t.status, t.ferr)) = some (.read, 0, false, .none, false) := by decide
theorem test_start_busy :
    look (exec .start (reading 3 [])) (fun t => (t.phase, t.n, t.protocolFault)) = some (.read, 3, true) ∧
    faultOf (step { State.reset with protocolFault := true }) = some .hostProtocol := by decide
/-- R181's example: 256 good words give 256 words, all consumed, STATUS OK. -/
theorem test_transform :
    look (exec (.transform (.literal (words 256 255))) .reset)
      (fun t => match t.result with
        | .transformed (.ended output consumed status) => some (output.length, consumed, status)
        | _ => none) = some (some (256, 256, .ok)) := by decide +kernel
theorem test_transform_error :
    look (exec (.transform (.literal (words 256 128))) .reset) State.result =
      some (.transformed (.ended [] 129 .framingError)) := by decide +kernel
theorem test_transportFault :
    look (exec .transportFault (reading 10 [word 9 false])) (fun t => (t.phase, t.ctrlDone, t.ctrlStatus, t.inChan)) =
      some (.idle, 1, 3, [word 9 false]) := by decide +kernel
theorem test_transportFault_idle :
    look (exec .transportFault .reset) (fun t => (t.phase, t.ctrlDone)) = some (.idle, 0) := by decide
/-- R230's example: RESET in BFLY, stage 3. -/
theorem test_reset :
    look (exec .reset { combining 3 5 zeros with doneFlag := true })
      (fun t => (t.ctrlIdle, t.ctrlDone, t.ctrlStatus, t.wBuf.re[7])) = some (1, 0, 0, none) := by decide +kernel
theorem test_reset_keeps :
    look (exec .reset { reading 3 [word 2 true] with outChan := [word 1 false], protocolFault := true })
      (fun t => (t.inChan, t.outChan, t.protocolFault)) = some ([word 2 true], [word 1 false], true) := by decide +kernel

/-! ### Steps and agents -/

theorem test_step_fetches :
    look (step (State.reset.withFetchWord 8 0x14)) (fun t => (t.phase, t.n, t.agenda)) = some (.read, 0, []) := by
  decide +kernel
theorem test_step_bad_code : refusalOf (step (State.reset.withFetchWord 8 0x18)) = some (.badCode (.noOperation 0x18)) := by
  decide +kernel
theorem test_step_idle : look (step .reset) (fun t => (t.phase, t.draws)) = some (.idle, 0) := by decide
theorem test_send_full :
    look (step { due [.one (.send (word 5 false))] with inChan := [word 4 false], params := oneDeep })
      (fun t => (t.inChan.length, t.agenda.length)) = some (1, 1) := by decide +kernel
theorem test_recv :
    look (step { due [.one .recv] with outChan := [word 4 false, word 5 true] })
      (fun t => (t.received, t.outChan, t.agenda)) = some ([word 4 false], [word 5 true], []) := by decide +kernel
theorem test_reset_wins :
    look (step { reading 0 [] with agenda := [.together [.send (word 5 false), .operation (encode .reset)]] })
      (fun t => (t.phase, t.inChan, t.agenda)) = some (.idle, [], []) := by decide +kernel
/-- The notation of R80: after each statement the engine runs until it waits. -/
theorem test_schedule :
    schedule (repeatFor 1 2 fun n => [fullSend (BitVec.ofNat 32 n) 0 false]) =
      [.one (.send (word 0x0000000100000000 false)), .one .settle, .one (.send (word 0x0000000200000000 false)), .one .settle]
    := by decide +kernel

/-! ### Witnesses: states and operands that meet the hypotheses of the obligations -/

theorem next_of_look {α : Type} {o : Host.Outcome State Fault Refusal} {view : State → α} {v : α}
    (h : look o view = some v) : ∃ t, o = .next t ∧ view t = v := by
  cases o <;> simp_all [look]

theorem words_length (count lastAt : Nat) : (words count lastAt).length = count := by simp [words]

theorem witness_DecodeReadsBackEncode :
    (Instr.stage 7 .buffers).wellFormed = true ∧ (Instr.stage 0 (.literal zeros)).wellFormed = true ∧
    (Instr.readFrame (.literal [word 5 true])).wellFormed = true ∧ Instr.reset.wellFormed = true := ⟨rfl, rfl, rfl, rfl⟩

theorem witness_DecodeAcceptsOnlyEncodings : decode [0x0B, 0x07, 0x01, 0xEE] = .ok (.stage 7 .buffers, [0xEE]) := by
  decide

theorem witness_UnlistedOpidsAreRefused (op : Byte) (h : op = 0x18 ∨ op = 0xFF) :
    24 ≤ op.toNat ∧ (due [.one (.operation (op :: [0x01]))]).protocolFault = false ∧
    (due [.one (.operation (op :: [0x01]))]).agenda = .one (.operation (op :: [0x01])) :: [] := by
  obtain rfl | rfl := h <;> exact ⟨by decide, rfl, rfl⟩

/-- The largest finite pattern, the infinity above it, and a NaN. -/
theorem witness_QFromDoubleTruncatesTowardZero :
    doubleFinite 0x7FEFFFFFFFFFFFFF = true ∧ doubleFinite 0x8000000000000000 = true ∧
    doubleFinite 0x7FF0000000000000 = false ∧ doubleFinite 0xFFF8000000000000 = false := by decide

/-- Both ends of the range in which the product does not wrap. -/
theorem witness_FixedPointLaws :
    ⌊q16Value 0x80000000 * q16Value 0x00010000 * 65536⌋ = -(2 ^ 31) ∧
    ⌊q16Value 0x7FFFFFFF * q16Value 0x00010000 * 65536⌋ = 2 ^ 31 - 1 := by
  have low : (0x80000000 : Q16).toInt = -(2 ^ 31) := by decide
  have high : (0x7FFFFFFF : Q16).toInt = 2 ^ 31 - 1 := by decide
  have one : (0x00010000 : Q16).toInt = 65536 := by decide
  constructor
  · rw [q16Value, q16Value, low, one, Int.floor_eq_iff]; norm_num
  · rw [q16Value, q16Value, high, one, Int.floor_eq_iff]; norm_num

theorem witness_Bitrev8ReversesTheBits : (0 : Nat) < 8 ∧ (7 : Nat) < 8 := by decide

/-- The first move, one in the middle and the last. -/
theorem witness_PermuteStepMovesOneSample (i r : Fin 256) (h : (i, r) = (0, 0) ∨ (i, r) = (1, 128) ∨ (i, r) = (255, 255)) :
    let st := permuting (BitVec.ofNat 9 i) (constant ⟨2, 3⟩)
    st.phase = .permute ∧ st.i.toNat = i.val ∧ r.val = (bitrev8 (BitVec.ofFin i)).toNat ∧
    st.inBuf.re[i] = some 2 ∧ st.inBuf.im[i] = some 3 := by
  refine ⟨rfl, ?_, ?_, ?_, ?_⟩
  · simp [permuting]; omega
  · rcases h with h | h | h <;> · cases h; decide
  · simp [permuting, Bank.ofFrame, constant]
  · simp [permuting, Bank.ofFrame, constant]

/-- Inside a stage, at the end of a stage, at the end of the core. -/
theorem witness_ButterflyStepCombinesTwoSamples (s : BitVec 4) (k : BitVec 8) (top bot : Fin 256) (t : Fin 128)
    (h : (s, k, top, bot, t) = (0, 0, 0, 1, 0) ∨ (s, k, top, bot, t) = (7, 126, 126, 254, 126) ∨
      (s, k, top, bot, t) = (6, 127, 191, 255, 126) ∨ (s, k, top, bot, t) = (7, 127, 127, 255, 127)) :
    let st := combining s k (constant ⟨2, 3⟩)
    st.phase = .bfly ∧ st.s.toNat < 8 ∧ st.k.toNat < 128 ∧
    top.val = st.k.toNat / 2 ^ st.s.toNat * 2 * 2 ^ st.s.toNat + st.k.toNat % 2 ^ st.s.toNat ∧
    bot.val = top.val + 2 ^ st.s.toNat ∧ t.val = st.k.toNat % 2 ^ st.s.toNat * (128 / 2 ^ st.s.toNat) ∧
    st.wBuf.re[top] = some 2 ∧ st.wBuf.im[top] = some 3 ∧ st.wBuf.re[bot] = some 2 ∧ st.wBuf.im[bot] = some 3 := by
  refine ⟨rfl, ?_, ?_, ?_, ?_, ?_, ?_, ?_, ?_, ?_⟩
  iterate 5 rcases h with h | h | h | h <;> · cases h; simp [combining]
  all_goals simp [combining, Bank.ofFrame, constant]

theorem witness_StepsFaultOnUndefElements :
    (let st := { State.reset with phase := .permute, i := 255 }
     st.phase = .permute ∧ st.i.toNat = (255 : Fin 256).val ∧ st.inBuf.re[(255 : Fin 256)] = none) ∧
    (let st := { State.reset with phase := .bfly, s := 7, k := 127 }
     st.phase = .bfly ∧ st.s.toNat < 8 ∧ st.k.toNat < 128 ∧
     (255 : Fin 256).val = (butterflyIndex st.s.toNat st.k.toNat).bot ∧
     (127 : Fin 256).val = (butterflyIndex st.s.toNat st.k.toNat).top ∧ st.wBuf.re[(255 : Fin 256)] = none ∧
     st.wBuf.im[(127 : Fin 256)] = none) ∧
    (let st := { State.reset with phase := .write, n := 0 }
     st.phase = .write ∧ st.n.toNat = (0 : Fin 256).val ∧ st.params.outDepth.hasRoom st.outChan.length = true ∧
     st.wBuf.im[(0 : Fin 256)] = none) := by
  refine ⟨⟨rfl, rfl, ?_⟩, ⟨rfl, by decide, by decide, by decide, by decide, ?_, ?_⟩, rfl, rfl, rfl, ?_⟩ <;>
    simp [State.reset, Bank.undef]

theorem witness_StagesApplyEveryButterfly :
    (7 : BitVec 4).toNat < 8 ∧ (127 : Nat) < 128 ∧ 8 ≤ (8 : BitVec 4).toNat ∧ 8 ≤ (15 : BitVec 4).toNat := by decide

theorem witness_StageOrderIsImmaterial : (7 : Nat) < 8 ∧ (List.range 128).reverse.Perm (List.range 128) :=
  ⟨by decide, List.reverse_perm _⟩

theorem witness_PermuteOrderIsImmaterial : (List.range 256).reverse.Perm (List.range 256) := List.reverse_perm _

theorem witness_BinZeroAndBin128AreSums : twRead defaultTwTable 0 = ⟨0x00010000, 0x00000000⟩ := by decide +kernel

theorem witness_PhaseFunctionsReadTheBuffers :
    (7 : BitVec 4).toNat < 8 ∧ (permuting 0 ramp).inBuf = Bank.ofFrame ramp ∧ (combining 0 0 ramp).wBuf = Bank.ofFrame ramp ∧
    (∃ j : Fin 256, State.reset.inBuf.re[j] = none ∨ State.reset.inBuf.im[j] = none) ∧
    (∃ j : Fin 256, State.reset.wBuf.re[j] = none ∨ State.reset.wBuf.im[j] = none) :=
  ⟨by decide, rfl, rfl, ⟨255, .inl (by simp [State.reset, Bank.undef])⟩, 0, .inr (by simp [State.reset, Bank.undef])⟩

/-- Policy false: a bad word at position 0 and one at position 255. -/
theorem witness_ReadFrameFindsTheFirstBadWord_error :
    (0 < [word 1 true].length ∧ framingCheck 0 (word 1 true).last = false) ∧
    (∃ h : 255 < (words 256 256).length, framingCheck 255 (words 256 256)[255].last = false ∧
      ∀ j (hj : j < 255), framingCheck j ((words 256 256)[j]'(Nat.lt_trans hj h)).last = true) ∧
    State.reset.params.drainOnFramingError = false := by
  have enough : 255 < (words 256 256).length := by rw [words_length]; omega
  refine ⟨⟨by decide, by decide⟩, ⟨enough, ?_, fun j hj => ?_⟩, rfl⟩
  · simp [words, word, framingCheck]
  · simp [words, word, framingCheck]; omega

/-- Policy true: a bad word in 256; no bad word in 256; and sequences that are too short. -/
theorem witness_ReadFrameFindsTheFirstBadWord_rest :
    (∃ h : 128 < (words 256 128).length, framingCheck 128 (words 256 128)[128].last = false ∧
      256 ≤ (words 256 128).length ∧ draining.drainOnFramingError = true) ∧
    (∃ h : 256 ≤ (words 256 255).length, ∀ j (hj : j < 256), framingCheck j ((words 256 255)[j]'(by omega)).last = true) ∧
    ((words 255 300).length < 256 ∧ draining.drainOnFramingError = true ∧
      ∀ j (hj : j < (words 255 300).length), framingCheck j (words 255 300)[j].last = true) := by
  refine ⟨⟨by simp [words], by simp [words, word, framingCheck], by simp [words], rfl⟩,
    ⟨by simp [words], fun j hj => ?_⟩, by simp [words], rfl, fun j hj => ?_⟩
  · simp [words, word, framingCheck]; omega
  · have : j < 255 := by simpa [words] using hj
    simp [words, word, framingCheck]; omega

/-- Policy false: a good word below 255, a good word at 255, a bad word at either. Policy true: no error below 255; at 255 a
late error and a missing last. -/
theorem witness_ReadWordTakesTheHeadWord :
    (∀ n : Fin 256, n.val = 254 ∨ n.val = 255 → ∀ last, let st := reading (BitVec.ofNat 9 n) [word 1 last]
      st.phase = .read ∧ st.n.toNat = n.val ∧ st.inChan = word 1 last :: []) ∧
    (!framingCheck 254 false) = false ∧ (!framingCheck 255 true) = false ∧ (!framingCheck 254 true) = true ∧
    (!framingCheck 255 false) = true ∧
    (decide ((254 : Nat) = 255) && (true || (true && !framingCheck 254 true))) = false ∧
    (decide ((255 : Nat) = 255) && (false || (true && !framingCheck 255 true))) = false ∧
    (decide ((255 : Nat) = 255) && (true || (true && !framingCheck 255 true))) = true ∧
    (decide ((255 : Nat) = 255) && (false || (true && !framingCheck 255 false))) = true := by
  refine ⟨fun n _ last => ⟨rfl, ?_, rfl⟩, by decide⟩
  simp [reading]; omega

theorem witness_KeepAndStrbAreIgnored :
    (let st := reading 255 []
     let w := word 5 true
     let v : TransportWord := ⟨5, 0x00, 0x12, true⟩
     st.phase = .read ∧ st.n.toNat < 256 ∧ w.data = v.data ∧ w.last = v.last) ∧
    (∃ t, exec .writeWord (writing 0 (constant ⟨0x01000000, 0⟩)) = .next t) :=
  ⟨by decide, (next_of_look test_writeWord).imp fun _ h => h.1⟩

theorem witness_WriteWordPushesTheNextSample (n : Fin 256) (_ : n.val = 254 ∨ n.val = 255) :
    let st := writing (BitVec.ofNat 9 n) (constant ⟨2, 3⟩)
    st.phase = .write ∧ st.n.toNat = n.val ∧ st.params.outDepth.hasRoom st.outChan.length = true ∧
    st.wBuf.re[n] = some 2 ∧ st.wBuf.im[n] = some 3 := by
  refine ⟨rfl, ?_, rfl, ?_, ?_⟩
  · simp [writing]; omega
  · simp [writing, Bank.ofFrame, constant]
  · simp [writing, Bank.ofFrame, constant]

theorem witness_StepsThatAreNotEnabledChangeNothing :
    (State.reset.phase ≠ .read ∧ State.reset.phase ≠ .permute ∧ State.reset.phase ≠ .bfly ∧ State.reset.phase ≠ .write) ∧
    256 ≤ (256 : BitVec 9).toNat ∧ (reading 0 []).inChan = [] ∧ 8 ≤ (8 : BitVec 4).toNat ∧ 128 ≤ (128 : BitVec 8).toNat ∧
    (let st := { writing 0 zeros with params := oneDeep, outChan := [word 1 false] }
     st.params.outDepth.hasRoom st.outChan.length = false) := by decide

theorem witness_StartBeginsATransform :
    State.reset.phase = .idle ∧ { State.reset with doneFlag := true, status := .ok }.phase = .idle := ⟨rfl, rfl⟩

theorem witness_StartWhileBusyMarksForGood :
    (reading 3 []).phase ≠ .idle ∧ { State.reset with protocolFault := true }.protocolFault = true ∧
    (∃ t, exec .reset { State.reset with protocolFault := true } = .next t) := ⟨by decide, rfl, _, rfl⟩

theorem goodWords_readFrame (drain : Bool) : ∃ x, readFrame drain (words 256 255) = .ok x 256 := by
  have good : firstBad (words 256 255) = none := by decide +kernel
  have enough : 256 ≤ (words 256 255).length := by simp [words]
  exact ⟨_, by simp only [readFrame, good, dif_pos enough]; rfl⟩

theorem earlyLast_readFrame : readFrame false (words 256 128) = .framingError 129 ∧
    readFrame true (words 256 128) = .framingError 256 := by decide +kernel

theorem witness_TransformComposesTheUnits :
    readFrame State.reset.params.drainOnFramingError (words 256 128) = .framingError 129 ∧
    (∃ x c, readFrame State.reset.params.drainOnFramingError (words 256 255) = .ok x c) ∧
    readFrame State.reset.params.drainOnFramingError [] = .waits :=
  ⟨earlyLast_readFrame.1, (goodWords_readFrame false).imp fun _ h => ⟨256, h⟩, by decide +kernel⟩

theorem witness_TransportFaultEndsRead : (reading 255 []).phase = .read ∧ State.reset.phase ≠ .read := ⟨rfl, by decide⟩

/-! #### Rules of the whole machine -/

def finishedOk : State := { State.reset with doneFlag := true, status := .ok }

theorem finishedOk_consistent : finishedOk.Consistent :=
  ⟨trivial, ⟨rfl, rfl⟩, ⟨by decide, fun h => absurd rfl h⟩, fun h => (by cases h), ⟨rfl, rfl⟩⟩

/-- A running machine: the READ phase with nothing read yet. -/
theorem reading_consistent (ws : List TransportWord) : (reading 0 ws).Consistent :=
  ⟨(by decide : (0 : BitVec 9).toNat < 256),
    ⟨fun j => by simp [reading, State.reset, Bank.undefAt, Bank.undef], rfl⟩,
    ⟨by simp [reading, State.reset], fun _ => rfl⟩, fun _ _ => rfl, ⟨rfl, rfl⟩⟩

theorem witness_StepKeepsConsistent :
    (reading 0 [word 5 true]).Consistent ∧ ∃ t, step (reading 0 [word 5 true]) = .next t :=
  ⟨reading_consistent _, _, rfl⟩

theorem witness_SequencerStepsNeverFault :
    finishedOk.Consistent ∧ finishedOk.protocolFault = false ∧ finishedOk.agenda = [] := ⟨finishedOk_consistent, rfl, rfl⟩

theorem witness_EngineWaitsExactlyWhenBlocked :
    (reading 0 []).Consistent ∧ (reading 0 []).engineEnabled = false ∧
    (reading 0 [word 5 true]).Consistent ∧ (reading 0 [word 5 true]).engineEnabled = true :=
  ⟨reading_consistent _, by decide, reading_consistent _, by decide⟩

/-- For SequencerFollowsTheTable, OnlyReaderAndWriterTouchTheChannels and BuffersAndStatusHaveTheirWriters: operations that
answer a next state, one of them an error. -/
theorem witness_exec_next :
    (∃ t, exec .start .reset = .next t) ∧ (∃ t, exec .reset .reset = .next t) ∧
    (∃ t, exec .readWord (reading 0 [word 5 true]) = .next t ∧ t.status = .framingError ∧
      t.status ≠ (reading 0 [word 5 true]).status) ∧
    (∃ t, exec .permuteStep (permuting 255 ramp) = .next t ∧ t.phase ≠ .idle) := by
  refine ⟨⟨_, rfl⟩, ⟨_, rfl⟩, ⟨_, rfl, rfl, by decide⟩, ?_⟩
  obtain ⟨t, h, view⟩ := next_of_look test_permuteStep_last
  exact ⟨t, h, by simp_all⟩

theorem witness_ParametersNeverChange : ∃ t, step .reset = .next t := ⟨_, rfl⟩

theorem witness_DeadCountersAreNeverRead :
    { State.reset with n := 5, k := 128, ferr := true, draws := 7 }.forgetDead = State.reset.forgetDead := rfl

theorem witness_StepRunsTheDecodedOperation :
    (due [.one (.operation [0x14])]).protocolFault = false ∧
    (due [.one (.operation [0x14])]).agenda = .one (.operation [0x14]) :: [] ∧ decode [0x14] = .ok (.start, []) ∧
    decodeTableWord 8 0x17 = some .reset := ⟨rfl, rfl, by decide, by decide⟩

theorem witness_EngineRunsTheOperationOfItsPhase :
    (reading 0 []).protocolFault = false ∧ (reading 0 []).agenda = [] ∧ (reading 0 []).phase = .read ∧
    (due [.one .recv]).agenda = .one .recv :: [] ∧ Action.ready (due [.one .recv]) .recv = false ∧
    (due [.one .recv]).phase = .idle ∧ (permuting 0 zeros).phase = .permute ∧ (combining 0 0 zeros).phase = .bfly ∧
    (writing 0 zeros).phase = .write := ⟨rfl, rfl, rfl, rfl, rfl, rfl, rfl, rfl, rfl⟩

theorem witness_WaitAndSettleHoldTheAgenda :
    (let st := due [.one .waitDone]
     st.protocolFault = false ∧ st.agenda = .one .waitDone :: [] ∧ st.doneFlag = false ∧
     { st with doneFlag := true }.doneFlag = true) ∧
    (due [.one .settle]).engineEnabled = false ∧
    { reading 0 [word 1 false] with agenda := [.one .settle] }.engineEnabled = true ∧
    (let st := { due [.one (.send (word 2 false))] with params := oneDeep, inChan := [word 1 false] }
     st.agenda = .one (.send (word 2 false)) :: [] ∧ st.params.inDepth.hasRoom st.inChan.length = false) ∧
    (due [.one .recv]).outChan = [] := by
  refine ⟨⟨rfl, rfl, rfl, rfl⟩, by decide, by decide, ⟨rfl, rfl⟩, rfl⟩

theorem witness_ProducerAppendsAndConsumerRemoves :
    (let st := { due [.one (.send (word 2 false))] with params := oneDeep }
     st.protocolFault = false ∧ st.agenda = .one (.send (word 2 false)) :: [] ∧
     st.params.inDepth.hasRoom st.inChan.length = true) ∧
    (let st := { due [.one .recv] with outChan := [word 3 true] }
     st.protocolFault = false ∧ st.agenda = .one .recv :: [] ∧ st.outChan = word 3 true :: []) :=
  ⟨⟨rfl, rfl, rfl⟩, rfl, rfl, rfl⟩

theorem witness_ResetWinsOverCoincidentMoves :
    (let st := due [.together [.send (word 2 false), .operation (encode .reset)]]
     st.protocolFault = false ∧ st.agenda = .together [.send (word 2 false), .operation (encode .reset)] :: [] ∧
     Action.operation (encode .reset) ∈ [Action.send (word 2 false), .operation (encode .reset)]) ∧
    (∀ a ∈ [Action.send (word 2 false), .operation (encode .transportFault), .engineStep], a.isReset = false) :=
  ⟨⟨rfl, rfl, by simp⟩, by decide⟩

/-! #### Phases as functions -/

/-- A good frame and one more word; the early last under each policy. -/
theorem witness_ReaderStepsComputeReadFrame :
    (let st := reading 0 (words 256 255 ++ [word 9 true])
     st.protocolFault = false ∧ st.agenda = [] ∧ st.phase = .read ∧ st.n = 0 ∧ st.ferr = false ∧
     (words 256 255).length = 256 ∧ ∃ x, readFrame st.params.drainOnFramingError (words 256 255) = .ok x 256) ∧
    ([word 1 true].length = 1 ∧ readFrame State.reset.params.drainOnFramingError [word 1 true] = .framingError 1) ∧
    ((words 256 128).length = 256 ∧ readFrame draining.drainOnFramingError (words 256 128) = .framingError 256) :=
  ⟨⟨rfl, rfl, rfl, rfl, rfl, by simp [words], goodWords_readFrame false⟩, ⟨rfl, by decide +kernel⟩, by simp [words],
    earlyLast_readFrame.2⟩

theorem witness_PermuteStepsComputePermute :
    let st := permuting 0 ramp
    st.protocolFault = false ∧ st.agenda = [] ∧ st.phase = .permute ∧ st.i = 0 ∧ st.inBuf = Bank.ofFrame ramp :=
  ⟨rfl, rfl, rfl, rfl, rfl⟩

theorem witness_ButterflyStepsComputeBflyCore :
    let st := combining 0 0 ramp
    st.protocolFault = false ∧ st.agenda = [] ∧ st.phase = .bfly ∧ st.s = 0 ∧ st.k = 0 ∧ st.wBuf = Bank.ofFrame ramp :=
  ⟨rfl, rfl, rfl, rfl, rfl, rfl⟩

/-- OUT has room for exactly the frame. -/
theorem witness_WriterStepsAppendWriteFrame :
    let st := { writing 0 ramp with params := { defaultParams with outDepth := .bounded 256 } }
    st.protocolFault = false ∧ st.agenda = [] ∧ st.phase = .write ∧ st.n = 0 ∧ st.wBuf = Bank.ofFrame ramp ∧
    ∀ j, j < 256 → st.params.outDepth.hasRoom (st.outChan.length + j) = true := by
  refine ⟨rfl, rfl, rfl, rfl, rfl, fun j hj => ?_⟩
  simpa [Depth.hasRoom, writing, State.reset] using hj

theorem words_wellFormed : wellFormedFrame (words 256 255) := ⟨by simp [words], fun n h => by simp [words, word]⟩

/-- A machine in IDLE whose next turn is START, with `ws` in IN. -/
def starting (ws : List TransportWord) : State := { due [.one (.operation (encode .start))] with inChan := ws }

theorem witness_TransformCompletesIn1793Steps :
    let st := starting (words 256 255 ++ [word 9 false])
    st.protocolFault = false ∧ st.agenda = [.one (.operation (encode .start))] ∧ st.phase = .idle ∧
    st.inChan = words 256 255 ++ [word 9 false] ∧ wellFormedFrame (words 256 255) ∧
    (∀ (n : BitVec 8) (w : TransportWord), (words 256 255)[n.toNat]? = some w → zeros.read n = unpack w.data) ∧
    (∀ j, j < 256 → st.params.outDepth.hasRoom (st.outChan.length + j) = true) := by
  refine ⟨rfl, rfl, rfl, rfl, words_wellFormed, fun n w h => ?_, fun j _ => rfl⟩
  have : w = word 0 (decide (n.toNat = 255)) := by simpa [words, n.isLt, eq_comm] using h
  subst this
  simp [zeros, constant, Frame.read, word, unpack]

/-- The second machine's words carry other keep and strb, and its OUT and outcome differ. -/
theorem witness_TransformsAreIndependent :
    let st₁ := starting (words 256 255)
    let u₂ := (words 256 255).map fun w => { w with keep := 0, strb := 0x12 }
    let st₂ := { starting (u₂ ++ [word 9 false]) with outChan := [word 7 true], doneFlag := true, status := .ok }
    (∀ st, st = st₁ ∨ st = st₂ → st.protocolFault = false ∧ st.agenda = [.one (.operation (encode .start))] ∧
      st.phase = .idle ∧ ∀ j, j < 256 → st.params.outDepth.hasRoom (st.outChan.length + j) = true) ∧
    st₁.inChan = words 256 255 ++ [] ∧ st₂.inChan = u₂ ++ [word 9 false] ∧ wellFormedFrame (words 256 255) ∧
    wellFormedFrame u₂ ∧ (words 256 255).map TransportWord.data = u₂.map TransportWord.data ∧
    st₁.params.twTable = st₂.params.twTable := by
  refine ⟨?_, by simp [starting], rfl, words_wellFormed, ⟨by simp [words], fun n h => by simp [words, word]⟩,
    by simp [Function.comp_def], rfl⟩
  rintro st (rfl | rfl)
  · exact ⟨rfl, rfl, rfl, fun _ _ => rfl⟩
  · exact ⟨rfl, rfl, rfl, fun _ _ => rfl⟩

end Sys2Proof.Tests
end

section
/-! SUPPORT. The scope of a step (00_scope.md R10): what the engine and the producer do where no step of theirs is enabled,
and what the agenda's next operation is to the machine. -/

namespace Sys2Proof.Machine

variable {st : State}

/-! ### Where a step is not enabled -/

theorem readEnabled_eq_false_iff : st.readEnabled = false ↔ st.phase ≠ .read ∨ 256 ≤ st.n.toNat := by
  simp [State.readEnabled, imp_iff_not_or]

theorem permuteEnabled_eq_false_iff : st.permuteEnabled = false ↔ st.phase ≠ .permute ∨ 256 ≤ st.i.toNat := by
  simp [State.permuteEnabled, imp_iff_not_or]

theorem bflyEnabled_eq_false_iff :
    st.bflyEnabled = false ↔ st.phase ≠ .bfly ∨ 8 ≤ st.s.toNat ∨ 128 ≤ st.k.toNat := by
  simp [State.bflyEnabled, imp_iff_not_or, or_assoc]

theorem writeEnabled_eq_false_iff :
    st.writeEnabled = false ↔ st.phase ≠ .write ∨ 256 ≤ st.n.toNat ∨ st.outHasRoom = false := by
  simp [State.writeEnabled, imp_iff_not_or, or_assoc]

theorem execReadWord_of_not_enabled (h : st.readEnabled = false) : execReadWord st = .next st := by
  simp [execReadWord, h]

/-- R167. `readEnabled` leaves IN out, so an empty IN is a case of its own. -/
theorem execReadWord_of_inChan_nil (h : st.inChan = []) : execReadWord st = .next st := by
  simp [execReadWord, h]

theorem execPermuteStep_of_not_enabled (h : st.permuteEnabled = false) : execPermuteStep st = .next st := by
  simp [execPermuteStep, h]

theorem execButterfly_of_not_enabled (h : st.bflyEnabled = false) : execButterfly st = .next st := by
  simp [execButterfly, h]

theorem execWriteWord_of_not_enabled (h : st.writeEnabled = false) : execWriteWord st = .next st := by
  simp [execWriteWord, h]

theorem execTransportFault_of_phase_ne (h : st.phase ≠ .read) : execTransportFault st = .next st := if_neg h

/-! ### The operation that is due -/

theorem runCode_of_decode {code tail : List Byte} {i : Instr} (h : decode code = .ok (i, tail)) (st : State) :
    runCode code st = exec i st := by
  simp [runCode, h]

/-- An operation is always ready, so the agenda's next one is the step (log 4). -/
theorem step_operation {code : List Byte} {rest : List Turn} (hm : st.protocolFault = false)
    (ha : st.agenda = .one (.operation code) :: rest) : step st = runCode code (st.setAgenda rest) :=
  step_ready hm ha rfl

theorem decodeTableWord_eq_some_iff {nbits w : Nat} {i : Instr} :
    decodeTableWord nbits w = some i ↔ ∃ tail, decode (tableCode nbits w) = .ok (i, tail) := by
  unfold decodeTableWord
  cases decode (tableCode nbits w) with
  | ok r => simp [Prod.ext_iff]
  | error why => simp

@[simp] theorem withFetchWord_agenda (st : State) (nbits w : Nat) :
    (st.withFetchWord nbits w).agenda = .one (.operation (tableCode nbits w)) :: st.agenda := rfl

@[simp] theorem withFetchWord_protocolFault (st : State) (nbits w : Nat) :
    (st.withFetchWord nbits w).protocolFault = st.protocolFault := rfl

/-- Taking the placed turn off the agenda gives back the state itself (log 8). -/
@[simp] theorem withFetchWord_setAgenda (st : State) (nbits w : Nat) :
    (st.withFetchWord nbits w).setAgenda st.agenda = st := rfl

theorem step_withFetchWord (nbits w : Nat) (hm : st.protocolFault = false) :
    step (st.withFetchWord nbits w) = runCode (tableCode nbits w) st := by
  rw [step_operation (by simpa using hm) (withFetchWord_agenda st nbits w), withFetchWord_setAgenda]

/-! ### The obligations -/

/-- Settles O33: the listed cases are those in which a step's enabling condition (R10) is false. READ_WORD alone has one more,
an empty IN. -/
theorem stepsThatAreNotEnabledChangeNothing : Obligations.StepsThatAreNotEnabledChangeNothing := by
  intro st
  refine ⟨fun h => ?read, fun h => ?permute, fun h => ?butterfly, fun h => ?write, execTransportFault_of_phase_ne⟩
  case read =>
    rcases or_assoc.mpr h with outside | empty
    · exact execReadWord_of_not_enabled (readEnabled_eq_false_iff.mpr outside)
    · exact execReadWord_of_inChan_nil empty
  case permute => exact execPermuteStep_of_not_enabled (permuteEnabled_eq_false_iff.mpr h)
  case butterfly => exact execButterfly_of_not_enabled (bflyEnabled_eq_false_iff.mpr h)
  case write => exact execWriteWord_of_not_enabled (writeEnabled_eq_false_iff.mpr h)

/-- Settles O50: the step is `runCode` of the code that is due, and that is `exec` of what the code decodes to. -/
theorem stepRunsTheDecodedOperation : Obligations.StepRunsTheDecodedOperation := by
  refine ⟨fun st code tail rest i hm ha hd => ?due, fun st nbits w i hm hd => ?placed⟩
  case due =>
    calc step st = runCode code (st.setAgenda rest) := step_operation hm ha
      _ = exec i (st.setAgenda rest) := runCode_of_decode hd _
  case placed =>
    obtain ⟨tail, hcode⟩ := decodeTableWord_eq_some_iff.mp hd
    calc step (st.withFetchWord nbits w) = runCode (tableCode nbits w) st := step_withFetchWord nbits w hm
      _ = exec i st := runCode_of_decode hcode st

end Sys2Proof.Machine
end

section
/-! SUPPORT. Where a step is enabled, and what START, TRANSPORT_FAULT, the engine's turn and the agenda's first turn come to in each
case. -/

namespace Sys2Proof

theorem Depth.holds_of_le {d : Depth} {a b : Nat} (hab : a ≤ b) (h : d.holds b = true) : d.holds a = true := by
  cases d with
  | unbounded => rfl
  | bounded words => simp only [Depth.holds, decide_eq_true_eq] at h ⊢; omega

theorem Depth.holds_succ {d : Depth} {a : Nat} (h : d.hasRoom a = true) : d.holds (a + 1) = true := by
  cases d with
  | unbounded => rfl
  | bounded words => simpa [Depth.holds, Depth.hasRoom] using h

end Sys2Proof

namespace Sys2Proof.Machine

variable {st : State}

theorem readEnabled_eq_true_iff : st.readEnabled = true ↔ st.phase = .read ∧ st.n.toNat < 256 := by
  simp [State.readEnabled]

theorem permuteEnabled_eq_true_iff : st.permuteEnabled = true ↔ st.phase = .permute ∧ st.i.toNat < 256 := by
  simp [State.permuteEnabled]

theorem bflyEnabled_eq_true_iff :
    st.bflyEnabled = true ↔ st.phase = .bfly ∧ st.s.toNat < 8 ∧ st.k.toNat < 128 := by
  simp [State.bflyEnabled, and_assoc]

theorem writeEnabled_eq_true_iff :
    st.writeEnabled = true ↔ st.phase = .write ∧ st.n.toNat < 256 ∧ st.outHasRoom = true := by
  simp [State.writeEnabled, and_assoc]

theorem execStart_of_idle (hp : st.phase = .idle) : execStart st = .next st.begin := if_pos hp

theorem execStart_of_busy (hp : st.phase ≠ .idle) : execStart st = .next st.markProtocolFault := if_neg hp

theorem execTransportFault_of_read (hp : st.phase = .read) :
    execTransportFault st = .next (st.errorEntry .transportError) := if_pos hp

theorem engineTurn_of_phase {op : Instr} (h : engineOperation st.phase = some op) : engineTurn st = exec op st := by
  rw [engineTurn, h]

theorem step_turn {turn : Turn} {rest : List Turn} (hm : st.protocolFault = false)
    (ha : st.agenda = turn :: rest) : step st = takeTurn st rest turn := by
  simp [step, advance, hm, ha]

end Sys2Proof.Machine
end

section
/-! SUPPORT. The effects of a step (10_state.md): an invariant of every agent's move is an invariant of every step, and what
the operations leave of the channels, the buffers, DONE and STATUS. -/

namespace Sys2Proof.Machine

variable {st t : State} {i : Instr}

/-! ### Invariants of every agent -/

/-- The engine's turn runs an operation, or has none (IDLE) and leaves the state, an effect that every operation can have. -/
theorem engineTurn_effect (h : engineTurn st = .next t) : ∃ i, Effect st i t := by
  unfold engineTurn at h
  split at h
  · exact ⟨_, exec_effect h⟩
  · cases h; exact ⟨.reset, .unchanged _⟩

/-- What the agenda, every operation, the producer and the consumer keep (R20), a step keeps. -/
theorem step_keeps {P : State → Prop} (agenda : ∀ u turns, P u → P (u.setAgenda turns))
    (effect : ∀ u i v, Effect u i v → P u → P v)
    (send : ∀ u w, u.inHasRoom = true → P u → P (u.pushIn w))
    (recv : ∀ u w ws, u.outChan = w :: ws → P u → P ((u.setOutChan ws).take w))
    (h : step st = .next t) (hP : P st) : P t := by
  cases step_effect h with
  | engine h =>
    obtain ⟨i, e⟩ := engineTurn_effect h
    exact effect _ i _ e hP
  | engineTurn rest h =>
    obtain ⟨i, e⟩ := engineTurn_effect h
    exact effect _ i _ e (agenda _ rest hP)
  | operation i rest h => exact effect _ i _ (exec_effect h) (agenda _ rest hP)
  | sent w rest hroom => exact send _ w hroom (agenda _ rest hP)
  | received w ws rest hout => exact recv _ w ws hout (agenda _ rest hP)
  | ordered rest => exact agenda _ rest hP

theorem Effect.params_eq (e : Effect st i t) : t.params = st.params := by
  cases e <;> rfl

/-! ### The obligations -/

/-- Settles O48: no agent's move writes the parameters. -/
theorem parametersNeverChange : Obligations.ParametersNeverChange := by
  intro st t h
  refine step_keeps (P := fun u => u.params = st.params) ?_ ?_ ?_ ?_ h rfl
  · exact fun u turns hP => hP
  · exact fun u i v e hP => e.params_eq.trans hP
  · exact fun u w hroom hP => hP
  · exact fun u w ws hout hP => hP

/-- Settles O46: of the effects of an operation only the two of READ_WORD change IN and only the two of WRITE_WORD change OUT,
and neither of those two ends in an error. -/
theorem onlyReaderAndWriterTouchTheChannels : Obligations.OnlyReaderAndWriterTouchTheChannels := by
  intro i st t h
  cases exec_effect h with
  | unchanged | value | moved | combined | begun | marked | failed | reset =>
    exact ⟨.inl rfl, .inl rfl, fun _ _ => rfl⟩
  | taken w rest b f hp _ hin | misframed w rest b hp _ hin =>
    exact ⟨.inr ⟨rfl, hp, w, hin⟩, .inl rfl, fun _ _ => rfl⟩
  | pushed v hp _ _ hroom =>
    exact ⟨.inl rfl, .inr ⟨rfl, hp, hroom, _, rfl⟩, fun _ hne => absurd rfl hne⟩
  | completed v hp _ hroom =>
    refine ⟨.inl rfl, .inr ⟨rfl, hp, hroom, _, rfl⟩, fun herr => ?_⟩
    rcases herr with herr | herr <;> cases herr

/-- Settles O47: the writers of each field are read off the list of effects. The discards are those that end in IDLE. -/
theorem buffersAndStatusHaveTheirWriters : Obligations.BuffersAndStatusHaveTheirWriters := by
  intro i st t h
  cases exec_effect h with
  | unchanged | value | marked =>
    exact ⟨fun _ => rfl, fun _ => rfl, fun _ => ⟨rfl, rfl⟩, fun _ => .inl rfl, fun _ => .inl rfl⟩
  | begun => exact ⟨fun _ => rfl, fun _ => rfl, by simp, fun _ => .inl rfl, fun _ => .inl rfl⟩
  | taken => exact ⟨by simp, by simp, by simp, fun _ => .inl rfl, fun _ => .inr rfl⟩
  | moved => exact ⟨fun _ => rfl, by simp, fun _ => ⟨rfl, rfl⟩, fun _ => .inr (.inl rfl), fun _ => .inl rfl⟩
  | combined => exact ⟨fun _ => rfl, by simp, fun _ => ⟨rfl, rfl⟩, fun _ => .inr (.inr rfl), fun _ => .inl rfl⟩
  | pushed => exact ⟨fun _ => rfl, fun _ => rfl, fun _ => ⟨rfl, rfl⟩, fun _ => .inl rfl, fun _ => .inl rfl⟩
  | misframed | completed | failed | reset =>
    exact ⟨by simp, by simp, by simp, fun hbusy => absurd rfl hbusy, fun hbusy => absurd rfl hbusy⟩

/-- Settles O53: a turn whose agent can move is performed. -/
theorem producerAppendsAndConsumerRemoves : Obligations.ProducerAppendsAndConsumerRemoves := by
  refine ⟨fun st w rest hm ha hroom => step_ready hm ha hroom, fun st w ws rest hm ha hout => ?_⟩
  have hready : Action.recv.ready st = true := by simp [Action.ready, hout]
  rw [step_ready hm ha hready]
  simp only [Action.perform, State.setAgenda_outChan, hout]
  rfl

end Sys2Proof.Machine
end

section
/-! SUPPORT. Elements that are `undef` (10_state.md R24): where a step or a phase function reads one, the machine stops. -/

namespace Sys2Proof.Machine

variable {st : State}

/-! ### Steps -/

theorem execPermuteStep_fault {f : Fault} (he : st.permuteEnabled = true) (hr : st.inBuf.read st.i.toNat = .error f) :
    execPermuteStep st = .fault f := by
  simp [execPermuteStep, he, permuteMove, hr]

theorem execWriteWord_fault {f : Fault} (he : st.writeEnabled = true) (hr : st.wBuf.read st.n.toNat = .error f) :
    execWriteWord st = .fault f := by
  simp [execWriteWord, he, outputWordAt, hr, Except.map]

theorem butterflyOn_undef (rom : TwTable) {s k : Nat} (hs : s < 8) (hk : k < 128) {w : Bank}
    (h : w.read (butterflyIndex s k).top = .error .undefRead ∨ w.read (butterflyIndex s k).bot = .error .undefRead) :
    butterflyOn rom s k w = .error .undefRead := by
  rcases butterflyOn_cases rom hs hk w with ⟨a, b, _, _, ha, hb, _⟩ | ⟨_, hfault⟩
  · simp [ha, hb] at h
  · exact hfault

theorem execButterfly_fault {f : Fault} (he : st.bflyEnabled = true)
    (hr : butterflyOn st.params.twTable st.s.toNat st.k.toNat st.wBuf = .error f) : execButterfly st = .fault f := by
  simp [execButterfly, he, hr]

/-! ### Phase functions -/

theorem frameOperand_ofFrame {own : Bank} {x : Frame} (h : own = Bank.ofFrame x) :
    frameOperand own .buffers = frameOperand own (.literal x) := by
  rw [h]
  exact Bank.toFrame_ofFrame x

theorem recordOfFrame_congr {own : Bank} {x y : FrameOperand} (h : frameOperand own x = frameOperand own y)
    (value : Frame → Result) : st.recordOfFrame own x value = st.recordOfFrame own y value := by
  rw [State.recordOfFrame, State.recordOfFrame, h]

theorem recordOfFrame_ofFrame {own : Bank} {x : Frame} (h : own = Bank.ofFrame x) (value : Frame → Result) :
    st.recordOfFrame own .buffers value = st.recordOfFrame own (.literal x) value :=
  recordOfFrame_congr (frameOperand_ofFrame h) value

theorem recordOfFrame_undef {own : Bank} (h : ∃ j : Fin 256, own.re[j] = none ∨ own.im[j] = none)
    (value : Frame → Result) : st.recordOfFrame own .buffers value = .fault .undefRead := by
  simp [State.recordOfFrame, frameOperand, Bank.toFrame_undef h]

theorem exec_stage_of_lt {s : BitVec 4} (hs : s.toNat < 8) (w : FrameOperand) :
    exec (.stage s w) st = st.recordOfFrame st.wBuf w fun f => .frame (stage st.params.twTable s.toNat f) := if_pos hs

/-! ### The obligations -/

/-- Settles O20: each of the three steps faults as its read does, and a read of an `undef` element is UndefRead. -/
theorem stepsFaultOnUndefElements : Obligations.StepsFaultOnUndefElements := by
  intro st j
  refine ⟨fun hp hi hno => ?permute, fun hp hs hk hj hno => ?butterfly, fun hp hn hroom hno => ?write⟩
  case permute =>
    refine execPermuteStep_fault (permuteEnabled_eq_true_iff.mpr ⟨hp, hi ▸ j.isLt⟩) ?_
    rw [hi]
    exact Bank.read_undef j.isLt hno
  case butterfly =>
    have hread : st.wBuf.read j = .error .undefRead := Bank.read_undef j.isLt hno
    refine execButterfly_fault (bflyEnabled_eq_true_iff.mpr ⟨hp, hs, hk⟩) (butterflyOn_undef _ hs hk ?_)
    rcases hj with htop | hbot
    · exact .inl (htop ▸ hread)
    · exact .inr (hbot ▸ hread)
  case write =>
    refine execWriteWord_fault (writeEnabled_eq_true_iff.mpr ⟨hp, hn ▸ j.isLt, hroom⟩) ?_
    rw [hn]
    exact Bank.read_undef j.isLt hno

/-- Settles O25: every phase function records its value through `recordOfFrame`, the only reader of the operand (log 10). -/
theorem phaseFunctionsReadTheBuffers : Obligations.PhaseFunctionsReadTheBuffers := by
  intro st x s hs
  simp only [exec_stage_of_lt hs]
  exact ⟨fun h => recordOfFrame_ofFrame h _,
    fun h => ⟨recordOfFrame_ofFrame h _, recordOfFrame_ofFrame h _, recordOfFrame_ofFrame h _⟩,
    fun h => recordOfFrame_undef h _,
    fun h => ⟨recordOfFrame_undef h _, recordOfFrame_undef h _, recordOfFrame_undef h _⟩⟩

/-- Settles O40: only the buffers need an argument, one for all 256 elements. -/
theorem resetStateHasTheSpecValues : Obligations.ResetStateHasTheSpecValues := by
  refine ⟨rfl, rfl, rfl, rfl, rfl, rfl, fun j => ?_⟩
  simp [State.reset, Bank.undef]

end Sys2Proof.Machine
end

section
/-! SUPPORT. The invariant of the machine (10_state.md R24, R27, R28, R31, R32): what it says in each phase, that each effect of an
operation keeps it, and what it says of the engine's next step. -/

namespace Sys2Proof.Machine

variable {st t : State} {i : Instr}

/-! ### Channels -/

theorem channelsWithinDepth_setInChan (h : st.channelsWithinDepth) {w : TransportWord} {rest : List TransportWord}
    (hin : st.inChan = w :: rest) : (st.setInChan rest).channelsWithinDepth :=
  ⟨Depth.holds_of_le (by simp [hin]) h.1, h.2⟩

theorem channelsWithinDepth_pushIn (h : st.channelsWithinDepth) (hroom : st.inHasRoom = true) (w : TransportWord) :
    (st.pushIn w).channelsWithinDepth :=
  ⟨by simpa using Depth.holds_succ hroom, h.2⟩

theorem channelsWithinDepth_setOutChan (h : st.channelsWithinDepth) {w : TransportWord} {ws : List TransportWord}
    (hout : st.outChan = w :: ws) : (st.setOutChan ws).channelsWithinDepth :=
  ⟨h.1, Depth.holds_of_le (by simp [hout]) h.2⟩

theorem channelsWithinDepth_pushOut (h : st.channelsWithinDepth) (hroom : st.outHasRoom = true) (w : TransportWord) :
    (st.pushOut w).channelsWithinDepth :=
  ⟨h.1, by simpa using Depth.holds_succ hroom⟩

/-! ### How far a buffer pair is filled -/

/-- The elements `order 0`, ..., `order (n - 1)` are defined and the others are `undef`. READ fills IN_* in the natural order
(R162), PERMUTE fills W_* in bit-reversed order (R121). -/
def Bank.FilledTo (b : Bank) (order : BitVec 8 → BitVec 8) (n : Nat) : Prop :=
  ∀ j, if j.toNat < n then b.definedAt (order j) else b.undefAt (order j)

theorem Bank.undefAt_undef (j : BitVec 8) : Bank.undef.undefAt j := by
  simp [Bank.undefAt, Bank.undef]

theorem Bank.filledTo_undef (order : BitVec 8 → BitVec 8) : Bank.undef.FilledTo order 0 :=
  fun j => Bank.undefAt_undef (order j)

/-- A write makes its own element defined and no element `undef`. -/
theorem Bank.definedAt_write {b b' : Bank} {m : Nat} {v : Sample} (h : b.write m v = .ok b') (j : BitVec 8) :
    b'.definedAt j ↔ m = j.toNat ∨ b.definedAt j := by
  obtain ⟨hm, rfl⟩ := Bank.write_eq_ok.mp h
  exact b.definedAt_set hm v.re v.im j

theorem Bank.undefAt_write {b b' : Bank} {m : Nat} {v : Sample} (h : b.write m v = .ok b') {j : BitVec 8}
    (hj : m ≠ j.toNat) : b'.undefAt j ↔ b.undefAt j := by
  obtain ⟨hm, rfl⟩ := Bank.write_eq_ok.mp h
  exact b.undefAt_set hm v.re v.im hj

section
variable {b b' : Bank} {order : BitVec 8 → BitVec 8} {n : Nat}

/-- The write of the next element in the order fills one element more. -/
theorem Bank.FilledTo.write (hb : b.FilledTo order n) (horder : Function.Injective order) (hn : n < 256) {v : Sample}
    (h : b.write (order (BitVec.ofNat 8 n)).toNat v = .ok b') : b'.FilledTo order (n + 1) := by
  intro j
  have hj := hb j
  have hnat : (BitVec.ofNat 8 n).toNat = n := by simp; omega
  by_cases hjn : j.toNat = n
  · have : BitVec.ofNat 8 n = j := BitVec.eq_of_toNat_eq (hnat.trans hjn.symm)
    rw [if_pos (by omega), Bank.definedAt_write h, this]
    exact .inl rfl
  · have hne : (order (BitVec.ofNat 8 n)).toNat ≠ (order j).toNat := fun e =>
      hjn ((congrArg BitVec.toNat (horder (BitVec.eq_of_toNat_eq e))).symm.trans hnat)
    by_cases hlt : j.toNat < n
    · rw [if_pos hlt] at hj
      rw [if_pos (by omega), Bank.definedAt_write h]
      exact .inr hj
    · rw [if_neg hlt] at hj
      rwa [if_neg (by omega), Bank.undefAt_write h hne]

theorem Bank.FilledTo.definedAt (hb : b.FilledTo order 256) (j : BitVec 8) : b.definedAt (order j) := by
  have hj := hb j
  rwa [if_pos j.isLt] at hj

end

/-- A move of the permuter is a write at the bit-reversed index. -/
theorem permuteMove_write {source target w : Bank} {m : Nat} (h : permuteMove source m target = .ok w) :
    ∃ v, target.write (bitrev8 (BitVec.ofNat 8 m)).toNat v = .ok w := by
  unfold permuteMove at h
  split at h
  · exact ⟨_, h⟩
  · cases h

/-- A butterfly is two writes, so it makes no element `undef`. -/
theorem butterflyOn_definedAt {rom : TwTable} {s k : Nat} (hs : s < 8) (hk : k < 128) {w w' : Bank}
    (h : butterflyOn rom s k w = .ok w') {j : BitVec 8} (hj : w.definedAt j) : w'.definedAt j := by
  rcases butterflyOn_cases rom hs hk w with ⟨_, _, _, _, _, _, hw₁, hw₂, e⟩ | ⟨_, e⟩
  · cases h.symm.trans e
    exact (Bank.definedAt_write hw₂ j).mpr (.inr ((Bank.definedAt_write hw₁ j).mpr (.inr hj)))
  · cases h.symm.trans e

/-! ### What the invariant says in each phase -/

theorem countersInRange_read (hp : st.phase = .read) : st.countersInRange ↔ st.n.toNat < 256 := by
  simp [State.countersInRange, hp]

theorem countersInRange_permute (hp : st.phase = .permute) : st.countersInRange ↔ st.i.toNat < 256 := by
  simp [State.countersInRange, hp]

theorem countersInRange_bfly (hp : st.phase = .bfly) : st.countersInRange ↔ st.s.toNat < 8 ∧ st.k.toNat < 128 := by
  simp [State.countersInRange, hp]

theorem countersInRange_write (hp : st.phase = .write) : st.countersInRange ↔ st.n.toNat < 256 := by
  simp [State.countersInRange, hp]

theorem buffersFollowPhase_idle (hp : st.phase = .idle) :
    st.buffersFollowPhase ↔ st.inBuf = Bank.undef ∧ st.wBuf = Bank.undef := by
  simp [State.buffersFollowPhase, hp]

theorem buffersFollowPhase_read (hp : st.phase = .read) :
    st.buffersFollowPhase ↔ st.inBuf.FilledTo id st.n.toNat ∧ st.wBuf = Bank.undef := by
  simp [State.buffersFollowPhase, hp, Bank.FilledTo]

theorem buffersFollowPhase_permute (hp : st.phase = .permute) :
    st.buffersFollowPhase ↔ (∀ j, st.inBuf.definedAt j) ∧ st.wBuf.FilledTo bitrev8 st.i.toNat := by
  simp [State.buffersFollowPhase, hp, Bank.FilledTo]

theorem buffersFollowPhase_bfly (hp : st.phase = .bfly) :
    st.buffersFollowPhase ↔ (∀ j, st.inBuf.definedAt j) ∧ ∀ j, st.wBuf.definedAt j := by
  simp [State.buffersFollowPhase, hp]

theorem buffersFollowPhase_write (hp : st.phase = .write) :
    st.buffersFollowPhase ↔ (∀ j, st.inBuf.definedAt j) ∧ ∀ j, st.wBuf.definedAt j := by
  simp [State.buffersFollowPhase, hp]

/-- A step within a transform does not touch DONE and STATUS. -/
theorem outcomeFollowsPhase_of_running (h : st.outcomeFollowsPhase) (hp : st.phase ≠ .idle) (hk : st.keepsOutcome t) :
    t.outcomeFollowsPhase := by
  obtain ⟨hdone, hrunning⟩ := h
  refine ⟨?_, fun _ => hk.status.trans (hrunning hp)⟩
  rw [hk.doneFlag, hk.status]
  exact hdone

/-! ### The effects keep the invariant -/

theorem consistent_of_endedWith {done : Bool} {code : Status} (h : t.endedWith done code)
    (hcode : done = true ↔ code ≠ .none) (hch : t.channelsWithinDepth) : t.Consistent where
  counters := by simp [State.countersInRange, h.phase]
  buffers := (buffersFollowPhase_idle h.phase).mpr ⟨h.inBuf, h.wBuf⟩
  outcome := ⟨by rw [h.doneFlag, h.status]; exact hcode, fun hp => absurd h.phase hp⟩
  ferr := by simp [State.ferrFollowsPolicy, h.phase]
  channels := hch

/-- A step of a running transform that leaves READ behind it: DONE and STATUS stand, and ferr has no meaning any more. -/
theorem consistent_past_read (h : st.Consistent) (hp : st.phase ≠ .idle) (hk : st.keepsOutcome t) (hr : t.phase ≠ .read)
    (counters : t.countersInRange) (buffers : t.buffersFollowPhase) (channels : t.channelsWithinDepth) : t.Consistent :=
  ⟨counters, buffers, outcomeFollowsPhase_of_running h.outcome hp hk, fun h => absurd h hr, channels⟩

/-- START in IDLE (R180): no buffer element is defined yet. -/
theorem consistent_begin (h : st.Consistent) (hp : st.phase = .idle) : st.begin.Consistent where
  counters := (countersInRange_read rfl).mpr (by simp [State.begin])
  buffers := by
    obtain ⟨hin, hw⟩ := (buffersFollowPhase_idle hp).mp h.buffers
    refine (buffersFollowPhase_read rfl).mpr ⟨?_, hw⟩
    show st.inBuf.FilledTo id 0
    rw [hin]
    exact Bank.filledTo_undef id
  outcome := by simp [State.outcomeFollowsPhase, State.begin, State.setOutcome]
  ferr := fun _ _ => rfl
  channels := h.channels

/-- A good word is stored at its index, and READ goes on, with PERMUTE after word 255 (R162). -/
theorem consistent_taken (h : st.Consistent) (hp : st.phase = .read) {w : TransportWord} {rest : List TransportWord}
    {b : Bank} {f : Bool} (hin : st.inChan = w :: rest) (hb : st.inBuf.write st.n.toNat (unpack w.data) = .ok b)
    (hf : st.params.drainOnFramingError = false → f = st.ferr) :
    ((((st.setInChan rest).setInBuf b).setFerr f).setSeq (afterRead st.n)).Consistent := by
  have hn : st.n.toNat < 256 := (countersInRange_read hp).mp h.counters
  obtain ⟨hfilled, hw⟩ := (buffersFollowPhase_read hp).mp h.buffers
  have hnext := succ9_toNat hn
  have hfilled' : b.FilledTo id (st.n + 1).toNat := by
    rw [hnext]
    exact hfilled.write (v := unpack w.data) Function.injective_id hn (by simpa [Nat.mod_eq_of_lt hn] using hb)
  have hrunning : st.phase ≠ .idle := by simp [hp]
  have hchannels := channelsWithinDepth_setInChan h.channels hin
  by_cases hlast : st.n = 255
  · rw [afterRead_last hlast]
    rw [hlast] at hfilled'
    refine consistent_past_read h hrunning ⟨rfl, rfl⟩ (by simp) ((countersInRange_permute rfl).mpr (by simp)) ?_ hchannels
    exact (buffersFollowPhase_permute rfl).mpr ⟨hfilled'.definedAt, by simpa [hw] using Bank.filledTo_undef bitrev8⟩
  · rw [afterRead_other hlast]
    have hlt := toNat_lt_255 hn hlast
    exact
      { counters := (countersInRange_read rfl).mpr (by simp only [State.setSeq_n, Position.read_counterN]; omega)
        buffers := (buffersFollowPhase_read rfl).mpr ⟨hfilled', hw⟩
        outcome := outcomeFollowsPhase_of_running h.outcome hrunning ⟨rfl, rfl⟩
        ferr := fun _ hdrain => (hf hdrain).trans (h.ferr hp hdrain)
        channels := hchannels }

/-- A sample is moved to its bit-reversed index, and PERMUTE goes on, with BFLY after index 255 (R121). -/
theorem consistent_moved (h : st.Consistent) (hp : st.phase = .permute) {w : Bank}
    (hw : permuteMove st.inBuf st.i.toNat st.wBuf = .ok w) : ((st.setWBuf w).setSeq (afterMove st.i)).Consistent := by
  have hi : st.i.toNat < 256 := (countersInRange_permute hp).mp h.counters
  obtain ⟨hin, hfilled⟩ := (buffersFollowPhase_permute hp).mp h.buffers
  obtain ⟨v, hv⟩ := permuteMove_write hw
  have hnext := succ9_toNat hi
  have hfilled' : w.FilledTo bitrev8 (st.i + 1).toNat := by
    rw [hnext]
    exact hfilled.write (fun _ _ => bitrev8_inj) hi hv
  have hrunning : st.phase ≠ .idle := by simp [hp]
  by_cases hlast : st.i = 255
  · rw [afterMove_last hlast]
    rw [hlast] at hfilled'
    refine consistent_past_read h hrunning ⟨rfl, rfl⟩ (by simp) ((countersInRange_bfly rfl).mpr (by simp)) ?_ h.channels
    exact (buffersFollowPhase_bfly rfl).mpr ⟨hin, fun j => bitrev8_bitrev8 j ▸ hfilled'.definedAt (bitrev8 j)⟩
  · rw [afterMove_other hlast]
    have hlt := toNat_lt_255 hi hlast
    refine consistent_past_read h hrunning ⟨rfl, rfl⟩ (by simp) ?_
      ((buffersFollowPhase_permute rfl).mpr ⟨hin, hfilled'⟩) h.channels
    exact (countersInRange_permute rfl).mpr (by simp only [State.setSeq_i, Position.permute_counterI]; omega)

/-- The three ways on from a butterfly (R143, R182): the next of the stage, the next stage, WRITE. -/
theorem afterButterfly_cases {s : BitVec 4} {k : BitVec 8} (hs : s.toNat < 8) (hk : k.toNat < 128) :
    (∃ s' k', afterButterfly s k = .bfly s' k' ∧ s'.toNat < 8 ∧ k'.toNat < 128) ∨ afterButterfly s k = .write 0 := by
  have hnextK := succ8_toNat hk
  have hnextS := succ4_toNat hs
  unfold afterButterfly
  split
  · exact .inl ⟨s, k + 1, rfl, hs, by omega⟩
  · split
    · exact .inl ⟨s + 1, 0, rfl, by omega, by simp⟩
    · exact .inr rfl

theorem consistent_combined (h : st.Consistent) (hp : st.phase = .bfly) {w : Bank}
    (hw : butterflyOn st.params.twTable st.s.toNat st.k.toNat st.wBuf = .ok w) :
    ((st.setWBuf w).setSeq (afterButterfly st.s st.k)).Consistent := by
  obtain ⟨hs, hk⟩ := (countersInRange_bfly hp).mp h.counters
  obtain ⟨hin, hdefined⟩ := (buffersFollowPhase_bfly hp).mp h.buffers
  have hdefined' : ∀ j, w.definedAt j := fun j => butterflyOn_definedAt hs hk hw (hdefined j)
  have hrunning : st.phase ≠ .idle := by simp [hp]
  rcases afterButterfly_cases hs hk with ⟨s', k', e, hs', hk'⟩ | e <;> rw [e]
  · exact consistent_past_read h hrunning ⟨rfl, rfl⟩ (by simp) ((countersInRange_bfly rfl).mpr ⟨hs', hk'⟩)
      ((buffersFollowPhase_bfly rfl).mpr ⟨hin, hdefined'⟩) h.channels
  · exact consistent_past_read h hrunning ⟨rfl, rfl⟩ (by simp) ((countersInRange_write rfl).mpr (by simp))
      ((buffersFollowPhase_write rfl).mpr ⟨hin, hdefined'⟩) h.channels

/-- A word before the last is pushed, and WRITE goes on (R165). -/
theorem consistent_pushed (h : st.Consistent) (hp : st.phase = .write) (hlast : st.n ≠ 255) (hroom : st.outHasRoom = true)
    (w : TransportWord) : ((st.pushOut w).setSeq (.write (st.n + 1))).Consistent := by
  have hn : st.n.toNat < 256 := (countersInRange_write hp).mp h.counters
  have hnext := succ9_toNat hn
  have hlt := toNat_lt_255 hn hlast
  refine consistent_past_read h (by simp [hp]) ⟨rfl, rfl⟩ (by simp) ?_
    ((buffersFollowPhase_write rfl).mpr ((buffersFollowPhase_write hp).mp h.buffers))
    (channelsWithinDepth_pushOut h.channels hroom w)
  exact (countersInRange_write rfl).mpr (by simp only [State.setSeq_n, Position.write_counterN]; omega)

theorem Effect.keeps_consistent (e : Effect st i t) (h : st.Consistent) : t.Consistent := by
  cases e with
  | unchanged => exact h
  | value r => exact ⟨h.counters, h.buffers, h.outcome, h.ferr, h.channels⟩
  | marked => exact ⟨h.counters, h.buffers, h.outcome, h.ferr, h.channels⟩
  | taken w rest b f hp _ hin hb _ hf => exact consistent_taken h hp hin hb fun hdrain => (hf hdrain).1
  | misframed w rest b _ _ hin =>
    exact consistent_of_endedWith (errorEntry_endedWith _ _) (by simp) (channelsWithinDepth_setInChan h.channels hin)
  | moved w hp _ hw => exact consistent_moved h hp hw
  | combined w hp _ _ hw => exact consistent_combined h hp hw
  | pushed v hp _ hlast hroom => exact consistent_pushed h hp hlast hroom _
  | completed v _ _ hroom =>
    exact consistent_of_endedWith (complete_endedWith _) (by simp) (channelsWithinDepth_pushOut h.channels hroom _)
  | begun hp => exact consistent_begin h hp
  | failed => exact consistent_of_endedWith (errorEntry_endedWith _ _) (by simp) h.channels
  | reset => exact consistent_of_endedWith (resetEngine_endedWith _) (by simp) h.channels

/-! ### The engine's next step -/

theorem engineEnabled_idle (hp : st.phase = .idle) : st.engineEnabled = false := by
  simp [State.engineEnabled, State.readEnabled, State.permuteEnabled, State.bflyEnabled, State.writeEnabled, hp]

theorem engineEnabled_read (hp : st.phase = .read) (hn : st.n.toNat < 256) :
    st.engineEnabled = !st.inChan.isEmpty := by
  simp [State.engineEnabled, State.readEnabled, State.permuteEnabled, State.bflyEnabled, State.writeEnabled, hp, hn]

theorem engineEnabled_permute (hp : st.phase = .permute) (hi : st.i.toNat < 256) : st.engineEnabled = true := by
  simp [State.engineEnabled, State.permuteEnabled, hp, hi]

theorem engineEnabled_bfly (hp : st.phase = .bfly) (hs : st.s.toNat < 8) (hk : st.k.toNat < 128) :
    st.engineEnabled = true := by
  simp [State.engineEnabled, State.bflyEnabled, hp, hs, hk]

theorem engineEnabled_write (hp : st.phase = .write) (hn : st.n.toNat < 256) : st.engineEnabled = st.outHasRoom := by
  simp [State.engineEnabled, State.readEnabled, State.permuteEnabled, State.bflyEnabled, State.writeEnabled, hp, hn]

theorem engineEnabled_eq_false_iff (h : st.Consistent) :
    st.engineEnabled = false ↔ st.phase = .idle ∨ (st.phase = .read ∧ st.inChan = []) ∨
      (st.phase = .write ∧ st.outHasRoom = false) := by
  have hc := h.counters
  cases hp : st.phase with
  | idle => simp [engineEnabled_idle hp]
  | read => simp [engineEnabled_read hp ((countersInRange_read hp).mp hc)]
  | permute => simp [engineEnabled_permute hp ((countersInRange_permute hp).mp hc)]
  | bfly =>
    obtain ⟨hs, hk⟩ := (countersInRange_bfly hp).mp hc
    simp [engineEnabled_bfly hp hs hk]
  | write => simp [engineEnabled_write hp ((countersInRange_write hp).mp hc)]

/-! ### The obligations -/

/-- Settles O41: reset is the end of no transform, with both channels empty. -/
theorem resetIsConsistent : Obligations.ResetIsConsistent :=
  consistent_of_endedWith (done := false) (code := .none) ⟨rfl, rfl, rfl, rfl, rfl⟩ (by simp) ⟨rfl, rfl⟩

/-- Settles O42: the effects of the operations keep the invariant, and the other agents touch the channels alone. -/
theorem stepKeepsConsistent : Obligations.StepKeepsConsistent := by
  intro st t h hstep
  refine step_keeps (P := State.Consistent) ?agenda ?effect ?send ?recv hstep h
  case agenda => exact fun u turns hu => ⟨hu.counters, hu.buffers, hu.outcome, hu.ferr, hu.channels⟩
  case effect => exact fun u i v e hu => e.keeps_consistent hu
  case send =>
    exact fun u w hroom hu =>
      ⟨hu.counters, hu.buffers, hu.outcome, hu.ferr, channelsWithinDepth_pushIn hu.channels hroom w⟩
  case recv =>
    exact fun u w ws hout hu =>
      ⟨hu.counters, hu.buffers, hu.outcome, hu.ferr, channelsWithinDepth_setOutChan hu.channels hout⟩

/-- Settles O44: the counters are below their bounds, so only an empty IN, a full OUT or IDLE keep the engine from a step. -/
theorem engineWaitsExactlyWhenBlocked : Obligations.EngineWaitsExactlyWhenBlocked := by
  intro st h
  refine ⟨engineEnabled_eq_false_iff h, fun hblocked => ?_⟩
  rcases (engineEnabled_eq_false_iff h).mp hblocked with hp | ⟨hp, hin⟩ | ⟨hp, hfull⟩
  · simp [engineTurn, hp, engineOperation]
  · rw [engineTurn_of_phase (op := .readWord) (by rw [hp]; rfl)]
    exact execReadWord_of_inChan_nil hin
  · rw [engineTurn_of_phase (op := .writeWord) (by rw [hp]; rfl)]
    exact execWriteWord_of_not_enabled (writeEnabled_eq_false_iff.mpr (.inr (.inr hfull)))

end Sys2Proof.Machine
end

section
/-! SUPPORT. Dead counters (10_state.md R26): what a state and the state without its dead counters have in common, and that each
move takes the two to outcomes that differ in dead counters alone. -/

namespace Sys2Proof.Machine

variable (st : State)

/-! ### The state without its dead counters -/

section
variable {st}

theorem forgetDead_n_of_read (hp : st.phase = .read) : st.forgetDead.n = st.n := by simp [State.forgetDead, hp]
theorem forgetDead_n_of_write (hp : st.phase = .write) : st.forgetDead.n = st.n := by simp [State.forgetDead, hp]
theorem forgetDead_ferr_of_drain (hp : st.phase = .read) (hd : st.params.drainOnFramingError = true) :
    st.forgetDead.ferr = st.ferr := by
  simp [State.forgetDead, hp, hd]
theorem forgetDead_i_of_permute (hp : st.phase = .permute) : st.forgetDead.i = st.i := by simp [State.forgetDead, hp]
theorem forgetDead_s_of_bfly (hp : st.phase = .bfly) : st.forgetDead.s = st.s := by simp [State.forgetDead, hp]
theorem forgetDead_k_of_bfly (hp : st.phase = .bfly) : st.forgetDead.k = st.k := by simp [State.forgetDead, hp]

end

@[simp] theorem forgetDead_phase : st.forgetDead.phase = st.phase := rfl
@[simp] theorem forgetDead_inBuf : st.forgetDead.inBuf = st.inBuf := rfl
@[simp] theorem forgetDead_wBuf : st.forgetDead.wBuf = st.wBuf := rfl
@[simp] theorem forgetDead_doneFlag : st.forgetDead.doneFlag = st.doneFlag := rfl
@[simp] theorem forgetDead_inChan : st.forgetDead.inChan = st.inChan := rfl
@[simp] theorem forgetDead_outChan : st.forgetDead.outChan = st.outChan := rfl
@[simp] theorem forgetDead_protocolFault : st.forgetDead.protocolFault = st.protocolFault := rfl
@[simp] theorem forgetDead_params : st.forgetDead.params = st.params := rfl
@[simp] theorem forgetDead_agenda : st.forgetDead.agenda = st.agenda := rfl
@[simp] theorem forgetDead_outHasRoom : st.forgetDead.outHasRoom = st.outHasRoom := rfl
@[simp] theorem forgetDead_inHasRoom : st.forgetDead.inHasRoom = st.inHasRoom := rfl

theorem forgetDead_forgetDead : st.forgetDead.forgetDead = st.forgetDead := by
  cases hp : st.phase <;> simp [State.forgetDead, hp]

@[simp] theorem forgetDead_readEnabled : st.forgetDead.readEnabled = st.readEnabled := by
  by_cases hp : st.phase = .read
  · simp [State.readEnabled, hp, forgetDead_n_of_read hp]
  · simp [State.readEnabled, hp]

@[simp] theorem forgetDead_permuteEnabled : st.forgetDead.permuteEnabled = st.permuteEnabled := by
  by_cases hp : st.phase = .permute
  · simp [State.permuteEnabled, hp, forgetDead_i_of_permute hp]
  · simp [State.permuteEnabled, hp]

@[simp] theorem forgetDead_bflyEnabled : st.forgetDead.bflyEnabled = st.bflyEnabled := by
  by_cases hp : st.phase = .bfly
  · simp [State.bflyEnabled, hp, forgetDead_s_of_bfly hp, forgetDead_k_of_bfly hp]
  · simp [State.bflyEnabled, hp]

@[simp] theorem forgetDead_writeEnabled : st.forgetDead.writeEnabled = st.writeEnabled := by
  by_cases hp : st.phase = .write
  · simp [State.writeEnabled, hp, forgetDead_n_of_write hp]
  · simp [State.writeEnabled, hp]

@[simp] theorem forgetDead_engineEnabled : st.forgetDead.engineEnabled = st.engineEnabled := by
  simp [State.engineEnabled]

theorem ready_forgetDead (a : Action) : a.ready st.forgetDead = a.ready st := by
  cases a <;> simp [Action.ready]

/-! ### The moves of the sequencer -/

/-- A new position reads no counter but ferr, and ferr stays alive from READ to READ alone. -/
theorem setSeq_forgetDead {p : Position} (h : st.phase = .read ∨ p.phase ≠ .read) :
    (st.forgetDead.setSeq p).forgetDead = (st.setSeq p).forgetDead := by
  cases p with
  | read n =>
    have hp : st.phase = .read := by simpa using h
    simp [State.forgetDead, State.setSeq, hp]
  | idle | permute | bfly | write => rfl

theorem setFerr_setSeq_forgetDead (b : Bool) (p : Position) :
    ((st.forgetDead.setFerr b).setSeq p).forgetDead = ((st.setFerr b).setSeq p).forgetDead := by
  cases p <;> rfl

theorem begin_forgetDead : st.forgetDead.begin.forgetDead = st.begin.forgetDead := rfl

theorem errorEntry_forgetDead (code : Status) :
    (st.forgetDead.errorEntry code).forgetDead = (st.errorEntry code).forgetDead := rfl

theorem complete_forgetDead : st.forgetDead.complete.forgetDead = st.complete.forgetDead := rfl

theorem resetEngine_forgetDead : st.forgetDead.resetEngine.forgetDead = st.resetEngine.forgetDead := rfl

/-- ferr decides the end of READ under the policy true, where it is no dead counter. -/
theorem judgeWord_forgetDead (hp : st.phase = .read) (bad : Bool) :
    (st.forgetDead.judgeWord bad).forgetDead = (st.judgeWord bad).forgetDead := by
  cases hd : st.params.drainOnFramingError with
  | false =>
    simp only [State.judgeWord, forgetDead_params, hd, Bool.false_eq_true, if_false, forgetDead_n_of_read hp]
    split
    · exact errorEntry_forgetDead st _
    · exact setSeq_forgetDead st (.inl hp)
  | true =>
    simp only [State.judgeWord, forgetDead_params, hd, if_true, forgetDead_n_of_read hp, forgetDead_ferr_of_drain hp hd]
    split
    · exact errorEntry_forgetDead st _
    · exact setFerr_setSeq_forgetDead st _ _

theorem afterMove_phase_ne_read (i : BitVec 9) : (afterMove i).phase ≠ .read := by
  unfold afterMove
  split <;> simp

theorem afterButterfly_phase_ne_read (s : BitVec 4) (k : BitVec 8) : (afterButterfly s k).phase ≠ .read := by
  unfold afterButterfly
  split_ifs <;> simp

/-! ### The operations -/

theorem forgetDeadOutcome_next {u v : State} (h : u.forgetDead = v.forgetDead) :
    forgetDeadOutcome (.next u) = forgetDeadOutcome (.next v) := congrArg Host.Outcome.next h

theorem unchanged_forgetDead : forgetDeadOutcome (.next st.forgetDead) = forgetDeadOutcome (.next st) :=
  forgetDeadOutcome_next (forgetDead_forgetDead st)

theorem recordResult_forgetDead (r : Result) :
    forgetDeadOutcome (st.forgetDead.recordResult r) = forgetDeadOutcome (st.recordResult r) :=
  unchanged_forgetDead (st.setResult r)

theorem recordOfFrame_forgetDead (own : Bank) (x : FrameOperand) (value : Frame → Result) :
    forgetDeadOutcome (st.forgetDead.recordOfFrame own x value) = forgetDeadOutcome (st.recordOfFrame own x value) := by
  unfold State.recordOfFrame
  cases frameOperand own x with
  | ok f => exact recordResult_forgetDead st _
  | error f => rfl

theorem execReadWord_forgetDead : forgetDeadOutcome (execReadWord st.forgetDead) = forgetDeadOutcome (execReadWord st) := by
  cases he : st.readEnabled with
  | false =>
    rw [execReadWord_of_not_enabled he, execReadWord_of_not_enabled (by simpa using he)]
    exact unchanged_forgetDead st
  | true =>
    obtain ⟨hp, hn⟩ := readEnabled_eq_true_iff.mp he
    cases hin : st.inChan with
    | nil =>
      rw [execReadWord_of_inChan_nil hin, execReadWord_of_inChan_nil (by simpa using hin)]
      exact unchanged_forgetDead st
    | cons w rest =>
      have hn' := forgetDead_n_of_read hp
      rw [execReadWord_eq hp hn hin, execReadWord_eq (st := st.forgetDead) hp (by rwa [hn']) hin]
      simp only [hn', forgetDead_inBuf]
      exact forgetDeadOutcome_next (judgeWord_forgetDead ((st.setInChan rest).setInBuf _) hp _)

theorem execPermuteStep_forgetDead :
    forgetDeadOutcome (execPermuteStep st.forgetDead) = forgetDeadOutcome (execPermuteStep st) := by
  cases he : st.permuteEnabled with
  | false =>
    rw [execPermuteStep_of_not_enabled he, execPermuteStep_of_not_enabled (by simpa using he)]
    exact unchanged_forgetDead st
  | true =>
    obtain ⟨hp, -⟩ := permuteEnabled_eq_true_iff.mp he
    simp only [execPermuteStep, forgetDead_permuteEnabled, he, if_true, forgetDead_inBuf, forgetDead_wBuf,
      forgetDead_i_of_permute hp]
    cases permuteMove st.inBuf st.i.toNat st.wBuf with
    | ok w => exact forgetDeadOutcome_next (setSeq_forgetDead (st.setWBuf w) (.inr (afterMove_phase_ne_read _)))
    | error f => rfl

theorem execButterfly_forgetDead :
    forgetDeadOutcome (execButterfly st.forgetDead) = forgetDeadOutcome (execButterfly st) := by
  cases he : st.bflyEnabled with
  | false =>
    rw [execButterfly_of_not_enabled he, execButterfly_of_not_enabled (by simpa using he)]
    exact unchanged_forgetDead st
  | true =>
    obtain ⟨hp, -⟩ := bflyEnabled_eq_true_iff.mp he
    simp only [execButterfly, forgetDead_bflyEnabled, he, if_true, forgetDead_params, forgetDead_wBuf,
      forgetDead_s_of_bfly hp, forgetDead_k_of_bfly hp]
    cases butterflyOn st.params.twTable st.s.toNat st.k.toNat st.wBuf with
    | ok w =>
      exact forgetDeadOutcome_next (setSeq_forgetDead (st.setWBuf w) (.inr (afterButterfly_phase_ne_read _ _)))
    | error f => rfl

theorem execWriteWord_forgetDead :
    forgetDeadOutcome (execWriteWord st.forgetDead) = forgetDeadOutcome (execWriteWord st) := by
  cases he : st.writeEnabled with
  | false =>
    rw [execWriteWord_of_not_enabled he, execWriteWord_of_not_enabled (by simpa using he)]
    exact unchanged_forgetDead st
  | true =>
    obtain ⟨hp, -⟩ := writeEnabled_eq_true_iff.mp he
    simp only [execWriteWord, forgetDead_writeEnabled, he, if_true, forgetDead_wBuf, forgetDead_n_of_write hp]
    cases outputWordAt st.wBuf st.n.toNat with
    | ok w =>
      refine forgetDeadOutcome_next ?_
      split
      · exact complete_forgetDead (st.pushOut w)
      · exact setSeq_forgetDead (st.pushOut w) (.inr (by simp))
    | error f => rfl

theorem execStart_forgetDead : forgetDeadOutcome (execStart st.forgetDead) = forgetDeadOutcome (execStart st) := by
  by_cases hp : st.phase = .idle
  · rw [execStart_of_idle hp, execStart_of_idle (st := st.forgetDead) hp]
    exact forgetDeadOutcome_next (begin_forgetDead st)
  · rw [execStart_of_busy hp, execStart_of_busy (st := st.forgetDead) hp]
    exact unchanged_forgetDead st.markProtocolFault

theorem execTransportFault_forgetDead :
    forgetDeadOutcome (execTransportFault st.forgetDead) = forgetDeadOutcome (execTransportFault st) := by
  by_cases hp : st.phase = .read
  · rw [execTransportFault_of_read hp, execTransportFault_of_read (st := st.forgetDead) hp]
    exact forgetDeadOutcome_next (errorEntry_forgetDead st _)
  · rw [execTransportFault_of_phase_ne hp, execTransportFault_of_phase_ne (st := st.forgetDead) hp]
    exact unchanged_forgetDead st

theorem exec_forgetDead (i : Instr) : forgetDeadOutcome (exec i st.forgetDead) = forgetDeadOutcome (exec i st) := by
  cases i with
  | qAdd | qSub | qMul | qToDouble | bitrev8 | twRead | cmulTw | unpack | pack | framingCheck | readFrame | transform =>
    exact recordResult_forgetDead st _
  | permute | bflyCore | writeFrame => exact recordOfFrame_forgetDead st _ _ _
  | qFromDouble x =>
    simp only [exec, execQFromDouble]
    split
    · exact recordResult_forgetDead st _
    · rfl
  | stage s w =>
    simp only [exec, execStage]
    split
    · exact recordOfFrame_forgetDead st _ _ _
    · rfl
  | readWord => exact execReadWord_forgetDead st
  | permuteStep => exact execPermuteStep_forgetDead st
  | butterfly => exact execButterfly_forgetDead st
  | writeWord => exact execWriteWord_forgetDead st
  | start => exact execStart_forgetDead st
  | transportFault => exact execTransportFault_forgetDead st
  | reset => exact forgetDeadOutcome_next (resetEngine_forgetDead st)

/-! ### The agents -/

theorem engineTurn_forgetDead : forgetDeadOutcome (engineTurn st.forgetDead) = forgetDeadOutcome (engineTurn st) := by
  simp only [engineTurn, forgetDead_phase]
  cases engineOperation st.phase with
  | none => exact unchanged_forgetDead st
  | some i => exact exec_forgetDead st i

theorem runCode_forgetDead (code : List Byte) :
    forgetDeadOutcome (runCode code st.forgetDead) = forgetDeadOutcome (runCode code st) := by
  unfold runCode
  cases decode code with
  | ok r => exact exec_forgetDead st r.1
  | error why => rfl

theorem perform_forgetDead (a : Action) :
    forgetDeadOutcome (a.perform st.forgetDead) = forgetDeadOutcome (a.perform st) := by
  cases a with
  | operation code => exact runCode_forgetDead st code
  | send w => exact unchanged_forgetDead (st.pushIn w)
  | recv =>
    simp only [Action.perform, forgetDead_outChan]
    cases st.outChan with
    | nil => exact unchanged_forgetDead st
    | cons w rest => exact unchanged_forgetDead ((st.setOutChan rest).take w)
  | waitDone | settle => exact unchanged_forgetDead st
  | engineStep => exact engineTurn_forgetDead st

theorem takeTurn_forgetDead (rest : List Turn) (turn : Turn) :
    forgetDeadOutcome (takeTurn st.forgetDead rest turn) = forgetDeadOutcome (takeTurn st rest turn) := by
  cases turn with
  | one a =>
    simp only [takeTurn, ready_forgetDead]
    split
    · exact perform_forgetDead (st.setAgenda rest) a
    · exact engineTurn_forgetDead st
  | together as =>
    simp only [takeTurn]
    split
    · exact exec_forgetDead (st.setAgenda rest) .reset
    · exact unchanged_forgetDead (st.setAgenda (as.map .one ++ rest))

theorem step_forgetDead : forgetDeadOutcome (step st.forgetDead) = forgetDeadOutcome (step st) := by
  cases hm : st.protocolFault with
  | true => rw [step_marked hm, step_marked (st := st.forgetDead) hm]
  | false =>
    cases ha : st.agenda with
    | nil =>
      rw [step_alone hm ha, step_alone (st := st.forgetDead) hm ha]
      exact engineTurn_forgetDead st
    | cons turn rest =>
      rw [step_turn hm ha, step_turn (st := st.forgetDead) hm ha]
      exact takeTurn_forgetDead st rest turn

/-! ### The obligations -/

/-- Settles O49: each of the two states steps as the one state that both leave without their dead counters. -/
theorem deadCountersAreNeverRead : Obligations.DeadCountersAreNeverRead := by
  intro st t h
  calc forgetDeadOutcome (step st) = forgetDeadOutcome (step st.forgetDead) := (step_forgetDead st).symm
    _ = forgetDeadOutcome (step t.forgetDead) := by rw [h]
    _ = forgetDeadOutcome (step t) := step_forgetDead t

end Sys2Proof.Machine
end

section
/-! SUPPORT. Order of the element accesses (20_memory.md R59, R60): the moves of a permutation have their indices in range, so any
two of them commute, and what commutes may be done in any order. -/

namespace Sys2Proof.Machine

theorem lt_of_perm_range {is : List Nat} {n : Nat} (h : is.Perm (List.range n)) : ∀ i ∈ is, i < n :=
  fun _ hi => List.mem_range.mp (h.mem_iff.mp hi)

/-- R59 on buffers, where a butterfly may fault on an `undef` element. -/
theorem butterfliesOn_perm (rom : TwTable) {s : Nat} (hs : s < 8) {ks ls : List Nat} (h : ks.Perm ls)
    (hk : ∀ k ∈ ks, k < 128) (w : Bank) : butterfliesOn rom s ks w = butterfliesOn rom s ls w :=
  foldlM_perm h (fun k hk₁ l hl₁ z => butterflyOn_comm rom hs (hk k hk₁) (hk l hl₁) z) w

/-- R60, where a move may fault on an `undef` element of the source. -/
theorem permuteMoves_perm (source : Bank) {is js : List Nat} (h : is.Perm js) (hi : ∀ i ∈ is, i < 256) (target : Bank) :
    permuteMoves source is target = permuteMoves source js target :=
  foldlM_perm h (fun i hi₁ j hj₁ z => permuteMove_comm source (hi i hi₁) (hi j hj₁) z) target

/-! ### The obligations -/

/-- Settles O22: two butterflies of a stage share no element (R142), so they commute, on buffers and on values. -/
theorem stageOrderIsImmaterial : Obligations.StageOrderIsImmaterial := by
  intro rom s ks hs hperm
  have hk : ∀ k ∈ ks, k < 128 := lt_of_perm_range hperm
  exact ⟨butterfliesOn_perm rom hs hperm hk, butterflies_perm rom hs hperm hk⟩

/-- Settles O23: two moves of the permuter write different elements, since BITREV8 is injective (R122), so they commute. -/
theorem permuteOrderIsImmaterial : Obligations.PermuteOrderIsImmaterial := by
  intro source target is hperm
  exact permuteMoves_perm source hperm (lt_of_perm_range hperm) target

end Sys2Proof.Machine
end

section
/-! SUPPORT. Codes (30_encoding.md R78): the decoder reads back what the encoder writes and accepts nothing else, and which
opcode-table words and first bytes name an operation. -/

namespace Sys2Proof

variable {i : Instr} {bs rest : List Byte}

/-! ### The shapes of the decoder's arms -/

/-- An arm that reads one operand. -/
theorem readOne_ok {α : Type} {read : List Byte → Except Reject (α × List Byte)} {op : α → Instr}
    (h : (do let (x, bs) ← read bs; return (op x, bs)) = Except.ok (i, rest)) :
    ∃ x, read bs = .ok (x, rest) ∧ i = op x := by
  obtain ⟨⟨x, tail⟩, hx, hr⟩ := except_bind_ok.mp h
  cases hr
  exact ⟨x, hx, rfl⟩

/-- An arm that reads two operands. -/
theorem readTwo_ok {α β : Type} {readX : List Byte → Except Reject (α × List Byte)}
    {readY : List Byte → Except Reject (β × List Byte)} {op : α → β → Instr}
    (h : (do let (x, bs) ← readX bs; let (y, bs) ← readY bs; return (op x y, bs)) = Except.ok (i, rest)) :
    ∃ x mid y, readX bs = .ok (x, mid) ∧ readY mid = .ok (y, rest) ∧ i = op x y := by
  obtain ⟨⟨x, mid⟩, hx, hr⟩ := except_bind_ok.mp h
  obtain ⟨y, hy, rfl⟩ := readOne_ok hr
  exact ⟨x, mid, y, hx, hy, rfl⟩

/-- An arm that reads two scalars. -/
theorem readTwoScalars_ok {op : Q16 → Q16 → Instr}
    (h : (do let (a, bs) ← read32 bs; let (b, bs) ← read32 bs; return (op a b, bs)) = Except.ok (i, rest)) :
    ∃ a b, bs = bytes32 a ++ bytes32 b ++ rest ∧ i = op a b := by
  obtain ⟨a, mid, b, ha, hb, rfl⟩ := readTwo_ok h
  exact ⟨a, b, by rw [read32_ok ha, read32_ok hb, List.append_assoc], rfl⟩

/-- An arm that reads four scalars. -/
theorem readFourScalars_ok {op : Q16 → Q16 → Q16 → Q16 → Instr}
    (h : (do
      let (a, bs) ← read32 bs
      let (b, bs) ← read32 bs
      let (c, bs) ← read32 bs
      let (d, bs) ← read32 bs
      return (op a b c d, bs)) = Except.ok (i, rest)) :
    ∃ a b c d, bs = bytes32 a ++ bytes32 b ++ bytes32 c ++ bytes32 d ++ rest ∧ i = op a b c d := by
  obtain ⟨⟨a, afterA⟩, ha, hr⟩ := except_bind_ok.mp h
  obtain ⟨⟨b, afterB⟩, hb, hr⟩ := except_bind_ok.mp hr
  obtain ⟨c, d, hcd, rfl⟩ := readTwoScalars_ok hr
  exact ⟨a, b, c, d, by simp [read32_ok ha, read32_ok hb, hcd], rfl⟩

theorem cons_eq_encode {op : Byte} (hop : op.toNat = i.opid.toNat) (hbs : bs = i.operandBytes ++ rest) :
    op :: bs = encode i ++ rest := by
  rw [BitVec.eq_of_toNat_eq hop, hbs, encode, List.cons_append]

/-! ### Decoder and encoder -/

theorem decode_encode (hi : i.wellFormed = true) (rest : List Byte) : decode (encode i ++ rest) = .ok (i, rest) := by
  simp only [encode, List.cons_append]
  cases i with
  | permuteStep | butterfly | readWord | writeWord | start | transportFault | reset => rfl
  | qAdd | qSub | qMul | qToDouble | cmulTw | pack =>
    simp only [Instr.opid, Instr.operandBytes, List.append_assoc, decode, read32_bytes32, ok_bind']
    rfl
  | qFromDouble | unpack =>
    simp only [Instr.opid, Instr.operandBytes, decode, read64_bytes64, ok_bind']
    rfl
  | bitrev8 | twRead | framingCheck =>
    simp only [Instr.opid, Instr.operandBytes, List.cons_append, List.nil_append, decode, readByte_cons, readRomIndex_byte,
      readBool_byteOfBool, ok_bind']
    rfl
  | permute | bflyCore | writeFrame =>
    simp only [Instr.opid, Instr.operandBytes, decode, readFrameOperand_bytes, ok_bind']
    rfl
  | stage s w =>
    have hs : s.toNat < 8 := of_decide_eq_true hi
    simp only [Instr.opid, Instr.operandBytes, List.cons_append, decode, readStage_byte s hs, readFrameOperand_bytes, ok_bind']
    rfl
  | readFrame u | transform u =>
    simp only [Instr.opid, Instr.operandBytes, decode, readWordsOperand_bytes u hi, ok_bind']
    rfl

/-- The arms are taken by what they read. Arm `h_1` is OPID 0, and `h_25` is the refusal of every other first byte. -/
theorem decode_ok {code : List Byte} (h : decode code = .ok (i, rest)) :
    i.wellFormed = true ∧ code = encode i ++ rest := by
  cases code with
  | nil => cases h
  | cons op bs =>
    simp only [decode] at h
    split at h
    -- PERMUTE_STEP, BUTTERFLY, READ_WORD, WRITE_WORD, START, TRANSPORT_FAULT, RESET
    case h_7 hop | h_11 hop | h_16 hop | h_19 hop | h_21 hop | h_23 hop | h_24 hop =>
      cases h
      exact ⟨rfl, cons_eq_encode hop rfl⟩
    -- Q_ADD, Q_SUB, Q_MUL, PACK
    case h_1 hop | h_2 hop | h_3 hop | h_15 hop =>
      obtain ⟨a, b, hbs, rfl⟩ := readTwoScalars_ok h
      exact ⟨rfl, cons_eq_encode hop hbs⟩
    -- CMUL_TW
    case h_10 hop =>
      obtain ⟨a, b, c, d, hbs, rfl⟩ := readFourScalars_ok h
      exact ⟨rfl, cons_eq_encode hop hbs⟩
    -- Q_TO_DOUBLE
    case h_5 hop =>
      obtain ⟨x, hx, rfl⟩ := readOne_ok h
      exact ⟨rfl, cons_eq_encode hop (read32_ok hx)⟩
    -- Q_FROM_DOUBLE, UNPACK
    case h_4 hop | h_14 hop =>
      obtain ⟨x, hx, rfl⟩ := readOne_ok h
      exact ⟨rfl, cons_eq_encode hop (read64_ok hx)⟩
    -- BITREV8
    case h_6 hop =>
      obtain ⟨x, hx, rfl⟩ := readOne_ok h
      exact ⟨rfl, cons_eq_encode hop (readByte_ok.mp hx)⟩
    -- TW_READ
    case h_9 hop =>
      obtain ⟨x, hx, rfl⟩ := readOne_ok h
      exact ⟨rfl, cons_eq_encode hop (readRomIndex_ok hx)⟩
    -- PERMUTE, BFLY_CORE, WRITE_FRAME
    case h_8 hop | h_13 hop | h_20 hop =>
      obtain ⟨x, hx, rfl⟩ := readOne_ok h
      exact ⟨rfl, cons_eq_encode hop (readFrameOperand_ok hx)⟩
    -- FRAMING_CHECK
    case h_17 hop =>
      obtain ⟨n, mid, last, hn, hlast, rfl⟩ := readTwo_ok h
      have hbs := readByte_ok.mp hn
      rw [readBool_ok hlast] at hbs
      exact ⟨rfl, cons_eq_encode hop hbs⟩
    -- STAGE
    case h_12 hop =>
      obtain ⟨s, mid, w, hs, hw, rfl⟩ := readTwo_ok h
      obtain ⟨hbs, hlt⟩ := readStage_ok hs
      rw [readFrameOperand_ok hw] at hbs
      exact ⟨decide_eq_true hlt, cons_eq_encode hop hbs⟩
    -- READ_FRAME, TRANSFORM
    case h_18 hop | h_22 hop =>
      obtain ⟨u, hu, rfl⟩ := readOne_ok h
      obtain ⟨hbs, hwf⟩ := readWordsOperand_ok hu
      exact ⟨hwf, cons_eq_encode hop hbs⟩
    case h_25 => cases h

theorem decode_of_unlisted {op : Byte} (h : 24 ≤ op.toNat) (bs : List Byte) :
    decode (op :: bs) = .error (.noOperation op) := by
  simp only [decode]
  split
  case h_25 => rfl
  all_goals omega

/-! ### Opcode-table words -/

theorem decodeTableWord_opid (hi : i.wellFormed = true) (hz : i.operandBytes <+: zeroOperands) :
    decodeTableWord 8 i.opid.toNat = some i := by
  obtain ⟨rest, hz⟩ := hz
  have hcode : tableCode 8 i.opid.toNat = encode i ++ rest := by
    simp [tableCode, bytesOfNat, encode, hz]
  simp [decodeTableWord, hcode, decode_encode hi]

theorem decodeTableWord_of_unlisted {w : Nat} (h : 24 ≤ w) (hw : w < 256) : decodeTableWord 8 w = none := by
  have hop : 24 ≤ (BitVec.ofNat 8 w).toNat := by simp only [BitVec.toNat_ofNat]; omega
  have hcode : tableCode 8 w = BitVec.ofNat 8 w :: zeroOperands := by
    simp [tableCode, bytesOfNat]
  simp [decodeTableWord, hcode, decode_of_unlisted hop]

/-! ### The obligations -/

/-- Settles O2: each operand's reader reads back what its writer wrote. -/
theorem decodeReadsBackEncode : Obligations.DecodeReadsBackEncode :=
  fun _ rest hi => decode_encode hi rest

/-- Settles O3: each operand's reader accepts nothing but what its writer writes. -/
theorem decodeAcceptsOnlyEncodings : Obligations.DecodeAcceptsOnlyEncodings :=
  fun _ _ _ h => decode_ok h

/-- Settles O1: the zeros after a table word are the operand bytes of its operation, and more. -/
theorem opcodeTableWordsDecode : Obligations.OpcodeTableWordsDecode := by
  refine ⟨decodeTableWord_opid (i := .qAdd 0 0) rfl ?_, decodeTableWord_opid (i := .qMul 0 0) rfl ?_,
    decodeTableWord_opid (i := .bitrev8 0) rfl ?_, decodeTableWord_opid (i := .permuteStep) rfl ?_,
    decodeTableWord_opid (i := .twRead 0) rfl ?_, decodeTableWord_opid (i := .butterfly) rfl ?_,
    decodeTableWord_opid (i := .pack 0 0) rfl ?_, decodeTableWord_opid (i := .readWord) rfl ?_,
    decodeTableWord_opid (i := .writeWord) rfl ?_, decodeTableWord_opid (i := .start) rfl ?_,
    decodeTableWord_opid (i := .transportFault) rfl ?_, decodeTableWord_opid (i := .reset) rfl ?_,
    decodeTableWord_of_unlisted (by decide) (by decide), decodeTableWord_of_unlisted (by decide) (by decide),
    decodeTableWord_of_unlisted (by decide) (by decide)⟩
  all_goals exact ⟨_, rfl⟩

end Sys2Proof

namespace Sys2Proof.Machine

/-- Settles O4: the code of the turn is refused under the decoder's own reason. -/
theorem unlistedOpidsAreRefused : Obligations.UnlistedOpidsAreRefused := by
  intro op operands st rest hop hm ha
  rw [step_operation hm ha, runCode, decode_of_unlisted hop]

/-- Settles O52: a ready turn is performed, and these two only leave the agenda; a turn that is not ready gives the engine its
move. -/
theorem waitAndSettleHoldTheAgenda : Obligations.WaitAndSettleHoldTheAgenda := by
  intro st rest hm
  refine ⟨fun ha => ⟨fun hdone => ?_, fun hbusy => ?_⟩, fun ha => ⟨fun hidle => ?_, fun henabled => ?_⟩,
    fun w ha hfull => ?_, fun ha hempty => ?_⟩
  · exact step_ready hm ha hdone
  · exact step_waiting hm ha hbusy
  · exact step_ready hm ha (by simp [Action.ready, hidle])
  · exact step_waiting hm ha (by simp [Action.ready, henabled])
  · exact step_waiting hm ha hfull
  · exact step_waiting hm ha (by simp [Action.ready, hempty])

end Sys2Proof.Machine
end

section
/-! SUPPORT. The fixed-point primitives (40_fixed_point.md R100 to R105): each rule's value as the model computes it, truncation
toward zero of a binary64 value, and the binary64 pattern of a Q16.16 value. -/

namespace Sys2Proof.Machine

/-! ### Truncation toward zero (R8) -/

theorem trunc0_of_nonneg {r : ℚ} (h : 0 ≤ r) : trunc0 r = ⌊r⌋ := if_neg (not_lt.mpr h)

theorem trunc0_neg_of_nonneg {r : ℚ} (h : 0 ≤ r) : trunc0 (-r) = -⌊r⌋ := by
  obtain rfl | h := h.eq_or_lt
  · simp [trunc0]
  · rw [trunc0, if_pos (neg_lt_zero.mpr h), neg_neg]

@[simp] theorem trunc0_intCast (z : ℤ) : trunc0 z = z := by
  obtain h | h := lt_or_ge z 0
  · rw [trunc0, if_pos (Int.cast_lt_zero.mpr h), ← Int.cast_neg, Int.floor_intCast, neg_neg]
  · rw [trunc0_of_nonneg (Int.cast_nonneg h), Int.floor_intCast]

/-! ### Q_FROM_DOUBLE -/

/-- The sign is that of the pattern, so truncation drops the fraction of the magnitude (R103). -/
theorem qFromDouble_eq_trunc0 (x : Double64) : qFromDouble x = wrap32 (trunc0 (doubleValue x * 65536)) := by
  rw [qFromDouble, doubleScaledMagnitude_eq_floor, doubleValue]
  have hnonneg : 0 ≤ (doubleSignificand x : ℚ) * 2 ^ ((doubleScale x : ℤ) - 1075) * 65536 := by positivity
  cases x.msb with
  | false => simp only [Bool.false_eq_true, if_false, one_mul, trunc0_of_nonneg hnonneg]
  | true => simp only [if_true, neg_mul, one_mul, trunc0_neg_of_nonneg hnonneg]

theorem exec_qFromDouble_of_finite {x : Double64} (h : doubleFinite x = true) (st : State) :
    exec (.qFromDouble x) st = st.recordResult (.scalar (qFromDouble x)) := if_pos h

theorem exec_qFromDouble_of_not_finite {x : Double64} (h : doubleFinite x = false) (st : State) :
    exec (.qFromDouble x) st = .refused .notFinite := if_neg (by simp [h])

/-! ### Q_TO_DOUBLE -/

/-- The value of a pattern whose exponent field is that of a normal number. -/
theorem doubleValue_pattern (negative : Bool) {e f : Nat} (he : e < 2048) (hnormal : e ≠ 0) (hf : f < 2 ^ 52) :
    doubleValue (doublePattern negative e f) =
      (if negative then -1 else 1) * ((2 ^ 52 + f : ℕ) : ℚ) * 2 ^ ((e : ℤ) - 1075) := by
  have hscale : max e 1 = e := max_eq_left (Nat.one_le_iff_ne_zero.mpr hnormal)
  rw [doubleValue, doubleSignificand, doubleScale, msb_pattern, doubleExponent_pattern negative f he,
    doubleFraction_pattern negative e hf, if_neg hnormal, hscale]

theorem natAbs_toInt_ne_zero {q : Q16} (h : q ≠ 0) : q.toInt.natAbs ≠ 0 := fun hzero =>
  h (BitVec.eq_of_toInt_eq (Int.natAbs_eq_zero.mp hzero))

theorem qToDouble_of_ne_zero {q : Q16} (h : q ≠ 0) :
    qToDouble q = doublePattern q.msb (q.toInt.natAbs.log2 + 1007)
      (q.toInt.natAbs * 2 ^ (52 - q.toInt.natAbs.log2) - 2 ^ 52) := if_neg (natAbs_toInt_ne_zero h)

/-- The leading bit of s_32(q) is bit 31 or below. -/
theorem log2_natAbs_toInt_lt (q : Q16) : q.toInt.natAbs.log2 < 32 := by
  obtain h | h := eq_or_ne q.toInt.natAbs 0
  · simp [h]
  · rw [Nat.log2_lt h]
    have hlow := BitVec.le_toInt q
    have hhigh := BitVec.toInt_lt (x := q)
    omega

/-- A magnitude moved to have its leading bit at bit 52 is a significand. -/
theorem normalized_bounds {m : Nat} (h : m ≠ 0) (hm : m.log2 ≤ 52) :
    2 ^ 52 ≤ m * 2 ^ (52 - m.log2) ∧ m * 2 ^ (52 - m.log2) < 2 ^ 53 := by
  have hpow : 2 ^ m.log2 * 2 ^ (52 - m.log2) = 2 ^ 52 := by rw [← pow_add, Nat.add_sub_cancel' hm]
  have hlow := Nat.mul_le_mul_right (2 ^ (52 - m.log2)) (Nat.log2_self_le h)
  have hhigh := Nat.mul_lt_mul_of_pos_right (Nat.lt_log2_self (n := m)) (Nat.two_pow_pos (52 - m.log2))
  rw [pow_succ] at hhigh
  constructor <;> linarith

/-- The exponent field p + 1007 undoes that move and divides by 2^16. -/
theorem normalized_value (m : Nat) {p : Nat} (hp : p ≤ 52) :
    ((m * 2 ^ (52 - p) : ℕ) : ℚ) * 2 ^ (((p + 1007 : ℕ) : ℤ) - 1075) = m / 65536 := by
  have hexponent : ((52 - p : ℕ) : ℤ) + (((p + 1007 : ℕ) : ℤ) - 1075) = -16 := by omega
  calc ((m * 2 ^ (52 - p) : ℕ) : ℚ) * 2 ^ (((p + 1007 : ℕ) : ℤ) - 1075)
      = m * (2 ^ ((52 - p : ℕ) : ℤ) * 2 ^ (((p + 1007 : ℕ) : ℤ) - 1075)) := by
        rw [zpow_natCast, Nat.cast_mul, Nat.cast_pow, Nat.cast_ofNat, mul_assoc]
    _ = m * 2 ^ (-16 : ℤ) := by rw [← zpow_add₀ two_ne_zero, hexponent]
    _ = m / 65536 := by rw [zpow_neg, ← div_eq_mul_inv]; norm_num

theorem sign_mul_natAbs_toInt (q : Q16) : (if q.msb then -1 else 1) * (q.toInt.natAbs : ℚ) = q.toInt := by
  rw [BitVec.msb_eq_toInt, Nat.cast_natAbs]
  obtain h | h := lt_or_ge q.toInt 0
  · rw [if_pos (decide_eq_true h), abs_of_neg h, Int.cast_neg, neg_one_mul, neg_neg]
  · rw [if_neg (by simpa using h), abs_of_nonneg h, one_mul]

theorem doubleFinite_qToDouble (q : Q16) : doubleFinite (qToDouble q) = true := by
  obtain rfl | hne := eq_or_ne q 0
  · decide
  · have hlog := log2_natAbs_toInt_lt q
    rw [qToDouble_of_ne_zero hne, doubleFinite_iff, doubleExponent_pattern _ _ (by omega)]
    omega

/-- The significand is |s_32(q)| * 2^(52 - p) and the power is 2^(p - 68), with p the leading bit (R104). -/
theorem doubleValue_qToDouble (q : Q16) : doubleValue (qToDouble q) = q16Value q := by
  obtain rfl | hne := eq_or_ne q 0
  · have hsignificand : doubleSignificand (qToDouble 0) = 0 := by decide
    rw [doubleValue, hsignificand]
    simp [q16Value]
  · have hlog := log2_natAbs_toInt_lt q
    obtain ⟨hlow, hhigh⟩ := normalized_bounds (natAbs_toInt_ne_zero hne) (by omega)
    rw [qToDouble_of_ne_zero hne, doubleValue_pattern q.msb (by omega) (by omega) (by omega), Nat.add_sub_cancel' hlow,
      mul_assoc, normalized_value _ (by omega), ← mul_div_assoc, sign_mul_natAbs_toInt, q16Value]

/-- The value is a multiple of 2^-16, so truncation drops nothing and the wrap gives q back (R103, R104). -/
theorem qFromDouble_qToDouble (q : Q16) : qFromDouble (qToDouble q) = q := by
  have hint : q16Value q * 65536 = (q.toInt : ℚ) := div_mul_cancel₀ _ (by norm_num)
  rw [qFromDouble_eq_trunc0, doubleValue_qToDouble, hint, trunc0_intCast, wrap32, BitVec.ofInt_toInt]

/-! ### Q_MUL on real values -/

theorem q16Value_mul_scaled (a b : Q16) :
    q16Value a * q16Value b * 65536 = ((a.toInt * b.toInt : ℤ) : ℚ) / 65536 := by
  rw [q16Value, q16Value]
  push_cast
  ring

theorem qMul_eq_floor (a b : Q16) : qMul a b = wrap32 ⌊((a.toInt * b.toInt : ℤ) : ℚ) / 65536⌋ := by
  rw [qMul, shiftFloor_eq_floor]

theorem qMul_eq_floor_value (a b : Q16) : qMul a b = wrap32 ⌊q16Value a * q16Value b * 65536⌋ := by
  rw [q16Value_mul_scaled, qMul_eq_floor]

/-- A value in the range of s_32 is not changed by the wrap. -/
theorem q16Value_wrap32 {z : ℤ} (hlow : -(2 ^ 31) ≤ z) (hhigh : z < 2 ^ 31) : q16Value (wrap32 z) = z / 65536 := by
  rw [q16Value, wrap32, BitVec.toInt_ofInt_eq_self (by decide) hlow hhigh]

/-- The error of flooring to a multiple of 2^-16. -/
theorem floor_scaled_error (r : ℚ) : -(1 / 65536) < (⌊r * 65536⌋ : ℚ) / 65536 - r ∧ (⌊r * 65536⌋ : ℚ) / 65536 - r ≤ 0 := by
  have hle := Int.floor_le (r * 65536)
  have hlt := Int.lt_floor_add_one (r * 65536)
  constructor <;> linarith

/-! ### The obligations -/

/-- Settles O7: the integers' floor division is the floor of the rational quotient, and its wrap is a bit range of the product. -/
theorem qMulKeepsBits47To16 : Obligations.QMulKeepsBits47To16 := by
  refine ⟨fun a b st => ?_, qMul_eq_bits, fun a => ⟨qMul_one a, qMul_zero a⟩, qMul_comm, ?_⟩
  · exact congrArg (fun v => st.recordResult (.scalar v)) (qMul_eq_floor a b)
  · decide

/-- Settles O8: a finite value is converted by truncation of its real value, and the others are refused. -/
theorem qFromDoubleTruncatesTowardZero : Obligations.QFromDoubleTruncatesTowardZero := by
  refine ⟨fun x st h => ?_, fun x st h => exec_qFromDouble_of_not_finite h st⟩
  rw [exec_qFromDouble_of_finite h, qFromDouble_eq_trunc0]
  rfl

/-- Settles O9: 31 bits of magnitude fit a significand, so the pattern holds the value and loses nothing. -/
theorem qToDoubleIsExact : Obligations.QToDoubleIsExact :=
  fun q _ => ⟨qToDouble q, rfl, doubleFinite_qToDouble q, doubleValue_qToDouble q, qFromDouble_qToDouble q⟩

/-- Settles O10: the error of Q_MUL is that of the floor, where the wrap changes nothing. -/
theorem fixedPointLaws : Obligations.FixedPointLaws := by
  refine ⟨fun a b => ?_, qMul_eq_floor_value, fun a b hlow hhigh => ?_, by decide, by decide, by decide, by decide⟩
  · simp [qSub_eq_sub, qAdd_eq_add, BitVec.sub_eq_add_neg]
  · rw [qMul_eq_floor_value, q16Value_wrap32 hlow hhigh]
    exact floor_scaled_error (q16Value a * q16Value b)

/-- Settles O5: the wrapped sum is addition of bit vectors. -/
theorem qAddWrapsTheSum : Obligations.QAddWrapsTheSum := by
  refine ⟨fun _ _ _ => rfl, qAdd_eq_add, fun a b => ?_, fun a b c => ?_, by decide, by decide, by decide⟩
  · rw [qAdd_eq_add, qAdd_eq_add, BitVec.add_comm]
  · simp only [qAdd_eq_add, BitVec.add_assoc]

/-- Settles O6: the wrapped difference is subtraction of bit vectors. -/
theorem qSubWrapsTheDifference : Obligations.QSubWrapsTheDifference := by
  refine ⟨fun _ _ _ => rfl, fun a => ?_, by decide, by decide, by decide⟩
  exact (qSub_eq_sub a a).trans (BitVec.sub_self a)

end Sys2Proof.Machine
end

section
/-! SUPPORT. Bit reversal and the permuter (41_bit_reversal.md R120 to R123): the bits of a reversed index, what one move leaves
behind, and the state after some of the 256 moves. -/

namespace Sys2Proof.Machine

variable {st u : State} {x : Frame}

/-! ### BITREV8 and PERMUTE -/

/-- Bit k of the index is bit 7 - k of the result (R120). -/
theorem getLsbD_bitrev8 (i : BitVec 8) {k : Nat} (hk : k < 8) : (bitrev8 i).getLsbD (7 - k) = i.getLsbD k := by
  simp only [bitrev8, indexBit, BitVec.getLsbD_append, BitVec.getLsbD_extractLsb']
  interval_cases k <;> simp

theorem bitrev8_involutive : Function.Involutive bitrev8 := bitrev8_bitrev8

theorem permute_permute (x : Frame) : permute (permute x) = x :=
  Frame.ext_read fun m => by simp

/-! ### One move -/

/-- Read after write, in each part of a pair. -/
theorem Bank.getElem_write {b w : Bank} {r : Fin 256} {v : Sample} (h : b.write r v = .ok w) (j : Fin 256) :
    w.re[j] = (if j = r then some v.re else b.re[j]) ∧ w.im[j] = (if j = r then some v.im else b.im[j]) := by
  obtain ⟨_, rfl⟩ := Bank.write_eq_ok.mp h
  simp [Vector.getElem_set, Fin.ext_iff, eq_comm]

/-- PERMUTE_STEP where it is enabled and its sample is defined (R121). -/
theorem execPermuteStep_eq {v : Sample} (hp : st.phase = .permute) (hi : st.i.toNat < 256)
    (hv : st.inBuf.read st.i.toNat = .ok v) :
    ∃ w, st.wBuf.write (bitrev8 (BitVec.ofNat 8 st.i.toNat)).toNat v = .ok w ∧
      execPermuteStep st = .next ((st.setWBuf w).setSeq (afterMove st.i)) := by
  refine ⟨_, Bank.write_of_lt st.wBuf (bitrev8 _).isLt v, ?_⟩
  rw [execPermuteStep, if_pos (permuteEnabled_eq_true_iff.mpr ⟨hp, hi⟩), permuteMove_eq st.wBuf hv]

/-- R182: the move of an index before the last leaves PERMUTE at the next index. -/
theorem setSeq_afterMove_of_lt (st : State) {i : BitVec 9} (hi : i.toNat < 255) :
    (st.setSeq (afterMove i)).phase = .permute ∧ (st.setSeq (afterMove i)).i.toNat = i.toNat + 1 := by
  have hne : i ≠ 255 := by rintro rfl; exact absurd hi (by decide)
  rw [afterMove_other hne]
  exact ⟨rfl, succ9_toNat (by omega)⟩

/-- R182: the move of index 255 starts BFLY at stage 0, butterfly 0. -/
theorem setSeq_afterMove_last (st : State) {i : BitVec 9} (hi : i.toNat = 255) :
    (st.setSeq (afterMove i)).phase = .bfly ∧ (st.setSeq (afterMove i)).s = 0 ∧ (st.setSeq (afterMove i)).k = 0 := by
  rw [afterMove_last (BitVec.eq_of_toNat_eq hi)]
  exact ⟨rfl, rfl, rfl⟩

/-- Everything but the sequencer, W_* and the model's draws is as it was. -/
structure State.keepsAroundW (st t : State) : Prop where
  inBuf : t.inBuf = st.inBuf
  channels : st.keepsChannels t
  outcome : st.keepsOutcome t
  outside : st.keepsOutside t

theorem State.keepsAroundW_refl (st : State) : st.keepsAroundW st :=
  ⟨rfl, ⟨rfl, rfl⟩, ⟨rfl, rfl⟩, ⟨rfl, rfl, rfl, rfl, rfl⟩⟩

/-- A write of W_* and a move of the sequencer keep it. -/
theorem State.keepsAroundW.setWBuf_setSeq (h : st.keepsAroundW u) (w : Bank) (p : Position) :
    st.keepsAroundW ((u.setWBuf w).setSeq p) where
  inBuf := h.inBuf
  channels := ⟨h.channels.inChan, h.channels.outChan⟩
  outcome := ⟨h.outcome.doneFlag, h.outcome.status⟩
  outside := ⟨h.outside.params, h.outside.protocolFault, h.outside.agenda, h.outside.received, h.outside.result⟩

/-! ### The 256 moves -/

/-- `u` is `st` after the moves of the indices below `j`: each of those samples of `x` stands at its reversed index. -/
structure State.permutedTo (st : State) (x : Frame) (j : Nat) (u : State) : Prop where
  moved : ∀ m : BitVec 8, m.toNat < j → u.wBuf.read (bitrev8 m).toNat = .ok (x.read m)
  moving : j < 256 → u.phase = .permute ∧ u.i.toNat = j
  left : j = 256 → u.phase = .bfly ∧ u.s = 0 ∧ u.k = 0
  around : st.keepsAroundW u

/-- Before the first move W_* may hold anything. -/
theorem permutedTo_zero (hp : st.phase = .permute) (hi : st.i = 0) : st.permutedTo x 0 st where
  moved := fun _ hm => absurd hm (Nat.not_lt_zero _)
  moving := fun _ => ⟨hp, by simp [hi]⟩
  left := nofun
  around := st.keepsAroundW_refl

/-- The next move writes its own element, and by `bitrev8_inj` no element written before. -/
theorem moved_write {b w : Bank} {j : Nat} (hj : j < 256)
    (h : ∀ m : BitVec 8, m.toNat < j → b.read (bitrev8 m).toNat = .ok (x.read m))
    (hw : b.write (bitrev8 (BitVec.ofNat 8 j)).toNat (x.read (BitVec.ofNat 8 j)) = .ok w) :
    ∀ m : BitVec 8, m.toNat < j + 1 → w.read (bitrev8 m).toNat = .ok (x.read m) := by
  intro m hm
  rw [Bank.read_after_write hw]
  split
  · next hsame => rw [bitrev8_inj (BitVec.eq_of_toNat_eq hsame)]
  · next hother =>
    have hne : m.toNat ≠ j := by rintro rfl; exact hother (by rw [ofNat8_toNat])
    exact h m (by omega)

/-- One step of the engine makes one move more. -/
theorem permutedTo_step {j : Nat} (hm : st.protocolFault = false) (ha : st.agenda = []) (hx : st.inBuf = Bank.ofFrame x)
    (hj : j < 256) (h : st.permutedTo x j u) : ∃ t, step u = .next t ∧ st.permutedTo x (j + 1) t := by
  obtain ⟨hp, rfl⟩ := h.moving hj
  have hv : u.inBuf.read u.i.toNat = .ok (x.read (BitVec.ofNat 8 u.i.toNat)) := by
    rw [h.around.inBuf, hx, Bank.read_ofFrame x hj]
  obtain ⟨w, hw, hstep⟩ := execPermuteStep_eq hp hj hv
  have halone : step u = exec .permuteStep u :=
    step_of_phase (h.around.outside.protocolFault.trans hm) (h.around.outside.agenda.trans ha) (by rw [hp]; rfl)
  exact ⟨_, halone.trans hstep, {
    moved := moved_write hj h.moved hw
    moving := fun hlt => setSeq_afterMove_of_lt _ (by omega)
    left := fun hlast => setSeq_afterMove_last _ (by omega)
    around := h.around.setWBuf_setSeq w _ }⟩

/-- All 256 samples at their reversed indices are PERMUTE of the frame. -/
theorem permutedTo_wBuf (h : st.permutedTo x 256 u) : u.wBuf = Bank.ofFrame (permute x) :=
  Bank.eq_ofFrame fun m => by simpa using h.moved (bitrev8 m) (bitrev8 m).isLt

/-! ### The obligations -/

/-- Settles O56: each of the 256 steps puts one sample at its reversed index, and no later step touches it. -/
theorem permuteStepsComputePermute : Obligations.PermuteStepsComputePermute := by
  intro st x hm ha hp hi hx
  obtain ⟨t, hrun, ht⟩ := run_invariant (permutedTo_zero (x := x) hp hi) fun j hj u => permutedTo_step hm ha hx hj
  obtain ⟨hphase, hs, hk⟩ := ht.left rfl
  obtain ⟨hin, hchannels, houtcome, houtside⟩ := ht.around
  exact ⟨t, hrun, hphase, hs, hk, permutedTo_wBuf ht, hin, hchannels, houtcome, houtside⟩

/-- Settles O13: PERMUTE's value is `permute x`, whose sample m is sample BITREV8(m) of `x` (R123). -/
theorem permuteReordersByBitReversal : Obligations.PermuteReordersByBitReversal := by
  intro x st
  refine ⟨permute x, rfl, fun i => ?_, permute_read x, permute_permute x⟩
  rw [permute_read, bitrev8_bitrev8]

/-- Settles O14: PERMUTE_STEP writes its sample at the reversed index and moves the sequencer on, and does no more. -/
theorem permuteStepMovesOneSample : Obligations.PermuteStepMovesOneSample := by
  intro st i r re im hp hi hr hre him
  have hlt : st.i.toNat < 256 := hi ▸ i.isLt
  have hv : st.inBuf.read st.i.toNat = .ok ⟨re, im⟩ := hi ▸ Bank.read_of_some i.isLt hre him
  obtain ⟨w, hw, hstep⟩ := execPermuteStep_eq hp hlt hv
  have hindex : BitVec.ofNat 8 i.val = BitVec.ofFin i := ofNat8_toNat (BitVec.ofFin i)
  rw [hi, hindex, ← hr] at hw
  obtain ⟨hin, hchannels, houtcome, houtside⟩ := st.keepsAroundW_refl.setWBuf_setSeq w (afterMove st.i)
  refine ⟨_, hstep, fun j => (Bank.getElem_write hw j).1, fun j => (Bank.getElem_write hw j).2, fun hother => ?_,
    fun hlast => setSeq_afterMove_last _ (hi.trans hlast), hin, hchannels, houtcome, houtside⟩
  rw [← hi]
  exact setSeq_afterMove_of_lt _ (hi.trans_lt hother)

/-- Settles O11: each of the eight positions is one case. -/
theorem bitrev8ReversesTheBits : Obligations.Bitrev8ReversesTheBits :=
  ⟨fun _ _ => rfl, fun i _ => getLsbD_bitrev8 i, by decide, by decide, by decide, by decide, by decide⟩

/-- Settles O12: an involution is a bijection; the fixed points and the number of the others are found among the 256 indices. -/
theorem bitrev8IsAnInvolution : Obligations.Bitrev8IsAnInvolution :=
  ⟨bitrev8_involutive, bitrev8_involutive.bijective, by decide +kernel, by decide +kernel⟩

end Sys2Proof.Machine
end

section
/-! SUPPORT. The twiddle ROM and the complex multiplier (42_twiddle.md R130 to R134): the entries the rules name, the symmetries of
R130's table, and CMUL_TW at its exact factors. -/

namespace Sys2Proof.Machine

/-! ### The default table (R130) -/

theorem twRead_default_0 : twRead defaultTwTable 0 = ⟨0x00010000, 0x00000000⟩ := by decide +kernel

theorem twRead_default_1 : twRead defaultTwTable 1 = ⟨0x0000FFEC, 0xFFFFF9B8⟩ := by decide +kernel

theorem twRead_default_32 : twRead defaultTwTable 32 = ⟨0x0000B504, 0xFFFF4AFC⟩ := by decide +kernel

theorem twRead_default_64 : twRead defaultTwTable 64 = ⟨0x00000000, 0xFFFF0000⟩ := by decide +kernel

/-- R134, first law: row 128 - t mirrors row t about the imaginary axis; row by row. -/
theorem twRead_default_reflect (t : Fin 127) :
    (twRead defaultTwTable (BitVec.ofNat 7 (127 - t))).re = qSub 0 (twRead defaultTwTable (BitVec.ofNat 7 (t + 1))).re ∧
    (twRead defaultTwTable (BitVec.ofNat 7 (127 - t))).im = (twRead defaultTwTable (BitVec.ofNat 7 (t + 1))).im := by
  revert t; decide +kernel

/-- R134, second law: the sine of an angle is the cosine of its complement; row by row. -/
theorem twRead_default_complement (t : Fin 65) :
    (twRead defaultTwTable (BitVec.ofNat 7 (64 - t))).re = qSub 0 (twRead defaultTwTable (BitVec.ofNat 7 t)).im := by
  revert t; decide +kernel

/-- R134, third law, first half; row by row. -/
theorem twRead_default_im_nonpos (t : BitVec 7) : (twRead defaultTwTable t).im.toInt ≤ 0 := by
  revert t; decide +kernel

/-- R134, third law, second half: only row 0 is real; row by row. -/
theorem twRead_default_im_eq_zero_iff (t : BitVec 7) : (twRead defaultTwTable t).im = 0 ↔ t = 0 := by
  revert t; decide +kernel

/-- R131: a row with the value -1 would be real, and the one real row is 1. -/
theorem twRead_default_ne_neg_one (t : BitVec 7) : twRead defaultTwTable t ≠ ⟨0xFFFF0000, 0x00000000⟩ := by
  intro h
  have hzero : t = 0 := (twRead_default_im_eq_zero_iff t).mp (congrArg Sample.im h)
  rw [hzero, twRead_default_0] at h
  exact absurd h (by decide)

/-! ### The multiplier at its exact factors (R132) -/

/-- A product with 1.0 is the operand and a product with 0 is 0, so nothing is truncated. -/
theorem cmulTw_one (b : Sample) : cmulTw b ⟨0x00010000, 0⟩ = b := by
  simp only [cmulTw, qMul_one, qMul_zero, qAdd_eq_add, qSub_eq_sub]
  simp

/-- A product with -1.0 is the wrapped negation and a product with 0 is 0, so nothing is truncated. -/
theorem cmulTw_neg_j (b : Sample) : cmulTw b ⟨0, 0xFFFF0000⟩ = ⟨b.im, qSub 0 b.re⟩ := by
  simp only [cmulTw, qMul_neg_one, qMul_zero, qAdd_eq_add, qSub_eq_sub]
  simp

/-! ### The obligations -/

/-- Settles O15: TW_READ's value is the table's entry, and the default table's entries are R130's. -/
theorem twReadReturnsTheRomEntry : Obligations.TwReadReturnsTheRomEntry :=
  ⟨fun _ _ => rfl, twRead_default_0, twRead_default_64, twRead_default_32, twRead_default_1, twRead_default_ne_neg_one⟩

/-- Settles O16, one law of R134 at a time. -/
theorem defaultRomIsSymmetric : Obligations.DefaultRomIsSymmetric :=
  ⟨twRead_default_reflect, twRead_default_complement,
    fun t => ⟨twRead_default_im_nonpos t, twRead_default_im_eq_zero_iff t⟩⟩

/-- Settles O17: CMUL_TW's value is the four products' difference and sum; at 1 and -j each product is exact. -/
theorem cmulTwTruncatesEachProduct : Obligations.CmulTwTruncatesEachProduct := by
  refine ⟨fun _ _ _ _ _ => rfl, fun b => ?_, fun b => ?_, ?_⟩
  · rw [twRead_default_0, cmulTw_one]
  · rw [twRead_default_64, cmulTw_neg_j]
  · rw [twRead_default_32]
    decide

end Sys2Proof.Machine
end

section
/-! SUPPORT. The indices of the butterfly core (43_butterfly.md R140 to R142): their bit form and ranges, and the butterfly that
touches an element. -/

namespace Sys2Proof.Machine

variable {s k : Nat}

/-! ### Indices -/

theorem half_pos (s : Nat) : 0 < half s := Nat.two_pow_pos s

theorem butterflyIndex_top (s k : Nat) : (butterflyIndex s k).top = k / 2 ^ s * 2 ^ (s + 1) + k % 2 ^ s := by
  simp only [butterflyIndex, half]
  ring

theorem butterflyIndex_bot (s k : Nat) : (butterflyIndex s k).bot = (butterflyIndex s k).top + 2 ^ s := rfl

theorem twStride_eq (hs : s < 8) : twStride s = 2 ^ (7 - s) := by
  rw [twStride, half, show 128 = 2 ^ 7 by rfl, Nat.pow_div (by omega) (by decide)]

theorem twIdx_eq (hs : s < 8) (k : Nat) : (butterflyIndex s k).twIdx = k % 2 ^ s * 2 ^ (7 - s) := by
  rw [← twStride_eq hs]
  rfl

/-- The 2^s entries of a stage, at its stride, span the table (R140). -/
theorem two_pow_mul_stride (hs : s < 8) : 2 ^ s * 2 ^ (7 - s) = 128 := by
  rw [← pow_add, Nat.add_sub_cancel' (by omega)]
  rfl

/-- R141's bit form: a 0 bit inserted at position s. -/
theorem top_eq_or (s k : Nat) : (butterflyIndex s k).top = (k >>> s) <<< (s + 1) ||| k % 2 ^ s := by
  have hlow : k % 2 ^ s < 2 ^ (s + 1) :=
    (Nat.mod_lt k (Nat.two_pow_pos s)).trans (Nat.pow_lt_pow_right (by decide) s.lt_succ_self)
  rw [← Nat.shiftLeft_add_eq_or_of_lt hlow, Nat.shiftLeft_eq, Nat.shiftRight_eq_div_pow, butterflyIndex_top]

/-- R141's bit form: bit s of top is 0, so adding 2^s sets it. -/
theorem bot_eq_or (s k : Nat) : (butterflyIndex s k).bot = (butterflyIndex s k).top ||| 2 ^ s := by
  have hj : k % 2 ^ s < 2 ^ s := Nat.mod_lt k (Nat.two_pow_pos s)
  have hlow : 2 ^ s + k % 2 ^ s < 2 ^ (s + 1) := by omega
  have hset : 2 ^ s + k % 2 ^ s = k % 2 ^ s ||| 2 ^ s := by
    rw [Nat.or_comm]
    simpa [Nat.shiftLeft_eq] using Nat.shiftLeft_add_eq_or_of_lt hj 1
  calc (butterflyIndex s k).bot = (k >>> s) <<< (s + 1) + (2 ^ s + k % 2 ^ s) := by
        rw [butterflyIndex_bot, butterflyIndex_top, Nat.shiftLeft_eq, Nat.shiftRight_eq_div_pow]
        ring
    _ = (butterflyIndex s k).top ||| 2 ^ s := by
        rw [Nat.shiftLeft_add_eq_or_of_lt hlow, hset, top_eq_or, Nat.or_assoc]

theorem twIdx_le (hs : s < 8) (k : Nat) : (butterflyIndex s k).twIdx ≤ 128 - twStride s := by
  have hj : k % 2 ^ s ≤ 2 ^ s - 1 := Nat.le_sub_one_of_lt (Nat.mod_lt k (Nat.two_pow_pos s))
  calc (butterflyIndex s k).twIdx ≤ (2 ^ s - 1) * 2 ^ (7 - s) := twIdx_eq hs k ▸ Nat.mul_le_mul_right _ hj
    _ = 128 - twStride s := by rw [Nat.sub_mul, two_pow_mul_stride hs, one_mul, twStride_eq hs]

/-- The last butterfly of the first group reads the last table entry of the stage. -/
theorem twIdx_last (hs : s < 8) : (butterflyIndex s (2 ^ s - 1)).twIdx = 128 - twStride s := by
  have hpos : 0 < 2 ^ s := Nat.two_pow_pos s
  rw [twIdx_eq hs, Nat.mod_eq_of_lt (by omega), Nat.sub_mul, two_pow_mul_stride hs, one_mul, twStride_eq hs]

/-- R141 read the other way: the indices of butterfly `j` of a group. -/
theorem butterflyIndex_group {s j : Nat} (group : Nat) (hj : j < half s) :
    butterflyIndex s (group * half s + j) =
      ⟨j, group * 2 * half s + j, group * 2 * half s + j + half s, j * twStride s⟩ := by
  have hmod : (group * half s + j) % half s = j := Nat.mul_add_mod_of_lt hj
  have hdiv : (group * half s + j) / half s = group := by
    rw [mul_comm, Nat.mul_add_div (half_pos s), Nat.div_eq_of_lt hj, add_zero]
  simp only [butterflyIndex, hmod, hdiv]

/-- The butterfly of stage s that touches element m, as `butterfly_of_index` computes it: bit s of m taken out. -/
def butterflyTouching (s m : Nat) : Nat := m / (2 * half s) * half s + m % half s

theorem butterflyTouching_lt (hs : s < 8) {m : Nat} (hm : m < 256) : butterflyTouching s m < 128 := by
  have hj : m % half s < half s := Nat.mod_lt m (half_pos s)
  have hgroup : m / (2 * half s) < 2 ^ (7 - s) := by
    apply Nat.div_lt_of_lt_mul
    rw [mul_assoc, half, two_pow_mul_stride hs]
    exact hm
  calc butterflyTouching s m < (m / (2 * half s) + 1) * half s := by rw [butterflyTouching, add_one_mul]; omega
    _ ≤ 2 ^ (7 - s) * half s := Nat.mul_le_mul_right _ hgroup
    _ = 128 := by rw [mul_comm, half, two_pow_mul_stride hs]

/-- The element's bit s says whether it is the butterfly's top or its bot. -/
theorem butterflyTouching_touches (s m : Nat) :
    (butterflyIndex s (butterflyTouching s m)).top = m ∨ (butterflyIndex s (butterflyTouching s m)).bot = m := by
  have hm : m / (2 * half s) * 2 * half s + (m % half s + half s * (m / half s % 2)) = m := by
    rw [← Nat.mod_mul, mul_comm (half s) 2, mul_assoc, Nat.div_add_mod']
  rw [butterflyTouching, butterflyIndex_group _ (Nat.mod_lt m (half_pos s))]
  rcases Nat.mod_two_eq_zero_or_one (m / half s) with hbit | hbit <;> rw [hbit] at hm
  · exact .inl (by simpa using hm)
  · exact .inr (by simpa [add_assoc] using hm)

/-! ### The obligation -/

/-- Settles O18: the bit forms hold of every s and k, and `butterflyTouching` is the one butterfly that touches an element. -/
theorem butterflyIndicesTileTheBuffer : Obligations.ButterflyIndicesTileTheBuffer := by
  refine ⟨fun s k => ?forms, fun s => ?attained, fun s m => ?cover⟩
  case forms =>
    have hlt : (butterflyIndex s k).top < (butterflyIndex s k).bot := Nat.lt_add_of_pos_right (half_pos s)
    exact ⟨top_eq_or s k, bot_eq_or s k, butterflyIndex_bot s k, twIdx_eq s.isLt k, hlt,
      Nat.le_of_lt_succ (bot_lt s.isLt k.isLt), twIdx_le s.isLt k⟩
  case attained =>
    have hspan : 2 ^ s.val ≤ 128 := two_pow_mul_stride s.isLt ▸ Nat.le_mul_of_pos_right _ (Nat.two_pow_pos _)
    have hpos : 0 < 2 ^ s.val := Nat.two_pow_pos _
    exact ⟨⟨2 ^ s.val - 1, by omega⟩, twIdx_last s.isLt⟩
  case cover =>
    exact ⟨⟨butterflyTouching s m, butterflyTouching_lt s.isLt m.isLt⟩, butterflyTouching_touches s m,
      fun k hk => Fin.ext (butterfly_of_index s.isLt k.isLt hk).symm⟩

end Sys2Proof.Machine
end

section
/-! SUPPORT. BUTTERFLY, STAGE and BFLY_CORE (43_butterfly.md R143 to R145): one step, the stages in order, and the 1024 steps as
the eight stages. -/

namespace Sys2Proof.Machine

variable {st u : State} {x : Frame} {s k : Nat}

/-! ### One step (R143) -/

/-- BUTTERFLY where it is enabled and its datapath completes. -/
theorem execButterfly_eq {w : Bank} (hp : st.phase = .bfly) (hs : st.s.toNat < 8) (hk : st.k.toNat < 128)
    (hw : butterflyOn st.params.twTable st.s.toNat st.k.toNat st.wBuf = .ok w) :
    execButterfly st = .next ((st.setWBuf w).setSeq (afterButterfly st.s st.k)) := by
  rw [execButterfly, if_pos (bflyEnabled_eq_true_iff.mpr ⟨hp, hs, hk⟩), hw]

/-- The datapath on two defined samples: both writes, of values computed from the samples before them (R30). -/
theorem butterflyOn_of_read (rom : TwTable) {w : Bank} {a b : Sample} (hs : s < 8) (hk : k < 128)
    (ha : w.read (butterflyIndex s k).top = .ok a) (hb : w.read (butterflyIndex s k).bot = .ok b) :
    ∃ w₁ w₂, w.write (butterflyIndex s k).top (butterflyTop a b (twSample rom s k)) = .ok w₁ ∧
      w₁.write (butterflyIndex s k).bot (butterflyBot a b (twSample rom s k)) = .ok w₂ ∧
      butterflyOn rom s k w = .ok w₂ := by
  rcases butterflyOn_cases rom hs hk w with ⟨a', b', w₁, w₂, ha', hb', hw₁, hw₂, hok⟩ | ⟨hundef, _⟩
  · cases ha.symm.trans ha'
    cases hb.symm.trans hb'
    exact ⟨w₁, w₂, hw₁, hw₂, hok⟩
  · simp [ha, hb] at hundef

/-- R182: a butterfly before the last of its stage leaves BFLY at the next one. -/
theorem setSeq_afterButterfly_of_lt (st : State) (s : BitVec 4) {k : BitVec 8} (hk : k.toNat < 127) :
    (st.setSeq (afterButterfly s k)).phase = .bfly ∧ (st.setSeq (afterButterfly s k)).s = s ∧
      (st.setSeq (afterButterfly s k)).k.toNat = k.toNat + 1 := by
  rw [afterButterfly, if_pos hk]
  exact ⟨rfl, rfl, succ8_toNat (by omega)⟩

/-- R182: the last butterfly of a stage before the last starts the next stage. -/
theorem setSeq_afterButterfly_stage (st : State) {s : BitVec 4} {k : BitVec 8} (hk : k.toNat = 127)
    (hs : s.toNat < 7) :
    (st.setSeq (afterButterfly s k)).phase = .bfly ∧ (st.setSeq (afterButterfly s k)).s.toNat = s.toNat + 1 ∧
      (st.setSeq (afterButterfly s k)).k = 0 := by
  rw [afterButterfly, if_neg (by omega), if_pos hs]
  exact ⟨rfl, succ4_toNat (by omega), rfl⟩

/-- R182: the last butterfly of stage 7 starts WRITE at word 0. -/
theorem setSeq_afterButterfly_last (st : State) {s : BitVec 4} {k : BitVec 8} (hk : k.toNat = 127)
    (hs : s.toNat = 7) :
    (st.setSeq (afterButterfly s k)).phase = .write ∧ (st.setSeq (afterButterfly s k)).n = 0 := by
  rw [afterButterfly, if_neg (by omega), if_neg (by omega)]
  exact ⟨rfl, rfl⟩

/-- The two writes, in each part of a pair. -/
theorem Bank.getElem_write_write {w w₁ w₂ : Bank} {i j : Fin 256} {a b : Sample} (h₁ : w.write i a = .ok w₁)
    (h₂ : w₁.write j b = .ok w₂) (hij : i ≠ j) (m : Fin 256) :
    w₂.re[m] = (if m = i then some a.re else if m = j then some b.re else w.re[m]) ∧
    w₂.im[m] = (if m = i then some a.im else if m = j then some b.im else w.im[m]) := by
  rw [(Bank.getElem_write h₂ m).1, (Bank.getElem_write h₂ m).2, (Bank.getElem_write h₁ m).1, (Bank.getElem_write h₁ m).2]
  by_cases hm : m = i
  · subst hm
    simp [hij]
  · simp [hm]

/-! ### Stages in order (R145) -/

/-- The stages below `s`, in order: BFLY_CORE up to stage `s`. -/
def stagesBelow (rom : TwTable) (s : Nat) (x : Frame) : Frame := (List.range s).foldl (fun w s => stage rom s w) x

theorem bflyCore_eq_stagesBelow (rom : TwTable) (x : Frame) : bflyCore rom x = stagesBelow rom 8 x := rfl

@[simp] theorem stagesBelow_zero (rom : TwTable) (x : Frame) : stagesBelow rom 0 x = x := rfl

theorem stagesBelow_succ (rom : TwTable) (s : Nat) (x : Frame) :
    stagesBelow rom (s + 1) x = stage rom s (stagesBelow rom s x) := by
  simp [stagesBelow, List.range_succ]

@[simp] theorem butterflies_nil (rom : TwTable) (s : Nat) (x : Frame) : butterflies rom s [] x = x := rfl

theorem butterflies_range_succ (rom : TwTable) (s k : Nat) (x : Frame) :
    butterflies rom s (List.range (k + 1)) x = butterfly rom s k (butterflies rom s (List.range k) x) := by
  simp [butterflies, List.range_succ]

/-- R145 written out. -/
theorem bflyCore_eq_stages (rom : TwTable) (x : Frame) :
    bflyCore rom x = stage rom 7 (stage rom 6 (stage rom 5 (stage rom 4 (stage rom 3 (stage rom 2 (stage rom 1
      (stage rom 0 x))))))) := by
  simp only [bflyCore_eq_stagesBelow, stagesBelow_succ, stagesBelow_zero]

/-! ### The 1024 steps (R145) -/

/-- The values after the first `j` butterflies in sequencer order: whole stages and a part of the next. -/
def butterfliesBelow (rom : TwTable) (j : Nat) (x : Frame) : Frame :=
  butterflies rom (j / 128) (List.range (j % 128)) (stagesBelow rom (j / 128) x)

/-- A multiple of 128 butterflies is that many whole stages. -/
theorem butterfliesBelow_stages (rom : TwTable) (s : Nat) (x : Frame) :
    butterfliesBelow rom (128 * s) x = stagesBelow rom s x := by
  rw [butterfliesBelow, Nat.mul_div_cancel_left s (by decide), Nat.mul_mod_right, List.range_zero, butterflies_nil]

/-- The butterfly in turn is the last of its stage or has another after it. -/
theorem butterfliesBelow_succ (rom : TwTable) (j : Nat) (x : Frame) :
    butterfliesBelow rom (j + 1) x = butterfly rom (j / 128) (j % 128) (butterfliesBelow rom j x) := by
  simp only [butterfliesBelow, ← butterflies_range_succ]
  by_cases hlast : j % 128 = 127
  · have hdiv : (j + 1) / 128 = j / 128 + 1 := by omega
    have hmod : (j + 1) % 128 = 0 := by omega
    rw [hdiv, hmod, stagesBelow_succ, hlast, List.range_zero, butterflies_nil, stage]
  · have hdiv : (j + 1) / 128 = j / 128 := by omega
    have hmod : (j + 1) % 128 = j % 128 + 1 := by omega
    rw [hdiv, hmod]

/-- `u` is `st` after the first `j` butterflies, in sequencer order, on the values `x`. -/
structure State.combinedTo (st : State) (x : Frame) (j : Nat) (u : State) : Prop where
  wBuf : u.wBuf = Bank.ofFrame (butterfliesBelow st.params.twTable j x)
  combining : j < 1024 → u.phase = .bfly ∧ u.s.toNat = j / 128 ∧ u.k.toNat = j % 128
  left : j = 1024 → u.phase = .write ∧ u.n = 0
  around : st.keepsAroundW u

theorem combinedTo_zero (hp : st.phase = .bfly) (hs : st.s = 0) (hk : st.k = 0) (hx : st.wBuf = Bank.ofFrame x) :
    st.combinedTo x 0 st where
  wBuf := hx.trans (congrArg Bank.ofFrame (butterfliesBelow_stages _ 0 x).symm)
  combining := fun _ => ⟨hp, by simp [hs], by simp [hk]⟩
  left := nofun
  around := st.keepsAroundW_refl

/-- The sequencer moves from butterfly `j` to butterfly `j + 1` within BFLY. -/
theorem setSeq_afterButterfly_next (st : State) {s : BitVec 4} {k : BitVec 8} {j : Nat} (hs : s.toNat = j / 128)
    (hk : k.toNat = j % 128) (hj : j + 1 < 1024) :
    (st.setSeq (afterButterfly s k)).phase = .bfly ∧ (st.setSeq (afterButterfly s k)).s.toNat = (j + 1) / 128 ∧
      (st.setSeq (afterButterfly s k)).k.toNat = (j + 1) % 128 := by
  by_cases hlast : k.toNat = 127
  · obtain ⟨hphase, hstage, hfirst⟩ := setSeq_afterButterfly_stage st hlast (s := s) (by omega)
    exact ⟨hphase, by omega, by rw [hfirst, BitVec.ofNat_eq_ofNat, BitVec.toNat_zero]; omega⟩
  · obtain ⟨hphase, hstage, hnext⟩ := setSeq_afterButterfly_of_lt st s (k := k) (by omega)
    exact ⟨hphase, by rw [hstage]; omega, by omega⟩

/-- One step of the engine makes one butterfly more. -/
theorem combinedTo_step {j : Nat} (hm : st.protocolFault = false) (ha : st.agenda = []) (hj : j < 1024)
    (h : st.combinedTo x j u) : ∃ t, step u = .next t ∧ st.combinedTo x (j + 1) t := by
  obtain ⟨hp, hs, hk⟩ := h.combining hj
  have hsLt : u.s.toNat < 8 := by omega
  have hkLt : u.k.toNat < 128 := by omega
  have hw : butterflyOn u.params.twTable u.s.toNat u.k.toNat u.wBuf =
      .ok (Bank.ofFrame (butterfliesBelow st.params.twTable (j + 1) x)) := by
    rw [h.wBuf, butterflyOn_ofFrame _ hsLt hkLt, h.around.outside.params, hs, hk, butterfliesBelow_succ]
  have halone : step u = exec .butterfly u :=
    step_of_phase (h.around.outside.protocolFault.trans hm) (h.around.outside.agenda.trans ha) (by rw [hp]; rfl)
  exact ⟨_, halone.trans (execButterfly_eq hp hsLt hkLt hw), {
    wBuf := rfl
    combining := setSeq_afterButterfly_next _ hs hk
    left := fun hlast => setSeq_afterButterfly_last _ (by omega) (by omega)
    around := h.around.setWBuf_setSeq _ _ }⟩

/-! ### The obligations -/

/-- Settles O57: each of the 1024 steps makes the next butterfly in sequencer order. -/
theorem butterflyStepsComputeBflyCore : Obligations.ButterflyStepsComputeBflyCore := by
  intro st x hm ha hp hs hk hx
  obtain ⟨t, hrun, ht⟩ := run_invariant (combinedTo_zero hp hs hk hx) fun j hj u => combinedTo_step hm ha hj
  obtain ⟨hphase, hn⟩ := ht.left rfl
  obtain ⟨hin, hchannels, houtcome, houtside⟩ := ht.around
  have hcore : butterfliesBelow st.params.twTable 1024 x = bflyCore st.params.twTable x := butterfliesBelow_stages _ 8 x
  exact ⟨t, hrun, hphase, hn, hcore ▸ ht.wBuf, hin, hchannels, houtcome, houtside⟩

/-- Settles O19: BUTTERFLY writes the two values of its pair and moves the sequencer on, and does no more. -/
theorem butterflyStepCombinesTwoSamples : Obligations.ButterflyStepCombinesTwoSamples := by
  intro st top bot t ar ai br bi hp hs hk htop hbot ht har hai hbr hbi
  have htop' : (butterflyIndex st.s.toNat st.k.toNat).top = top := htop.symm
  have hbot' : (butterflyIndex st.s.toNat st.k.toNat).bot = bot := by rw [hbot, ← htop']; rfl
  have hne : top ≠ bot := fun h => top_ne_bot hs hk (by rw [htop', hbot', h])
  have htw : twSample st.params.twTable st.s.toNat st.k.toNat = st.params.twTable[t] := by
    have hidx : (butterflyIndex st.s.toNat st.k.toNat).twIdx = t := ht.symm
    simp [twSample, twRead, hidx]
  have ha : st.wBuf.read top = .ok ⟨ar, ai⟩ := Bank.read_of_some top.isLt har hai
  have hb : st.wBuf.read bot = .ok ⟨br, bi⟩ := Bank.read_of_some bot.isLt hbr hbi
  obtain ⟨w₁, w₂, hw₁, hw₂, hok⟩ := butterflyOn_of_read st.params.twTable hs hk (htop' ▸ ha) (hbot' ▸ hb)
  rw [htop', htw] at hw₁
  rw [hbot', htw] at hw₂
  have hvalues := Bank.getElem_write_write hw₁ hw₂ hne
  obtain ⟨hin, hchannels, houtcome, houtside⟩ := st.keepsAroundW_refl.setWBuf_setSeq w₂ (afterButterfly st.s st.k)
  exact ⟨_, execButterfly_eq hp hs hk hok, fun j => (hvalues j).1, fun j => (hvalues j).2,
    fun h => setSeq_afterButterfly_of_lt _ st.s h, fun h => setSeq_afterButterfly_stage _ h,
    fun h => setSeq_afterButterfly_last _ h, hin, hchannels, houtcome, houtside⟩

/-- Settles O21: STAGE's value is `stage`, whose every pair is given by `stage_read`, and BFLY_CORE's is the eight stages. -/
theorem stagesApplyEveryButterfly : Obligations.StagesApplyEveryButterfly := by
  refine ⟨fun s x st hs => ⟨_, exec_stage_of_lt hs _, rfl, fun k hk => stage_read st.params.twTable hs hk x⟩,
    fun s w st hs => if_neg (by omega), fun x st => ?core⟩
  case core =>
    rw [← bflyCore_eq_stages]
    rfl

end Sys2Proof.Machine
end

section
/-! SUPPORT. The two bins that are sums of the inputs (43_butterfly.md R146): the first butterfly of every group is exact, so the
first element of a group is the sum of the group. -/

namespace Sys2Proof.Machine

variable {s k : Nat}

/-! ### Exact butterflies -/

/-- The sum of two samples, part by part, modulo 2^32. -/
def sampleSum (a b : Sample) : Sample := ⟨a.re + b.re, a.im + b.im⟩

/-- The difference of two samples, part by part, modulo 2^32. -/
def sampleDiff (a b : Sample) : Sample := ⟨a.re - b.re, a.im - b.im⟩

/-- R143: at a table entry of 1 the butterfly is exact. -/
theorem butterflyTop_one (a b : Sample) : butterflyTop a b ⟨0x00010000, 0⟩ = sampleSum a b := by
  rw [butterflyTop, cmulTw_one, qAdd_eq_add, qAdd_eq_add, sampleSum]

theorem butterflyBot_one (a b : Sample) : butterflyBot a b ⟨0x00010000, 0⟩ = sampleDiff a b := by
  rw [butterflyBot, cmulTw_one, qSub_eq_sub, qSub_eq_sub, sampleDiff]

/-- The indices of the first butterfly of a group (R141 with j = 0). -/
theorem butterflyIndex_of_dvd (h : half s ∣ k) : butterflyIndex s k = ⟨0, 2 * k, 2 * k + half s, 0⟩ := by
  have hgroup : k / half s * 2 * half s = 2 * k := by rw [mul_right_comm, Nat.div_mul_cancel h, mul_comm]
  simp only [butterflyIndex, Nat.mod_eq_zero_of_dvd h, hgroup, add_zero, zero_mul]

/-- The first butterfly of a group reads table entry 0. -/
theorem stage_read_first {rom : TwTable} (hrom : twRead rom 0 = ⟨0x00010000, 0⟩) (hs : s < 8) (hk : k < 128)
    (h : half s ∣ k) (w : Frame) :
    (stage rom s w).read (BitVec.ofNat 8 (2 * k)) =
      sampleSum (w.read (BitVec.ofNat 8 (2 * k))) (w.read (BitVec.ofNat 8 (2 * k + half s))) ∧
    (stage rom s w).read (BitVec.ofNat 8 (2 * k + half s)) =
      sampleDiff (w.read (BitVec.ofNat 8 (2 * k))) (w.read (BitVec.ofNat 8 (2 * k + half s))) := by
  have htw : twRead rom (BitVec.ofNat 7 0) = ⟨0x00010000, 0⟩ := hrom
  simpa only [topSample, botSample, twSample, butterflyIndex_of_dvd h, htw, butterflyTop_one, butterflyBot_one]
    using stage_read rom hs hk w

/-! ### Sums of a range of samples, through the stages -/

/-- The sum of `count` scalars from index `base` on, modulo 2^32. -/
def rangeSum (g : BitVec 8 → Q16) (base count : Nat) : Q16 := ∑ j ∈ Finset.range count, g (BitVec.ofNat 8 (base + j))

theorem rangeSum_add (g : BitVec 8 → Q16) (base m n : Nat) :
    rangeSum g base (m + n) = rangeSum g base m + rangeSum g (base + m) n := by
  simp only [rangeSum, Finset.sum_range_add, add_assoc]

/-- The sum of the `count` samples of a frame from index `base` on. -/
def sumFrom (w : Frame) (base count : Nat) : Sample :=
  ⟨rangeSum (fun i => (w.read i).re) base count, rangeSum (fun i => (w.read i).im) base count⟩

theorem sumFrom_one (w : Frame) (base : Nat) : sumFrom w base 1 = w.read (BitVec.ofNat 8 base) := by
  simp [sumFrom, rangeSum]

theorem sumFrom_add (w : Frame) (base m n : Nat) :
    sumFrom w base (m + n) = sampleSum (sumFrom w base m) (sumFrom w (base + m) n) := by
  simp only [sumFrom, rangeSum_add, sampleSum]

/-- Before stage `s` the first element of every group of 2^s elements is the sum of the group's inputs. -/
theorem stagesBelow_read_first {rom : TwTable} (hrom : twRead rom 0 = ⟨0x00010000, 0⟩) (w : Frame) (hs : s ≤ 8)
    {base : Nat} (hbase : base < 256) (h : half s ∣ base) :
    (stagesBelow rom s w).read (BitVec.ofNat 8 base) = sumFrom w base (half s) := by
  induction s generalizing base with
  | zero => exact (sumFrom_one w base).symm
  | succ s ih =>
    have hhalf : half (s + 1) = half s + half s := by rw [half, pow_succ, Nat.mul_two, half]
    obtain ⟨k, rfl, hk⟩ : ∃ k, base = 2 * k ∧ half s ∣ k := by
      obtain ⟨group, rfl⟩ := h
      exact ⟨half s * group, by rw [hhalf]; ring, dvd_mul_right _ _⟩
    have hbot : 2 * k + half s < 256 := by simpa [butterflyIndex_of_dvd hk] using bot_lt (k := k) hs (by omega)
    rw [stagesBelow_succ, (stage_read_first hrom hs (by omega) hk _).1, ih (by omega) hbase (hk.mul_left 2),
      ih (by omega) hbot ((hk.mul_left 2).add dvd_rfl), hhalf, sumFrom_add]

/-- Stage 7 adds and subtracts the sums of the two halves of its buffer. -/
theorem bflyCore_read_sums {rom : TwTable} (hrom : twRead rom 0 = ⟨0x00010000, 0⟩) (w : Frame) :
    (bflyCore rom w).read 0 = sampleSum (sumFrom w 0 128) (sumFrom w 128 128) ∧
    (bflyCore rom w).read 128 = sampleDiff (sumFrom w 0 128) (sumFrom w 128 128) := by
  have hlower : (stagesBelow rom 7 w).read 0 = sumFrom w 0 128 :=
    stagesBelow_read_first hrom w (s := 7) (by decide) (by decide) (dvd_zero _)
  have hupper : (stagesBelow rom 7 w).read 128 = sumFrom w 128 128 :=
    stagesBelow_read_first hrom w (s := 7) (by decide) (by decide) dvd_rfl
  rw [bflyCore_eq_stagesBelow, stagesBelow_succ, ← hlower, ← hupper]
  exact stage_read_first hrom (s := 7) (k := 0) (by decide) (by decide) (dvd_zero _) _

/-! ### Sums of the inputs in bit-reversed order -/

/-- The samples with even index stand in the lower half of the bit-reversed buffer, those with odd index in the upper. -/
theorem bitrev8_parity : ∀ j : Fin 128,
    (bitrev8 (BitVec.ofNat 8 (0 + j))).toNat % 2 = 0 ∧ (bitrev8 (BitVec.ofNat 8 (128 + j))).toNat % 2 = 1 := by
  decide +kernel

theorem sum_eq_rangeSum (g : BitVec 8 → Q16) : ∑ i : Fin 256, g (BitVec.ofFin i) = rangeSum g 0 256 := by
  rw [rangeSum, Finset.sum_range]
  exact Finset.sum_congr rfl fun i _ => by simp

/-- A sum over all indices may be taken in bit-reversed order (R122). -/
theorem rangeSum_bitrev8 (g : BitVec 8 → Q16) : rangeSum (fun i => g (bitrev8 i)) 0 256 = rangeSum g 0 256 := by
  have hall (g : BitVec 8 → Q16) : ∑ i, g i = rangeSum g 0 256 := by
    rw [← sum_eq_rangeSum]
    exact (BitVec.equivFin.symm.toEquiv.sum_comp g).symm
  rw [← hall, ← hall]
  exact bitrev8_involutive.bijective.sum_comp g

/-- `wrap_32` of a signed sum is a sum of scalars: BitVec.ofInt is a ring homomorphism. -/
theorem ofInt_signedSum (f : Vector Q16 256) (sign : Nat → Int) :
    BitVec.ofInt 32 (signedSum f sign) = rangeSum (fun i => BitVec.ofInt 32 (sign i.toNat) * f[i.toNat]) 0 256 := by
  have hcast (z : Int) : BitVec.ofInt 32 z = (z : Q16) := rfl
  rw [← sum_eq_rangeSum, signedSum, ← Fin.sum_univ_def, hcast, Int.cast_sum]
  refine Finset.sum_congr rfl fun i _ => ?_
  rw [Int.cast_mul, ← hcast, ← hcast, BitVec.ofInt_toInt]
  rfl

/-- A sign that is the same for all the indices of a range is a factor of its sum. -/
theorem rangeSum_sign_mul {sign : BitVec 8 → Int} {c : Int} {base count : Nat}
    (h : ∀ j, j < count → sign (BitVec.ofNat 8 (base + j)) = c) (g : BitVec 8 → Q16) :
    rangeSum (fun i => BitVec.ofInt 32 (sign i) * g i) base count = (c : Q16) * rangeSum g base count := by
  rw [rangeSum, rangeSum, Finset.mul_sum]
  refine Finset.sum_congr rfl fun j hj => ?_
  rw [h j (Finset.mem_range.mp hj)]
  rfl

/-- A sign that depends on the parity of an input's index is one sign for each half of the bit-reversed buffer. -/
theorem ofInt_signedSum_halves (f : Vector Q16 256) {sign : Nat → Int} {odd : Int}
    (hsign : ∀ n, (n % 2 = 0 → sign n = 1) ∧ (n % 2 = 1 → sign n = odd)) :
    BitVec.ofInt 32 (signedSum f sign) =
      rangeSum (fun i => f[(bitrev8 i).toNat]) 0 128 +
        (odd : Q16) * rangeSum (fun i => f[(bitrev8 i).toNat]) 128 128 := by
  have hlower (j : Nat) (hj : j < 128) : sign (bitrev8 (BitVec.ofNat 8 (0 + j))).toNat = 1 :=
    (hsign _).1 (bitrev8_parity ⟨j, hj⟩).1
  have hupper (j : Nat) (hj : j < 128) : sign (bitrev8 (BitVec.ofNat 8 (128 + j))).toNat = odd :=
    (hsign _).2 (bitrev8_parity ⟨j, hj⟩).2
  rw [ofInt_signedSum, ← rangeSum_bitrev8, rangeSum_add _ 0 128 128, rangeSum_sign_mul hlower, rangeSum_sign_mul hupper,
    Int.cast_one, one_mul]

theorem sumFrom_permute (x : Frame) (base count : Nat) :
    sumFrom (permute x) base count =
      ⟨rangeSum (fun i => x.re[(bitrev8 i).toNat]) base count,
        rangeSum (fun i => x.im[(bitrev8 i).toNat]) base count⟩ := by
  simp only [sumFrom, permute_read]
  rfl

/-! ### The obligation -/

/-- Settles O24: every butterfly that feeds the two bins is exact, so bin 0 adds the sums of the two halves of the bit-reversed
frame, which are the inputs of even and of odd index, and bin 128 subtracts them. -/
theorem binZeroAndBin128AreSums : Obligations.BinZeroAndBin128AreSums := by
  intro rom x hrom
  have hsum (f : Vector Q16 256) := ofInt_signedSum_halves f (sign := fun _ => 1) (odd := 1)
    fun _ => ⟨fun _ => rfl, fun _ => rfl⟩
  have halternating (f : Vector Q16 256) := ofInt_signedSum_halves f (sign := fun n => (-1) ^ n) (odd := -1)
    fun n => ⟨fun h => (Nat.even_iff.mpr h).neg_one_pow, fun h => (Nat.odd_iff.mpr h).neg_one_pow⟩
  simp only [Int.cast_one, one_mul] at hsum
  simp only [Int.cast_neg, Int.cast_one, neg_one_mul, ← sub_eq_add_neg] at halternating
  rw [hsum, hsum, halternating, halternating]
  simpa only [sumFrom_permute, sampleSum, sampleDiff, fft] using bflyCore_read_sums hrom (permute x)

end Sys2Proof.Machine
end

section
/-! SUPPORT. READ_WORD and the reader's 256 steps (44_frame_io.md R162, R164): which word raises FramingError, what one step takes,
and the state after some of the words of a sequence. -/

namespace Sys2Proof.Machine

variable {st u : State} {ws rest : List TransportWord}

/-! ### One step (R162) -/

/-- ferr with the word `w` counted in, which only policy true does. -/
def State.ferrWith (st : State) (w : TransportWord) : Bool :=
  st.ferr || (st.params.drainOnFramingError && !framingCheck st.n.toNat w.last)

/-- The policy raises FramingError at the word `w`: on the word that fails the check, or under policy true on word 255 once one
has failed. -/
def State.raises (st : State) (w : TransportWord) : Bool :=
  if st.params.drainOnFramingError = true then decide (st.n.toNat = 255) && st.ferrWith w
  else !framingCheck st.n.toNat w.last

/-- READ_WORD of a word that raises FramingError. -/
theorem execReadWord_raised {w : TransportWord} (hp : st.phase = .read) (hn : st.n.toNat < 256)
    (hin : st.inChan = w :: rest) (hr : st.raises w = true) :
    ∃ b, execReadWord st = .next (((st.setInChan rest).setInBuf b).errorEntry .framingError) := by
  obtain ⟨b, _, ⟨hstep, _, _⟩ | ⟨f, _, hdrain, hstop⟩⟩ := execReadWord_cases hp hn hin
  · exact ⟨b, hstep⟩
  · exfalso
    cases hd : st.params.drainOnFramingError with
    | false => simp [State.raises, hd, (hstop hd).2] at hr
    | true =>
      obtain ⟨hlast, hferr⟩ : st.n.toNat = 255 ∧ st.ferrWith w = true := by simpa [State.raises, hd] using hr
      obtain ⟨rfl, hother | hclear⟩ := hdrain hd
      · exact hother (BitVec.eq_of_toNat_eq hlast)
      · simp [State.ferrWith, hd, hclear] at hferr

/-- READ_WORD of a word that does not: it is stored at index n. -/
theorem execReadWord_stored {w : TransportWord} (hp : st.phase = .read) (hn : st.n.toNat < 256)
    (hin : st.inChan = w :: rest) (hr : st.raises w = false) :
    ∃ b, st.inBuf.write st.n.toNat (unpack w.data) = .ok b ∧
      execReadWord st =
        .next ((((st.setInChan rest).setInBuf b).setFerr (st.ferrWith w)).setSeq (afterRead st.n)) := by
  obtain ⟨b, hb, ⟨_, hdrain, hstop⟩ | ⟨f, hstep, hdrain, hstop⟩⟩ := execReadWord_cases hp hn hin
  · exfalso
    cases hd : st.params.drainOnFramingError with
    | false => simp [State.raises, hd, hstop hd] at hr
    | true =>
      obtain ⟨hlast, hferr⟩ := hdrain hd
      simp [State.raises, State.ferrWith, hd, hlast] at hr
      simp [hlast, hr] at hferr
  · have hf : f = st.ferrWith w := by
      cases hd : st.params.drainOnFramingError with
      | false => simp [State.ferrWith, hd, (hstop hd).1]
      | true => simp [State.ferrWith, hd, (hdrain hd).1]
    exact ⟨b, hb, hf ▸ hstep⟩

/-- R182: a word before the last leaves READ at the next index, with ferr kept. -/
theorem setSeq_afterRead_of_lt (st : State) {n : BitVec 9} (hn : n.toNat < 255) :
    (st.setSeq (afterRead n)).phase = .read ∧ (st.setSeq (afterRead n)).n.toNat = n.toNat + 1 ∧
      (st.setSeq (afterRead n)).ferr = st.ferr := by
  have hne : n ≠ 255 := by rintro rfl; exact absurd hn (by decide)
  rw [afterRead_other hne]
  exact ⟨rfl, succ9_toNat (by omega), rfl⟩

/-- R182: word 255 starts PERMUTE at index 0. -/
theorem setSeq_afterRead_last (st : State) {n : BitVec 9} (hn : n.toNat = 255) :
    (st.setSeq (afterRead n)).phase = .permute ∧ (st.setSeq (afterRead n)).i = 0 := by
  rw [afterRead_last (BitVec.eq_of_toNat_eq hn)]
  exact ⟨rfl, rfl⟩

/-- Everything but the sequencer, IN, IN_* and the model's draws is as it was. -/
structure State.keepsAroundIn (st t : State) : Prop where
  wBuf : t.wBuf = st.wBuf
  outChan : t.outChan = st.outChan
  outcome : st.keepsOutcome t
  outside : st.keepsOutside t

theorem State.keepsAroundIn_refl (st : State) : st.keepsAroundIn st :=
  ⟨rfl, rfl, ⟨rfl, rfl⟩, ⟨rfl, rfl, rfl, rfl, rfl⟩⟩

/-- A word stored keeps it. -/
theorem State.keepsAroundIn.stored (h : st.keepsAroundIn u) (us : List TransportWord) (b : Bank) (f : Bool) (p : Position) :
    st.keepsAroundIn ((((u.setInChan us).setInBuf b).setFerr f).setSeq p) where
  wBuf := h.wBuf
  outChan := h.outChan
  outcome := ⟨h.outcome.doneFlag, h.outcome.status⟩
  outside := ⟨h.outside.params, h.outside.protocolFault, h.outside.agenda, h.outside.received, h.outside.result⟩

/-! ### The words of a sequence (R164) -/

theorem badWord_eq {j : Nat} (h : j < ws.length) : badWord ws j = !framingCheck j ws[j].last := by
  simp [badWord, h]

/-- One of the words before position `j` fails the check. -/
def badBefore (ws : List TransportWord) (j : Nat) : Bool := (List.range j).any (badWord ws)

theorem badBefore_succ (ws : List TransportWord) (j : Nat) :
    badBefore ws (j + 1) = (badBefore ws j || badWord ws j) := by
  simp [badBefore, List.range_succ]

theorem badBefore_256 (ws : List TransportWord) : badBefore ws 256 = (firstBad ws).isSome := by
  rw [badBefore, firstBad, List.isSome_find?]

/-- The reader raises FramingError at word `j` of the sequence. -/
def raisedAt (drain : Bool) (ws : List TransportWord) (j : Nat) : Bool :=
  if drain = true then decide (j = 255) && badBefore ws 256 else badWord ws j

/-- READ_FRAME's Ok: no word raises. -/
theorem raisedAt_of_ok {drain : Bool} (h : firstBad ws = none) {j : Nat} (hj : j < 256) : raisedAt drain ws j = false := by
  cases drain with
  | true => simp [raisedAt, badBefore_256, h]
  | false => simpa [raisedAt] using List.find?_eq_none.mp h j (List.mem_range.mpr hj)

/-- READ_FRAME's Error: the last word that it counts is the first that raises. -/
theorem raisedAt_of_framingError {drain : Bool} {c : Nat} (h : readFrame drain ws = .framingError c) :
    ∃ k, c = k + 1 ∧ k < 256 ∧ k < ws.length ∧ raisedAt drain ws k = true ∧ ∀ j < k, raisedAt drain ws j = false := by
  obtain ⟨m, hm, hstop, hdrain⟩ := readFrame_framingError h
  cases drain with
  | false =>
    obtain ⟨hlt, hlen, hbad, hgood⟩ := of_firstBad_some hm
    refine ⟨m, hstop rfl, hlt, hlen, by simp [raisedAt, badWord_eq hlen, hbad], fun j hj => ?_⟩
    simp [raisedAt, badWord_eq (hj.trans hlen), hgood j hj]
  | true =>
    obtain ⟨rfl, hlen⟩ := hdrain rfl
    refine ⟨255, rfl, by decide, hlen, by simp [raisedAt, badBefore_256, hm], fun j hj => ?_⟩
    simp [raisedAt, hj.ne]

/-! ### The steps of the reader -/

/-- `u` is `st` after the first `j` of the words `ws`, none of which has raised FramingError. -/
structure State.hasRead (st : State) (ws rest : List TransportWord) (j : Nat) (u : State) : Prop where
  inChan : u.inChan = ws.drop j ++ rest
  stored : ∀ (m : BitVec 8) (h : m.toNat < ws.length), m.toNat < j → u.inBuf.read m.toNat = .ok (unpack ws[m.toNat].data)
  reading : j < 256 → u.phase = .read ∧ u.n.toNat = j ∧ u.ferr = (st.params.drainOnFramingError && badBefore ws j)
  left : j = 256 → u.phase = .permute ∧ u.i = 0
  around : st.keepsAroundIn u

theorem hasRead_zero (hp : st.phase = .read) (hn : st.n = 0) (hf : st.ferr = false) (hin : st.inChan = ws ++ rest) :
    st.hasRead ws rest 0 st where
  inChan := hin
  stored := fun _ _ hm => absurd hm (Nat.not_lt_zero _)
  reading := fun _ => ⟨hp, by simp [hn], by simp [hf, badBefore]⟩
  left := nofun
  around := st.keepsAroundIn_refl

theorem step_of_hasRead {j : Nat} (h : st.hasRead ws rest j u) (hj : j < 256) (hm : st.protocolFault = false)
    (ha : st.agenda = []) : step u = execReadWord u := by
  obtain ⟨hp, _, _⟩ := h.reading hj
  exact step_of_phase (h.around.outside.protocolFault.trans hm) (h.around.outside.agenda.trans ha) (by rw [hp]; rfl)

section
variable {j : Nat} (h : st.hasRead ws rest j u) (hj : j < 256) (hlen : j < ws.length)
include h hlen

theorem hasRead_inChan_cons : u.inChan = ws[j] :: (ws.drop (j + 1) ++ rest) := by
  rw [h.inChan, List.drop_eq_getElem_cons hlen, List.cons_append]

theorem hasRead_stored_write {b : Bank} (hb : u.inBuf.write j (unpack ws[j].data) = .ok b) (m : BitVec 8)
    (hm : m.toNat < ws.length) (hlt : m.toNat < j + 1) : b.read m.toNat = .ok (unpack ws[m.toNat].data) := by
  rw [Bank.read_after_write hb]
  split
  · next hsame => simp only [hsame]
  · exact h.stored m hm (by omega)

include hj

/-- ferr says whether one of the words so far has failed the check, so the step's view of its word is the sequence's. -/
theorem hasRead_ferrWith : u.ferrWith ws[j] = (st.params.drainOnFramingError && badBefore ws (j + 1)) := by
  obtain ⟨_, hn, hf⟩ := h.reading hj
  rw [State.ferrWith, h.around.outside.params, hn, hf, ← badWord_eq hlen, badBefore_succ, Bool.and_or_distrib_left]

theorem hasRead_raises : u.raises ws[j] = raisedAt st.params.drainOnFramingError ws j := by
  obtain ⟨_, hn, _⟩ := h.reading hj
  rw [State.raises, hasRead_ferrWith h hj hlen, h.around.outside.params, hn, ← badWord_eq hlen, raisedAt]
  split
  · next hd =>
    by_cases hlast : j = 255
    · simp [hd, hlast]
    · simp [hlast]
  · rfl

variable (hm : st.protocolFault = false) (ha : st.agenda = [])
include hm ha

/-- One step of the engine stores one word more. -/
theorem hasRead_step (hr : raisedAt st.params.drainOnFramingError ws j = false) :
    ∃ t, step u = .next t ∧ st.hasRead ws rest (j + 1) t := by
  have halone := step_of_hasRead h hj hm ha
  have hraise := (hasRead_raises h hj hlen).trans hr
  have hferr := hasRead_ferrWith h hj hlen
  obtain ⟨hp, rfl, _⟩ := h.reading hj
  obtain ⟨b, hb, hstep⟩ := execReadWord_stored hp hj (hasRead_inChan_cons h hlen) hraise
  refine ⟨_, halone.trans hstep, {
    inChan := rfl
    stored := hasRead_stored_write h hlen hb
    reading := fun hlt => ?_
    left := fun hlast => setSeq_afterRead_last _ (by omega)
    around := h.around.stored _ _ _ _ }⟩
  obtain ⟨hphase, hnext, hkept⟩ := setSeq_afterRead_of_lt
    (((u.setInChan (ws.drop (u.n.toNat + 1) ++ rest)).setInBuf b).setFerr (u.ferrWith ws[u.n.toNat])) (n := u.n) (by omega)
  exact ⟨hphase, hnext, hkept.trans hferr⟩

/-- The word that raises ends the transform in its step. -/
theorem hasRead_raise (hr : raisedAt st.params.drainOnFramingError ws j = true) :
    ∃ t, step u = .next t ∧ t.endedWith true .framingError ∧ t.inChan = ws.drop (j + 1) ++ rest ∧
      t.outChan = st.outChan ∧ st.keepsOutside t := by
  have halone := step_of_hasRead h hj hm ha
  have hraise := (hasRead_raises h hj hlen).trans hr
  obtain ⟨hp, rfl, _⟩ := h.reading hj
  obtain ⟨b, hstep⟩ := execReadWord_raised hp hj (hasRead_inChan_cons h hlen) hraise
  obtain ⟨hparams, hfault, hagenda, hreceived, hresult⟩ := h.around.outside
  exact ⟨_, halone.trans hstep, errorEntry_endedWith _ _, rfl, h.around.outChan,
    ⟨hparams, hfault, hagenda, hreceived, hresult⟩⟩

end

/-- Steps over words that do not raise. -/
theorem run_hasRead {count : Nat} (h0 : st.hasRead ws rest 0 st) (hm : st.protocolFault = false) (ha : st.agenda = [])
    (hc : count ≤ 256) (hlen : count ≤ ws.length)
    (hr : ∀ j < count, raisedAt st.params.drainOnFramingError ws j = false) :
    ∃ t, Host.Core.run Sys2Proof.core count st = .next t ∧ st.hasRead ws rest count t :=
  run_invariant h0 fun j hj _ h => hasRead_step h (hj.trans_le hc) (hj.trans_le hlen) hm ha (hr j hj)

/-- 256 words stored are READ_FRAME's samples. -/
theorem hasRead_inBuf (h : st.hasRead ws rest 256 u) (enough : 256 ≤ ws.length) :
    u.inBuf = Bank.ofFrame (framedSamples ws enough) :=
  Bank.eq_ofFrame fun m => by
    rw [framedSamples_read]
    exact h.stored m (m.isLt.trans_le enough) m.isLt

/-! ### The obligations -/

/-- Settles O55: the reader's steps store word after word until the first one that raises, which is the last that READ_FRAME
counts, or until word 255. -/
theorem readerStepsComputeReadFrame : Obligations.ReaderStepsComputeReadFrame := by
  intro st ws rest hm ha hp hn hf hin
  have h0 := hasRead_zero hp hn hf hin
  refine ⟨fun x hlen hok => ?ok, fun c hlen herror => ?error⟩
  case ok =>
    obtain ⟨_, hgood, enough, rfl⟩ := readFrame_ok hok
    obtain ⟨t, hrun, ht⟩ := run_hasRead h0 hm ha le_rfl enough fun j hj => raisedAt_of_ok hgood hj
    obtain ⟨hphase, hi⟩ := ht.left rfl
    obtain ⟨hw, hout, houtcome, houtside⟩ := ht.around
    have hrest : t.inChan = rest := by rw [ht.inChan, ← hlen, List.drop_length, List.nil_append]
    exact ⟨t, hrun, hphase, hi, hasRead_inBuf ht enough, hrest, hout, hw, houtcome, houtside⟩
  case error =>
    obtain ⟨k, rfl, hk, hklen, hraised, hbefore⟩ := raisedAt_of_framingError herror
    obtain ⟨u, hrun, hu⟩ := run_hasRead h0 hm ha hk.le hklen.le hbefore
    obtain ⟨t, hstep, hended, hrest, hout, houtside⟩ := hasRead_raise hu hk hklen hm ha hraised
    refine ⟨t, (run_add hrun).trans (run_succ hstep), hended, ?_, hout, houtside⟩
    rw [hrest, ← hlen, List.drop_length, List.nil_append]

/-- Settles O29: the two cases of the step, with the frame of each. -/
theorem readWordTakesTheHeadWord : Obligations.ReadWordTakesTheHeadWord := by
  intro st n w rest hp hn hin
  rw [← hn]
  have hlt : st.n.toNat < 256 := hn ▸ n.isLt
  refine ⟨fun hraised => ?raised, fun hstored => ?stored⟩
  case raised =>
    obtain ⟨b, hstep⟩ := execReadWord_raised hp hlt hin hraised
    exact ⟨_, hstep, errorEntry_endedWith _ _, rfl, rfl, ⟨rfl, rfl, rfl, rfl, rfl⟩⟩
  case stored =>
    obtain ⟨b, hb, hstep⟩ := execReadWord_stored hp hlt hin hstored
    rw [hn] at hb
    obtain ⟨hw, hout, houtcome, houtside⟩ :=
      st.keepsAroundIn_refl.stored rest b (st.ferrWith w) (afterRead st.n)
    exact ⟨_, hstep, rfl, hout, fun j => (Bank.getElem_write hb j).1, fun j => (Bank.getElem_write hb j).2, hw,
      setSeq_afterRead_of_lt _, setSeq_afterRead_last _, houtcome, houtside⟩

end Sys2Proof.Machine
end

section
/-! SUPPORT. WRITE_WORD and the writer's 256 steps (44_frame_io.md R165, R166): what one step pushes, and the state after some of
the words. -/

namespace Sys2Proof.Machine

variable {st u : State} {x : Frame}

/-! ### One step (R165) -/

/-- WRITE_WORD where it is enabled and its sample is defined. -/
theorem execWriteWord_eq {v : Sample} (hp : st.phase = .write) (hn : st.n.toNat < 256) (hroom : st.outHasRoom = true)
    (hv : st.wBuf.read st.n.toNat = .ok v) :
    execWriteWord st = .next (if st.n = 255 then (st.pushOut (outputWord st.n.toNat v)).complete
      else (st.pushOut (outputWord st.n.toNat v)).setSeq (.write (st.n + 1))) := by
  rw [execWriteWord, if_pos (writeEnabled_eq_true_iff.mpr ⟨hp, hn, hroom⟩), outputWordAt, hv]
  rfl

/-- R182: a word before the last leaves WRITE at the next index. -/
theorem execWriteWord_of_lt {v : Sample} (hp : st.phase = .write) (hn : st.n.toNat < 255) (hroom : st.outHasRoom = true)
    (hv : st.wBuf.read st.n.toNat = .ok v) :
    execWriteWord st = .next ((st.pushOut (outputWord st.n.toNat v)).setSeq (.write (st.n + 1))) := by
  have hne : st.n ≠ 255 := fun hlast => by simp [hlast] at hn
  rw [execWriteWord_eq hp (by omega) hroom hv, if_neg hne]

/-- R183: word 255 completes the transform. -/
theorem execWriteWord_last {v : Sample} (hp : st.phase = .write) (hn : st.n.toNat = 255) (hroom : st.outHasRoom = true)
    (hv : st.wBuf.read st.n.toNat = .ok v) :
    execWriteWord st = .next (st.pushOut (outputWord st.n.toNat v)).complete := by
  rw [execWriteWord_eq hp (by omega) hroom hv, if_pos (BitVec.eq_of_toNat_eq hn)]

/-! ### The 256 steps (R166) -/

/-- `u` is `st` after the first `j` words of WRITE_FRAME. -/
structure State.hasWritten (st : State) (x : Frame) (j : Nat) (u : State) : Prop where
  outChan : u.outChan = st.outChan ++ (writeFrame x).take j
  inChan : u.inChan = st.inChan
  writing : j < 256 → u.phase = .write ∧ u.n.toNat = j ∧ u.wBuf = Bank.ofFrame x
  ended : j = 256 → u.endedWith true .ok
  outside : st.keepsOutside u

theorem hasWritten_zero (hp : st.phase = .write) (hn : st.n = 0) (hx : st.wBuf = Bank.ofFrame x) :
    st.hasWritten x 0 st where
  outChan := by simp
  inChan := rfl
  writing := fun _ => ⟨hp, by simp [hn], hx⟩
  ended := nofun
  outside := ⟨rfl, rfl, rfl, rfl, rfl⟩

section
variable {j : Nat} (h : st.hasWritten x j u) (hj : j < 256)
include h hj

theorem hasWritten_outHasRoom (hroom : st.params.outDepth.hasRoom (st.outChan.length + j) = true) :
    u.outHasRoom = true := by
  rw [State.outHasRoom, h.outside.params, h.outChan, List.length_append, List.length_take_of_le (by simp [hj.le])]
  exact hroom

theorem hasWritten_pushOut :
    (u.pushOut (outputWord j (x.read (BitVec.ofNat 8 j)))).outChan = st.outChan ++ (writeFrame x).take (j + 1) := by
  rw [State.pushOut_outChan, h.outChan, List.append_assoc, writeFrame_take_succ x hj]

/-- One step of the engine pushes one word more, and the last one completes. -/
theorem hasWritten_step (hm : st.protocolFault = false) (ha : st.agenda = [])
    (hroom : st.params.outDepth.hasRoom (st.outChan.length + j) = true) :
    ∃ t, step u = .next t ∧ st.hasWritten x (j + 1) t := by
  obtain ⟨hp, rfl, hx⟩ := h.writing hj
  have hv : u.wBuf.read u.n.toNat = .ok (x.read (BitVec.ofNat 8 u.n.toNat)) := by rw [hx, Bank.read_ofFrame x hj]
  have hroom' := hasWritten_outHasRoom h hj hroom
  have halone : step u = exec .writeWord u :=
    step_of_phase (h.outside.protocolFault.trans hm) (h.outside.agenda.trans ha) (by rw [hp]; rfl)
  obtain ⟨hparams, hfault, hagenda, hreceived, hresult⟩ := h.outside
  by_cases hlast : u.n.toNat = 255
  · exact ⟨_, halone.trans (execWriteWord_last hp hlast hroom' hv), {
      outChan := hasWritten_pushOut h hj
      inChan := h.inChan
      writing := fun hlt => by omega
      ended := fun _ => complete_endedWith _
      outside := ⟨hparams, hfault, hagenda, hreceived, hresult⟩ }⟩
  · exact ⟨_, halone.trans (execWriteWord_of_lt hp (by omega) hroom' hv), {
      outChan := hasWritten_pushOut h hj
      inChan := h.inChan
      writing := fun _ => ⟨rfl, succ9_toNat hj, hx⟩
      ended := fun hend => by omega
      outside := ⟨hparams, hfault, hagenda, hreceived, hresult⟩ }⟩

end

/-! ### The obligations -/

/-- Settles O58: each of the 256 steps pushes the next word of WRITE_FRAME, and the last completes the transform. -/
theorem writerStepsAppendWriteFrame : Obligations.WriterStepsAppendWriteFrame := by
  intro st x hm ha hp hn hx hroom
  obtain ⟨t, hrun, ht⟩ := run_invariant (hasWritten_zero hp hn hx) fun j hj u h => hasWritten_step h hj hm ha (hroom j hj)
  refine ⟨t, hrun, ht.ended rfl, ?_, ht.inChan, ht.outside⟩
  rw [ht.outChan, List.take_of_length_le (by simp)]

/-- Settles O31: the word is `outputWord`, and the next state that of its index. -/
theorem writeWordPushesTheNextSample : Obligations.WriteWordPushesTheNextSample := by
  intro st n re im hp hn hroom hre him
  have hv : st.wBuf.read st.n.toNat = .ok ⟨re, im⟩ := hn ▸ Bank.read_of_some n.isLt hre him
  rw [← hn]
  by_cases hlast : st.n.toNat = 255
  · exact ⟨_, execWriteWord_last hp hlast hroom hv, rfl, rfl, fun hlt => by omega, fun _ => complete_endedWith _,
      ⟨rfl, rfl, rfl, rfl, rfl⟩⟩
  · have hlt : st.n.toNat < 255 := by omega
    exact ⟨_, execWriteWord_of_lt hp hlt hroom hv, rfl, rfl,
      fun _ => ⟨rfl, succ9_toNat (by omega), ⟨rfl, rfl⟩, ⟨rfl, rfl⟩⟩, fun h => absurd h hlast,
      ⟨rfl, rfl, rfl, rfl, rfl⟩⟩

end Sys2Proof.Machine
end

section
/-! SUPPORT. The packed words and the reader and writer functions (44_frame_io.md R160, R161, R163, R164, R166, R168). -/

namespace Sys2Proof.Machine

variable {st : State} {drain : Bool} {ws : List TransportWord}

/-! ### Packed samples -/

theorem pack_unpack (d : BitVec 64) : pack (unpack d) = d := concat_halves64 d

theorem unpack_pack (v : Sample) : unpack (pack v) = v :=
  Sample.ext_iff'.mpr ⟨extract_high_concat v.re v.im, extract_low_concat v.re v.im⟩

/-! ### READ_FRAME's answers (R164) -/

theorem readFrame_stop {m : Nat} (h : firstBad ws = some m) : readFrame false ws = .framingError (m + 1) := by
  simp [readFrame, h]

theorem readFrame_drained {m : Nat} (h : firstBad ws = some m) (enough : 256 ≤ ws.length) :
    readFrame true ws = .framingError 256 := by
  simp [readFrame, h, enough]

theorem readFrame_good (h : firstBad ws = none) (enough : 256 ≤ ws.length) :
    readFrame drain ws = .ok (framedSamples ws enough) 256 := by
  simp [readFrame, h, enough]

/-- Too few words, and none of them has fixed the answer. -/
theorem readFrame_waits (short : ws.length < 256) (h : drain = true ∨ firstBad ws = none) : readFrame drain ws = .waits := by
  have hnot : ¬ 256 ≤ ws.length := by omega
  rcases h with rfl | hgood
  · cases hb : firstBad ws with
    | none => simp [readFrame, hb, hnot]
    | some m => simp [readFrame, hb, short]
  · simp [readFrame, hgood, hnot]

theorem exec_readFrame_literal (st : State) (ws : List TransportWord) :
    exec (.readFrame (.literal ws)) st =
      .next { st with result := .frameRead (readFrame st.params.drainOnFramingError ws) } := rfl

/-! ### keep and strb on input (R168) -/

section
variable {f : TransportWord → TransportWord}

theorem firstBad_map (hlast : ∀ w, (f w).last = w.last) (ws : List TransportWord) : firstBad (ws.map f) = firstBad ws := by
  have hbad : badWord (ws.map f) = badWord ws := by
    funext n
    cases h : ws[n]? <;> simp [badWord, h, hlast]
  rw [firstBad, firstBad, hbad]

theorem framedSamples_map (hdata : ∀ w, (f w).data = w.data) (enough : 256 ≤ ws.length) :
    framedSamples (ws.map f) (by simpa using enough) = framedSamples ws enough :=
  Frame.ext_read fun n => by simp [hdata]

/-- READ_FRAME reads data and last alone. -/
theorem readFrame_map (hdata : ∀ w, (f w).data = w.data) (hlast : ∀ w, (f w).last = w.last) (drain : Bool)
    (ws : List TransportWord) : readFrame drain (ws.map f) = readFrame drain ws := by
  have hfirst := firstBad_map hlast ws
  cases hb : firstBad ws with
  | some m => simp [readFrame, hfirst, hb]
  | none =>
    have hgood := hfirst.trans hb
    by_cases enough : 256 ≤ ws.length
    · rw [readFrame_good hb enough, readFrame_good hgood (by simpa using enough), framedSamples_map hdata]
    · have short : ws.length < 256 := by omega
      rw [readFrame_waits short (.inr hb), readFrame_waits (by simpa using short) (.inr hgood)]

end

/-- The word `w` with the given keep and strb. -/
def withMarks (keep strb : TransportWord → BitVec 8) (w : TransportWord) : TransportWord :=
  { w with keep := keep w, strb := strb w }

theorem readFrame_withMarks (keep strb : TransportWord → BitVec 8) (drain : Bool) (ws : List TransportWord) :
    readFrame drain (ws.map (withMarks keep strb)) = readFrame drain ws :=
  readFrame_map (f := withMarks keep strb) (fun _ => rfl) (fun _ => rfl) drain ws

theorem transform_withMarks (keep strb : TransportWord → BitVec 8) (p : Params) (ws : List TransportWord) :
    transform p (ws.map (withMarks keep strb)) = transform p ws := by
  rw [transform, transform, readFrame_withMarks]

theorem execReadWord_congr {w v : TransportWord} {rest : List TransportWord} (hp : st.phase = .read)
    (hn : st.n.toNat < 256) (hdata : w.data = v.data) (hlast : w.last = v.last) :
    execReadWord (st.setInChan (w :: rest)) = execReadWord (st.setInChan (v :: rest)) := by
  rw [execReadWord_eq (st := st.setInChan (w :: rest)) hp hn rfl,
    execReadWord_eq (st := st.setInChan (v :: rest)) hp hn rfl, hdata, hlast]
  rfl

/-! ### The obligations -/

/-- Settles O28: the words of the hypotheses are the search's first bad word, or say that there is none. -/
theorem readFrameFindsTheFirstBadWord : Obligations.ReadFrameFindsTheFirstBadWord := by
  intro st ws
  simp only [exec_readFrame_literal]
  refine ⟨rfl, fun m hm hlt hbad hgood hd => ?stop, fun m hm hlt hbad enough hd => ?drained,
    fun enough hgood => ?good, fun short h => ?waits⟩
  case stop => rw [hd, readFrame_stop (firstBad_some hm hlt hbad hgood)]
  case drained =>
    obtain ⟨j, hj⟩ := firstBad_exists hm hlt hbad
    rw [hd, readFrame_drained hj enough]
  case good =>
    rw [readFrame_good (firstBad_none fun j _ hj => hgood j hj) enough]
    exact ⟨_, rfl, framedSamples_read enough⟩
  case waits =>
    rw [readFrame_waits short (h.imp_right fun hgood => firstBad_none fun j hj _ => hgood j hj)]

/-- Settles O30: the reader takes data and last of a word, and every word that the writer pushes is `outputWord`. -/
theorem keepAndStrbAreIgnored : Obligations.KeepAndStrbAreIgnored := by
  refine ⟨fun st w v rest hp hn => execReadWord_congr hp hn, fun drain ws keep strb => readFrame_withMarks keep strb drain ws,
    fun p ws keep strb => transform_withMarks keep strb p ws, fun st t h => ?_⟩
  rcases execWriteWord_next h with ⟨rfl, _⟩ | ⟨_, _, _, v, _, rfl⟩
  · exact .inl rfl
  · refine .inr ⟨outputWord st.n.toNat v, ?_, rfl, rfl⟩
    split <;> rfl

/-- Settles O32: WRITE_FRAME's value is `writeFrame x`. -/
theorem writeFrameListsEverySample : Obligations.WriteFrameListsEverySample := by
  intro x st
  refine ⟨writeFrame x, rfl, ⟨writeFrame_length x, fun n hn => ?_⟩, fun n => ?_⟩
  · rw [writeFrame_getElem x (by simpa using hn)]
    rfl
  · rw [List.getElem?_eq_getElem (by simpa using n.isLt), writeFrame_getElem x n.isLt, ofNat8_toNat]
    rfl

/-- Settles O26: UNPACK and PACK record `unpack` and `pack`, which undo each other. -/
theorem unpackAndPackSplitByBitRange : Obligations.UnpackAndPackSplitByBitRange :=
  ⟨fun _ _ => rfl, fun _ _ _ => rfl, pack_unpack, unpack_pack⟩

/-- Settles O27: FRAMING_CHECK records `framingCheck`, whose two cases are R163's. -/
theorem framingCheckAcceptsLastOnWord255 : Obligations.FramingCheckAcceptsLastOnWord255 := by
  refine ⟨fun n last st => ?_, by decide, by decide, by decide, by decide⟩
  rw [← framingCheck_eq]
  rfl

end Sys2Proof.Machine
end

section
/-! SUPPORT. The controller (45_control.md R180 to R186): START, TRANSFORM as a function, the rows of the sequencer table, and a
transform as the run of START and the four phases. -/

namespace Sys2Proof.Machine

variable {st t u : State} {ws rest : List TransportWord} {x : Frame}

/-! ### START (R180) -/

theorem begin_keepsBuffers (st : State) : st.keepsBuffers st.begin := ⟨rfl, rfl⟩

/-- START as the turn that is due, in IDLE. -/
theorem step_start {turns : List Turn} (hm : st.protocolFault = false)
    (ha : st.agenda = .one (.operation (encode .start)) :: turns) (hp : st.phase = .idle) :
    step st = .next (st.setAgenda turns).begin := by
  have hdecode : decode (encode .start) = .ok (.start, []) := by
    simpa using decode_encode (i := .start) rfl []
  rw [step_operation hm ha, runCode_of_decode hdecode]
  exact execStart_of_idle (st := st.setAgenda turns) hp

/-! ### TRANSFORM (R181) -/

theorem transform_of_framingError {p : Params} {c : Nat} (h : readFrame p.drainOnFramingError ws = .framingError c) :
    transform p ws = .ended [] c .framingError := by
  rw [transform, h]

theorem transform_of_ok {p : Params} {c : Nat} (h : readFrame p.drainOnFramingError ws = .ok x c) :
    transform p ws = .ended (writeFrame (bflyCore p.twTable (permute x))) c .ok := by
  rw [transform, h]
  rfl

theorem transform_of_waits {p : Params} (h : readFrame p.drainOnFramingError ws = .waits) : transform p ws = .waits := by
  rw [transform, h]

theorem exec_transform_literal (st : State) (ws : List TransportWord) :
    exec (.transform (.literal ws)) st = .next { st with result := .transformed (transform st.params ws) } := rfl

/-! ### The engine's own order (R182) -/

/-- With no turn due, or one whose agent cannot move yet, the engine has the step (log 5, log 6). -/
theorem step_of_no_ready_turn (hm : st.protocolFault = false)
    (h : st.agenda = [] ∨ ∃ a turns, st.agenda = .one a :: turns ∧ a.ready st = false) : step st = engineTurn st := by
  rcases h with ha | ⟨a, turns, ha, hr⟩
  · exact step_alone hm ha
  · exact step_waiting hm ha hr

theorem engineTurn_idle (hp : st.phase = .idle) : engineTurn st = .next st := by
  rw [engineTurn, hp]
  rfl

/-! ### Well-formed frames (R74) -/

/-- No word of a well-formed frame fails FRAMING_CHECK. -/
theorem firstBad_of_wellFormedFrame (h : wellFormedFrame ws) : firstBad ws = none := by
  obtain ⟨hlen, hlast⟩ := h
  refine firstBad_none fun j hj hlt => ?_
  rw [hlast j hj, framingCheck_eq]
  simp only [decide_eq_true_eq, decide_eq_false_iff_not]
  omega

/-- Under either policy READ_FRAME answers Ok on a well-formed frame, with its samples. -/
theorem readFrame_of_wellFormedFrame (drain : Bool) (h : wellFormedFrame ws)
    (hx : ∀ (n : BitVec 8) (w : TransportWord), ws[n.toNat]? = some w → x.read n = unpack w.data) :
    readFrame drain ws = .ok x 256 := by
  have enough : 256 ≤ ws.length := h.1.ge
  have hsamples : framedSamples ws enough = x := Frame.ext_read fun n => by
    rw [framedSamples_read, hx n _ (List.getElem?_eq_getElem (n.isLt.trans_le enough))]
  rw [readFrame_good (firstBad_of_wellFormedFrame h) enough, hsamples]

/-- Words with the same data are the same samples. -/
theorem samples_of_map_data_eq {us : List TransportWord} (hdata : ws.map TransportWord.data = us.map TransportWord.data)
    (hx : ∀ (n : BitVec 8) (w : TransportWord), ws[n.toNat]? = some w → x.read n = unpack w.data) :
    ∀ (n : BitVec 8) (w : TransportWord), us[n.toNat]? = some w → x.read n = unpack w.data := by
  intro n w hw
  have hmap : (ws.map TransportWord.data)[n.toNat]? = some w.data := by rw [hdata, List.getElem?_map, hw]; rfl
  rw [List.getElem?_map] at hmap
  obtain ⟨v, hv, hvdata⟩ := Option.map_eq_some_iff.mp hmap
  rw [hx n v hv, hvdata]

theorem writeFrame_wellFormed (x : Frame) : wellFormedFrame (writeFrame x) := by
  refine ⟨writeFrame_length x, fun n hn => ?_⟩
  rw [writeFrame_getElem x (by simpa using hn)]
  rfl

/-! ### The phases in a row (R182, R186) -/

theorem State.keepsOutside.trans (h : st.keepsOutside u) (h' : u.keepsOutside t) : st.keepsOutside t where
  params := h'.params.trans h.params
  protocolFault := h'.protocolFault.trans h.protocolFault
  agenda := h'.agenda.trans h.agenda
  received := h'.received.trans h.received
  result := h'.result.trans h.result

/-- From READ at word 0 the engine's steps on a good frame are the reader's, the permuter's, the butterfly core's and the
writer's, each phase from where the one before has left the machine. -/
theorem run_phases (hm : st.protocolFault = false) (ha : st.agenda = []) (hp : st.phase = .read) (hn : st.n = 0)
    (hf : st.ferr = false) (hin : st.inChan = ws ++ rest) (hlen : ws.length = 256)
    (hok : readFrame st.params.drainOnFramingError ws = .ok x 256)
    (hroom : ∀ j, j < 256 → st.params.outDepth.hasRoom (st.outChan.length + j) = true) :
    ∃ t, Host.Core.run Sys2Proof.core (256 + (256 + (1024 + 256))) st = .next t ∧ t.endedWith true .ok ∧
      t.outChan = st.outChan ++ writeFrame (bflyCore st.params.twTable (permute x)) ∧ t.inChan = rest ∧
      st.keepsOutside t := by
  obtain ⟨t₁, hrun₁, hp₁, hi₁, hbuf₁, hin₁, hout₁, -, -, hkeep₁⟩ :=
    (readerStepsComputeReadFrame st ws rest hm ha hp hn hf hin).1 x hlen hok
  obtain ⟨t₂, hrun₂, hp₂, hs₂, hk₂, hw₂, -, hchan₂, -, hkeep₂⟩ :=
    permuteStepsComputePermute t₁ x (hkeep₁.protocolFault.trans hm) (hkeep₁.agenda.trans ha) hp₁ hi₁ hbuf₁
  have hkeep₂ := hkeep₁.trans hkeep₂
  obtain ⟨t₃, hrun₃, hp₃, hn₃, hw₃, -, hchan₃, -, hkeep₃⟩ :=
    butterflyStepsComputeBflyCore t₂ (permute x) (hkeep₂.protocolFault.trans hm) (hkeep₂.agenda.trans ha) hp₂ hs₂ hk₂ hw₂
  have hkeep₃ := hkeep₂.trans hkeep₃
  rw [hkeep₂.params] at hw₃
  have hout₃ : t₃.outChan = st.outChan := hchan₃.outChan.trans (hchan₂.outChan.trans hout₁)
  have hin₃ : t₃.inChan = rest := hchan₃.inChan.trans (hchan₂.inChan.trans hin₁)
  obtain ⟨t, hrun₄, hended, hout, hin', hkeep⟩ :=
    writerStepsAppendWriteFrame t₃ _ (hkeep₃.protocolFault.trans hm) (hkeep₃.agenda.trans ha) hp₃ hn₃ hw₃
      (by rw [hkeep₃.params, hout₃]; exact hroom)
  refine ⟨t, ?_, hended, by rw [hout, hout₃], hin'.trans hin₃, hkeep₃.trans hkeep⟩
  rw [run_add hrun₁, run_add hrun₂, run_add hrun₃, hrun₄]

/-! ### The obligations -/

/-- Settles O59: START puts the machine at word 0 of READ, and the four phases take 256, 256, 1024 and 256 steps. -/
theorem transformCompletesIn1793Steps : Obligations.TransformCompletesIn1793Steps := by
  intro st ws rest x hm ha hp hin hframe hx hroom
  have hstart := step_start hm ha hp
  obtain ⟨t, hrun, hended, hout, hrest, hkeep⟩ := run_phases (st := (st.setAgenda []).begin) hm rfl rfl rfl rfl hin hframe.1
    (readFrame_of_wellFormedFrame _ hframe hx) hroom
  have hfault : t.protocolFault = false := hkeep.protocolFault.trans hm
  refine ⟨t, (run_succ hstart).trans hrun, hended, ?_, hout, hrest, hkeep.agenda, hkeep.params⟩
  simp [State.finished, State.isIdle, hended.phase, hended.doneFlag, hfault]

/-- Settles O60: each machine appends the transform of its samples (O59), and the samples are the same. -/
theorem transformsAreIndependent : Obligations.TransformsAreIndependent := by
  intro st₁ st₂ ws₁ ws₂ rest₁ rest₂ hstart hin₁ hin₂ hframe₁ hframe₂ hdata hrom
  obtain ⟨hm₁, ha₁, hp₁, hroom₁⟩ := hstart st₁ (.inl rfl)
  obtain ⟨hm₂, ha₂, hp₂, hroom₂⟩ := hstart st₂ (.inr rfl)
  have hx₁ : ∀ (n : BitVec 8) (w : TransportWord), ws₁[n.toNat]? = some w →
      (framedSamples ws₁ hframe₁.1.ge).read n = unpack w.data := by
    intro n w hw
    rw [framedSamples_read, (List.getElem?_eq_some_iff.mp hw).2]
  obtain ⟨t₁, hrun₁, hended₁, -, hout₁, hrest₁, -⟩ :=
    transformCompletesIn1793Steps st₁ ws₁ rest₁ _ hm₁ ha₁ hp₁ hin₁ hframe₁ hx₁ hroom₁
  obtain ⟨t₂, hrun₂, hended₂, -, hout₂, hrest₂, -⟩ :=
    transformCompletesIn1793Steps st₂ ws₂ rest₂ _ hm₂ ha₂ hp₂ hin₂ hframe₂ (samples_of_map_data_eq hdata hx₁) hroom₂
  rw [← hrom] at hout₂
  exact ⟨t₁, t₂, _, hrun₁, hrun₂, hout₁, hout₂, writeFrame_wellFormed _, hended₁, hended₂, hrest₁, hrest₂⟩

/-- Settles O45: each effect of an operation leaves the sequencer alone or is the row of the table for its phase, with a row
of its own for the last value of a counter. -/
theorem sequencerFollowsTheTable : Obligations.SequencerFollowsTheTable := by
  intro i st t h
  cases exec_effect h with
  | unchanged | value | marked => exact .inl ⟨rfl, rfl, rfl, rfl, rfl, rfl⟩
  | begun hp =>
    right
    exact .inl ⟨rfl, hp, rfl, rfl, rfl, rfl, rfl⟩
  | taken w rest b f hp hn hin =>
    have hword : st.inChan ≠ [] := by simp [hin]
    by_cases hlast : st.n.toNat = 255
    · iterate 3 right
      exact .inl ⟨rfl, hp, hlast, hword, setSeq_afterRead_last _ hlast⟩
    · have hlt : st.n.toNat < 255 := by omega
      obtain ⟨hphase, hnext, _⟩ := setSeq_afterRead_of_lt (((st.setInChan rest).setInBuf b).setFerr f) hlt
      iterate 2 right
      exact .inl ⟨rfl, hp, hlt, hword, hphase, hnext⟩
  | misframed w rest b hp _ hin =>
    iterate 4 right
    exact .inl ⟨rfl, hp, by simp [hin], errorEntry_endedWith _ _⟩
  | failed hp =>
    iterate 5 right
    exact .inl ⟨rfl, hp, errorEntry_endedWith _ _⟩
  | moved w hp hi =>
    by_cases hlast : st.i.toNat = 255
    · iterate 7 right
      exact .inl ⟨rfl, hp, hlast, setSeq_afterMove_last _ hlast⟩
    · have hlt : st.i.toNat < 255 := by omega
      iterate 6 right
      exact .inl ⟨rfl, hp, hlt, setSeq_afterMove_of_lt _ hlt⟩
  | combined w hp hs hk =>
    by_cases hlast : st.k.toNat = 127
    · by_cases hend : st.s.toNat = 7
      · iterate 10 right
        exact .inl ⟨rfl, hp, hlast, hend, setSeq_afterButterfly_last _ hlast hend⟩
      · have hlt : st.s.toNat < 7 := by omega
        iterate 9 right
        exact .inl ⟨rfl, hp, hlast, hlt, setSeq_afterButterfly_stage _ hlast hlt⟩
    · have hlt : st.k.toNat < 127 := by omega
      iterate 8 right
      exact .inl ⟨rfl, hp, hlt, setSeq_afterButterfly_of_lt _ st.s hlt⟩
  | pushed v hp hn hother hroom =>
    iterate 11 right
    exact .inl ⟨rfl, hp, toNat_lt_255 hn hother, hroom, rfl, succ9_toNat hn⟩
  | completed v hp hlast hroom =>
    iterate 12 right
    exact .inl ⟨rfl, hp, by simp [hlast], hroom, complete_endedWith _⟩
  | reset =>
    iterate 13 right
    exact ⟨rfl, resetEngine_endedWith st⟩

/-- Settles O34: the next state is `begin`. -/
theorem startBeginsATransform : Obligations.StartBeginsATransform := fun st hp =>
  ⟨st.begin, execStart_of_idle hp, rfl, rfl, rfl, rfl, rfl, begin_keepsChannels st, begin_keepsBuffers st,
    begin_keepsOutside st⟩

/-- Settles O36: TRANSFORM's value follows READ_FRAME's answer, which counts 256 words where it is Ok. -/
theorem transformComposesTheUnits : Obligations.TransformComposesTheUnits := by
  intro st ws
  simp only [exec_transform_literal]
  refine ⟨rfl, fun c herror => ?error, fun x c hok => ?ok, fun hwaits => ?waits⟩
  case error => rw [transform_of_framingError herror]
  case ok =>
    obtain ⟨rfl, -⟩ := readFrame_ok hok
    exact ⟨rfl, by rw [transform_of_ok hok]⟩
  case waits => rw [transform_of_waits hwaits]

/-- Settles O51: the step is the engine's turn, which runs the operation of the phase. -/
theorem engineRunsTheOperationOfItsPhase : Obligations.EngineRunsTheOperationOfItsPhase := by
  intro st hm hturn
  rw [step_of_no_ready_turn hm hturn]
  refine ⟨engineTurn_idle, fun hp => ?_, fun hp => ?_, fun hp => ?_, fun hp => ?_⟩ <;>
    exact engineTurn_of_phase (by rw [hp]; rfl)

end Sys2Proof.Machine
end

section
/-! SUPPORT. Faults and errors (60_exceptions.md): the HostProtocol mark, the error entry, RESET among moves that coincide, and
that no step of the sequencer table stops a consistent machine. -/

namespace Sys2Proof.Machine

variable {st t : State} {i : Instr}

/-! ### The HostProtocol mark (R209) -/

/-- No operation clears the mark: START while busy sets it, and no other writes it. -/
theorem Effect.keeps_mark (e : Effect st i t) (hm : st.protocolFault = true) : t.protocolFault = true := by
  cases e with
  | marked => rfl
  | unchanged | value | taken | misframed | moved | combined | pushed | completed | begun | failed | reset => exact hm

/-! ### Discarded buffers (R203) -/

theorem Bank.getElem_undef (j : Fin 256) : Bank.undef.re[j] = none ∧ Bank.undef.im[j] = none := by
  simp [Bank.undef]

/-! ### Moves that coincide (R205) -/

theorem isReset_encode_reset : (Action.operation (encode .reset)).isReset = true := by
  have hdecode : decode (encode .reset) = .ok (.reset, []) := by
    simpa using decode_encode (i := .reset) rfl []
  simp [Action.isReset, hdecode]

/-! ### The steps of the sequencer table in a consistent state (R212) -/

theorem Bank.read_of_definedAt {b : Bank} (hb : ∀ j, b.definedAt j) {m : Nat} (hm : m < 256) : ∃ v, b.read m = .ok v := by
  have hdefined := hb (BitVec.ofNat 8 m)
  simp only [Bank.definedAt, BitVec.toNat_ofNat, Nat.mod_eq_of_lt (show m < 2 ^ 8 from hm), Option.isSome_iff_exists]
    at hdefined
  obtain ⟨⟨re, hre⟩, im, him⟩ := hdefined
  exact ⟨⟨re, im⟩, Bank.read_of_some hm hre him⟩

theorem execPermuteStep_of_consistent (h : st.Consistent) : ∃ t, execPermuteStep st = .next t := by
  cases he : st.permuteEnabled with
  | false => exact ⟨st, execPermuteStep_of_not_enabled he⟩
  | true =>
    obtain ⟨hp, hi⟩ := permuteEnabled_eq_true_iff.mp he
    obtain ⟨hin, _⟩ := (buffersFollowPhase_permute hp).mp h.buffers
    obtain ⟨v, hv⟩ := Bank.read_of_definedAt hin hi
    obtain ⟨w, _, hstep⟩ := execPermuteStep_eq hp hi hv
    exact ⟨_, hstep⟩

theorem execButterfly_of_consistent (h : st.Consistent) : ∃ t, execButterfly st = .next t := by
  cases he : st.bflyEnabled with
  | false => exact ⟨st, execButterfly_of_not_enabled he⟩
  | true =>
    obtain ⟨hp, hs, hk⟩ := bflyEnabled_eq_true_iff.mp he
    obtain ⟨_, hw⟩ := (buffersFollowPhase_bfly hp).mp h.buffers
    obtain ⟨a, ha⟩ := Bank.read_of_definedAt hw (top_lt hs hk)
    obtain ⟨b, hb⟩ := Bank.read_of_definedAt hw (bot_lt hs hk)
    obtain ⟨w₁, w₂, _, _, hok⟩ := butterflyOn_of_read st.params.twTable hs hk ha hb
    exact ⟨_, execButterfly_eq hp hs hk hok⟩

theorem execWriteWord_of_consistent (h : st.Consistent) : ∃ t, execWriteWord st = .next t := by
  cases he : st.writeEnabled with
  | false => exact ⟨st, execWriteWord_of_not_enabled he⟩
  | true =>
    obtain ⟨hp, hn, hroom⟩ := writeEnabled_eq_true_iff.mp he
    obtain ⟨_, hw⟩ := (buffersFollowPhase_write hp).mp h.buffers
    obtain ⟨v, hv⟩ := Bank.read_of_definedAt hw hn
    exact ⟨_, execWriteWord_eq hp hn hroom hv⟩

theorem execStart_total (st : State) : ∃ t, execStart st = .next t := by
  by_cases hp : st.phase = .idle
  · exact ⟨_, execStart_of_idle hp⟩
  · exact ⟨_, execStart_of_busy hp⟩

theorem execTransportFault_total (st : State) : ∃ t, execTransportFault st = .next t := by
  by_cases hp : st.phase = .read
  · exact ⟨_, execTransportFault_of_read hp⟩
  · exact ⟨_, execTransportFault_of_phase_ne hp⟩

/-- The engine's turn is the step of its phase, or none in IDLE (R182). -/
theorem engineTurn_of_consistent (h : st.Consistent) : ∃ t, engineTurn st = .next t := by
  cases hp : st.phase with
  | idle => exact ⟨st, engineTurn_idle hp⟩
  | read => exact engineTurn_of_phase (op := .readWord) (by rw [hp]; rfl) ▸ execReadWord_total st
  | permute => exact engineTurn_of_phase (op := .permuteStep) (by rw [hp]; rfl) ▸ execPermuteStep_of_consistent h
  | bfly => exact engineTurn_of_phase (op := .butterfly) (by rw [hp]; rfl) ▸ execButterfly_of_consistent h
  | write => exact engineTurn_of_phase (op := .writeWord) (by rw [hp]; rfl) ▸ execWriteWord_of_consistent h

/-! ### The obligations -/

/-- Settles O43: the elements that PERMUTE_STEP, BUTTERFLY and WRITE_WORD read are defined in their phases, and the other steps
read none. -/
theorem sequencerStepsNeverFault : Obligations.SequencerStepsNeverFault := by
  intro st h
  refine ⟨?table, fun hm ha => step_alone hm ha ▸ engineTurn_of_consistent h⟩
  case table =>
    simp only [List.forall_mem_cons]
    exact ⟨execReadWord_total st, execPermuteStep_of_consistent h, execButterfly_of_consistent h,
      execWriteWord_of_consistent h, execStart_total st, execTransportFault_total st, ⟨_, rfl⟩, by simp⟩

/-- Settles O35: the mark is a field of its own (log 16), which `step` looks at first. -/
theorem startWhileBusyMarksForGood : Obligations.StartWhileBusyMarksForGood :=
  ⟨fun _ hp => execStart_of_busy hp, fun _ hm => step_marked hm, fun _ _ _ hm h => (exec_effect h).keeps_mark hm⟩

/-- Settles O37: in READ the step is the error entry. -/
theorem transportFaultEndsRead : Obligations.TransportFaultEndsRead := fun st =>
  ⟨fun hp => ⟨_, execTransportFault_of_read hp, errorEntry_endedWith st _, errorEntry_keepsChannels st _,
    errorEntry_keepsOutside st _⟩, execTransportFault_of_phase_ne⟩

/-- Settles O38: the error entry ends in IDLE, where the engine has no step. -/
theorem errorEntryDiscardsTheTransform : Obligations.ErrorEntryDiscardsTheTransform := by
  intro st code
  have hended := errorEntry_endedWith st code
  refine ⟨hended, fun j => ?_, engineEnabled_idle hended.phase, errorEntry_keepsChannels st code,
    errorEntry_keepsOutside st code⟩
  obtain ⟨hre, him⟩ := Bank.getElem_undef j
  rw [hended.inBuf, hended.wBuf]
  exact ⟨hre, him, hre, him⟩

/-- Settles O54: the turn looks for a RESET among its moves before it makes any (log 23). -/
theorem resetWinsOverCoincidentMoves : Obligations.ResetWinsOverCoincidentMoves := by
  intro st moves rest hm ha
  rw [step_together hm ha]
  refine ⟨fun hmem => ?reset, fun hother => ?ordered⟩
  case reset => exact if_pos (List.any_eq_true.mpr ⟨_, hmem, isReset_encode_reset⟩)
  case ordered => exact if_neg (by simpa using hother)

end Sys2Proof.Machine
end

section
/-! SUPPORT. RESET (70_reset_and_hazards.md R230): the operation in every phase. -/

namespace Sys2Proof.Machine

/-- RESET has no guard: it is the model's reset of the engine from every state. -/
theorem exec_reset (st : State) : exec .reset st = .next st.resetEngine := rfl

/-- Settles O39: the reset of the engine writes the phase, DONE, STATUS and the buffers, and nothing else. -/
theorem resetLeavesTheChannels : Obligations.ResetLeavesTheChannels := fun st =>
  ⟨st.resetEngine, exec_reset st, resetEngine_endedWith st, resetEngine_keepsChannels st, resetEngine_keepsOutside st⟩

end Sys2Proof.Machine
end
